-- ==== Sys2Proof/Word.lean ====
section
/-! DEFINITION. The words of GMK-ECC and the small records made of them: a 256-bit value (R6), a 32-bit limb (R6), a byte,
the value of a point register (R23), the parameter block (R32), what a point command that divides has read (R32, R48) and the seven
error codes (R241) by name. -/

namespace Sys2Proof

/-- A 256-bit value: residue, scalar, exponent or coordinate (R6: `W = 256`). -/
abbrev Word := BitVec 256

/-- One 32-bit limb, which is also one bus word of the window (R6: `LIMB = 32`; R62). -/
abbrev Limb := BitVec 32

/-- One byte of the encoding buffer (R31). -/
abbrev Byte := BitVec 8

/-- The value of one point register (R23): the affine point `(x, y)` when `inf` is false, the point at infinity when it is
true. Nothing forces the coordinates below p, and an infinite register may hold any `x` and `y` (R24). -/
structure Point where
  x   : Word
  y   : Word
  inf : Bool
  deriving DecidableEq, Repr, Inhabited

/-- The six writable registers of the parameter block (R32). The cofactor `PRM.H` is the constant 1 (R33) and is not stored. -/
structure Params where
  p  : Word
  a  : Word
  b  : Word
  gx : Word
  gy : Word
  n  : Word
  deriving DecidableEq, Repr, Inhabited

/-- All that the result of PADD, PDBL or PMUL may be a function of (R48): the command word and what the command has read. That is the
modulus, the coefficient where the command doubles (R32), the source points with every infinite one in its canonical form, since its
coordinates are ignored (R23, R24), and the scalar of PMUL. GX, GY, B and N are no part of it (R32), and neither is STATUS (R25,
R276). -/
structure CommandInput where
  word    : BitVec 32
  p       : Nat
  a       : Option Nat
  sources : List Point
  scalar  : Option Word
  deriving DecidableEq, Repr

/-- The ways a command can fail (R241, codes 1 to 7). Codes 8 to 15 are never written, so they have no name. -/
inductive CmdError where
  | illegalCmd
  | badModulus
  | operandRange
  | noInverse
  | noSqrt
  | invalidEncoding
  | invalidPoint
  deriving DecidableEq, Repr, Inhabited

end Sys2Proof
end

