-- ==== Sys2Proof/Syntax.lean ====
section
/-! DEFINITION. The seventeen commands as syntax (R95), one constructor per row of the opcode table, operands in the order of
the assembler (R103): destination first. -/

namespace Sys2Proof

/-- The modulus a field command works with (R94): `p` is M = 0 and selects `PRM.P`, `n` is M = 1 and selects `PRM.N`. -/
inductive Modulus where
  | p
  | n
  deriving DecidableEq, Repr

/-- A register number as the 4-bit fields RD, RA and RB of the command word hold it (R90). It names a field register for all
sixteen values and a point register only below 4 (R91); `Instr.wellFormed` says where the second holds. -/
abbrev RegNum := Fin 16

/-- The commands of R95. `rd`, `ra`, `rb` name field registers; `pd`, `pa`, `pb` name point registers. -/
inductive Instr where
  | modadd (m : Modulus) (rd ra rb : RegNum)
  | modsub (m : Modulus) (rd ra rb : RegNum)
  | modmul (m : Modulus) (rd ra rb : RegNum)
  | montmul (m : Modulus) (rd ra rb : RegNum)
  | modinv (m : Modulus) (rd ra : RegNum)
  | modexp (m : Modulus) (rd ra rb : RegNum)
  | modsqrt (rd ra : RegNum)
  | modred (m : Modulus) (rd ra : RegNum)
  | padd (pd pa pb : RegNum)
  | pdbl (pd pa : RegNum)
  | pneg (pd pa : RegNum)
  | peq (pa pb : RegNum)
  | pchk (pa : RegNum)
  | pmul (pd rb pa : RegNum)
  | pencu (pa : RegNum)
  | pencc (pa : RegNum)
  | pdec (pd : RegNum)
  deriving DecidableEq, Repr

end Sys2Proof
end

