-- ==== Sys2Proof/WellFormed.lean ====
section
/-! DEFINITION. Which terms of `Instr` a command word can spell: every operand that names a point register is below 4 (R91). -/

namespace Sys2Proof

/-- The register number names a point register: the two high bits of the field are 0 (R91, `p`). -/
def RegNum.isPoint (n : RegNum) : Bool := decide (n.val < 4)

/-- A command is well formed when each of its point operands names one of P0 to P3 (R91, R100). A field-register operand may
be any of the sixteen. -/
def Instr.wellFormed : Instr → Bool
  | .modadd _ _ _ _ => true
  | .modsub _ _ _ _ => true
  | .modmul _ _ _ _ => true
  | .montmul _ _ _ _ => true
  | .modinv _ _ _ => true
  | .modexp _ _ _ _ => true
  | .modsqrt _ _ => true
  | .modred _ _ _ => true
  | .padd pd pa pb => RegNum.isPoint pd && RegNum.isPoint pa && RegNum.isPoint pb
  | .pdbl pd pa => RegNum.isPoint pd && RegNum.isPoint pa
  | .pneg pd pa => RegNum.isPoint pd && RegNum.isPoint pa
  | .peq pa pb => RegNum.isPoint pa && RegNum.isPoint pb
  | .pchk pa => RegNum.isPoint pa
  | .pmul pd _ pa => RegNum.isPoint pd && RegNum.isPoint pa
  | .pencu pa => RegNum.isPoint pa
  | .pencc pa => RegNum.isPoint pa
  | .pdec pd => RegNum.isPoint pd

end Sys2Proof
end

