-- ==== Sys2Proof/Decode.lean ====
section
/-! DEFINITION. The command word: its seven fields (R90), the formats with their masks (R91), the opcode map (R95), the
decoder, which refuses every illegal word of R100 by name, and the encoder. -/

namespace Sys2Proof

/-- The seven fields of a command word (R90). -/
structure CommandWord where
  opc : BitVec 8
  m   : BitVec 1
  z1  : BitVec 7
  rd  : BitVec 4
  ra  : BitVec 4
  rb  : BitVec 4
  z2  : BitVec 4
  deriving DecidableEq, Repr

/-- The seventeen opcodes by name (R95). -/
inductive Opcode where
  | modadd | modsub | modmul | montmul | modinv | modexp | modsqrt | modred
  | padd | pdbl | pneg | peq | pchk | pmul
  | pencu | pencc | pdec
  deriving DecidableEq, Repr

/-- What a format says of one register field (R91): a field register `r`, a point register `p`, or `0`. -/
inductive FieldRule where
  | reg
  | point
  | zero
  deriving DecidableEq, Repr

/-- One row of the table of formats (R91). `mFree` is true where M is `m` and false where it must be 0. -/
structure Format where
  rd    : FieldRule
  ra    : FieldRule
  rb    : FieldRule
  mFree : Bool
  mask  : BitVec 32
  deriving DecidableEq, Repr

/-- Why a word is illegal (R100), by name. -/
inductive DecodeError where
  | unknownOpcode
  | reservedFieldNotZero
  | registerFieldNotZero
  | pointRegisterAboveThree
  | modulusBitNotZero
  deriving DecidableEq, Repr

def formatF3  : Format := ⟨.reg, .reg, .reg, true, 0xF000FEFF#32⟩
def formatF2  : Format := ⟨.reg, .reg, .zero, true, 0xFF00FEFF#32⟩
def formatF2S : Format := ⟨.reg, .reg, .zero, false, 0xFF00FFFF#32⟩
def formatP3  : Format := ⟨.point, .point, .point, false, 0xFCCCFFFF#32⟩
def formatP2  : Format := ⟨.point, .point, .zero, false, 0xFFCCFFFF#32⟩
def formatPC  : Format := ⟨.zero, .point, .point, false, 0xFCCFFFFF#32⟩
def formatP1  : Format := ⟨.zero, .point, .zero, false, 0xFFCFFFFF#32⟩
def formatPD  : Format := ⟨.point, .zero, .zero, false, 0xFFFCFFFF#32⟩
def formatPM  : Format := ⟨.point, .point, .reg, false, 0xF0CCFFFF#32⟩

/-- The format of each opcode (R91, R95). -/
def Opcode.format : Opcode → Format
  | .modadd => formatF3
  | .modsub => formatF3
  | .modmul => formatF3
  | .montmul => formatF3
  | .modinv => formatF2
  | .modexp => formatF3
  | .modsqrt => formatF2S
  | .modred => formatF2
  | .padd => formatP3
  | .pdbl => formatP2
  | .pneg => formatP2
  | .peq => formatPC
  | .pchk => formatP1
  | .pmul => formatPM
  | .pencu => formatP1
  | .pencc => formatP1
  | .pdec => formatPD

/-- The opcode byte OPC of each command (R95). -/
def Opcode.code : Opcode → BitVec 8
  | .modadd => 0x01#8
  | .modsub => 0x02#8
  | .modmul => 0x03#8
  | .montmul => 0x04#8
  | .modinv => 0x05#8
  | .modexp => 0x06#8
  | .modsqrt => 0x07#8
  | .modred => 0x08#8
  | .padd => 0x10#8
  | .pdbl => 0x11#8
  | .pneg => 0x12#8
  | .peq => 0x13#8
  | .pchk => 0x14#8
  | .pmul => 0x15#8
  | .pencu => 0x20#8
  | .pencc => 0x21#8
  | .pdec => 0x22#8

/-- Every opcode, in the order of R95. -/
def allOpcodes : List Opcode :=
  [.modadd, .modsub, .modmul, .montmul, .modinv, .modexp, .modsqrt, .modred,
   .padd, .pdbl, .pneg, .peq, .pchk, .pmul, .pencu, .pencc, .pdec]

/-- The command an opcode byte names, if any (R95). -/
def opcodeOf (c : BitVec 8) : Option Opcode := allOpcodes.find? (fun o => o.code == c)

/-- The fields of a word, each at its bit positions (R90). -/
def fieldsOf (w : BitVec 32) : CommandWord where
  opc := w.extractLsb' 0 8
  m   := w.extractLsb' 8 1
  z1  := w.extractLsb' 9 7
  rd  := w.extractLsb' 16 4
  ra  := w.extractLsb' 20 4
  rb  := w.extractLsb' 24 4
  z2  := w.extractLsb' 28 4

/-- The word with these fields, each shifted to its lowest bit (R90). -/
def wordOf (c : CommandWord) : BitVec 32 :=
  c.opc.setWidth 32 ||| c.m.setWidth 32 <<< 8 ||| c.z1.setWidth 32 <<< 9 ||| c.rd.setWidth 32 <<< 16
    ||| c.ra.setWidth 32 <<< 20 ||| c.rb.setWidth 32 <<< 24 ||| c.z2.setWidth 32 <<< 28

/-- The register number a 4-bit field spells (R92). -/
def regOf (f : BitVec 4) : RegNum := f.toFin

/-- The 4-bit field that spells a register number (R92). -/
def fieldOfReg (n : RegNum) : BitVec 4 := BitVec.ofFin n

/-- The modulus the M bit selects (R94). -/
def modulusOf (m : BitVec 1) : Modulus := if m = 0#1 then .p else .n

/-- The M bit that selects a modulus (R94). -/
def bitOfModulus : Modulus → BitVec 1
  | .p => 0#1
  | .n => 1#1

/-- One register field against what its format says of it (R91, R100). -/
def checkField (rule : FieldRule) (f : BitVec 4) : Except DecodeError Unit :=
  match rule with
  | .reg => .ok ()
  | .point => if f.extractLsb' 2 2 = 0#2 then .ok () else .error .pointRegisterAboveThree
  | .zero => if f = 0#4 then .ok () else .error .registerFieldNotZero

/-- All fields of a word against its format: Z1 and Z2, then RD, RA, RB, then M (R91, R100). -/
def checkFields (fmt : Format) (c : CommandWord) : Except DecodeError Unit :=
  if c.z1 ≠ 0#7 ∨ c.z2 ≠ 0#4 then .error .reservedFieldNotZero
  else if fmt.mFree = false ∧ c.m ≠ 0#1 then .error .modulusBitNotZero
  else do
    checkField fmt.rd c.rd
    checkField fmt.ra c.ra
    checkField fmt.rb c.rb

/-- The command with this opcode and these fields (R91, R92; for PMUL, RB is the scalar and RA the point). -/
def build (o : Opcode) (c : CommandWord) : Instr :=
  match o with
  | .modadd => .modadd (modulusOf c.m) (regOf c.rd) (regOf c.ra) (regOf c.rb)
  | .modsub => .modsub (modulusOf c.m) (regOf c.rd) (regOf c.ra) (regOf c.rb)
  | .modmul => .modmul (modulusOf c.m) (regOf c.rd) (regOf c.ra) (regOf c.rb)
  | .montmul => .montmul (modulusOf c.m) (regOf c.rd) (regOf c.ra) (regOf c.rb)
  | .modinv => .modinv (modulusOf c.m) (regOf c.rd) (regOf c.ra)
  | .modexp => .modexp (modulusOf c.m) (regOf c.rd) (regOf c.ra) (regOf c.rb)
  | .modsqrt => .modsqrt (regOf c.rd) (regOf c.ra)
  | .modred => .modred (modulusOf c.m) (regOf c.rd) (regOf c.ra)
  | .padd => .padd (regOf c.rd) (regOf c.ra) (regOf c.rb)
  | .pdbl => .pdbl (regOf c.rd) (regOf c.ra)
  | .pneg => .pneg (regOf c.rd) (regOf c.ra)
  | .peq => .peq (regOf c.ra) (regOf c.rb)
  | .pchk => .pchk (regOf c.ra)
  | .pmul => .pmul (regOf c.rd) (regOf c.rb) (regOf c.ra)
  | .pencu => .pencu (regOf c.ra)
  | .pencc => .pencc (regOf c.ra)
  | .pdec => .pdec (regOf c.rd)

/-- The decoder, total on 32-bit words. Every word that is no row of R91 is refused by name (R100); there is one length and no
other form (R102). -/
def decode (w : BitVec 32) : Except DecodeError Instr :=
  match opcodeOf (fieldsOf w).opc with
  | none => .error .unknownOpcode
  | some o =>
    match checkFields o.format (fieldsOf w) with
    | .error e => .error e
    | .ok () => .ok (build o (fieldsOf w))

/-- A word spells a command of the table exactly when it agrees with the command's opcode under the mask of its format (R91).
`decode` does not use it: it is the table's own form of the same check. -/
def Opcode.matchesMask (o : Opcode) (w : BitVec 32) : Bool := (w &&& o.format.mask) == o.code.setWidth 32

/-- The fields of a command: the opcode and operands in their places, 0 everywhere else (R90, R91). -/
def fieldsOfInstr : Instr → CommandWord
  | .modadd m rd ra rb => ⟨0x01#8, bitOfModulus m, 0, fieldOfReg rd, fieldOfReg ra, fieldOfReg rb, 0⟩
  | .modsub m rd ra rb => ⟨0x02#8, bitOfModulus m, 0, fieldOfReg rd, fieldOfReg ra, fieldOfReg rb, 0⟩
  | .modmul m rd ra rb => ⟨0x03#8, bitOfModulus m, 0, fieldOfReg rd, fieldOfReg ra, fieldOfReg rb, 0⟩
  | .montmul m rd ra rb => ⟨0x04#8, bitOfModulus m, 0, fieldOfReg rd, fieldOfReg ra, fieldOfReg rb, 0⟩
  | .modinv m rd ra => ⟨0x05#8, bitOfModulus m, 0, fieldOfReg rd, fieldOfReg ra, 0, 0⟩
  | .modexp m rd ra rb => ⟨0x06#8, bitOfModulus m, 0, fieldOfReg rd, fieldOfReg ra, fieldOfReg rb, 0⟩
  | .modsqrt rd ra => ⟨0x07#8, 0, 0, fieldOfReg rd, fieldOfReg ra, 0, 0⟩
  | .modred m rd ra => ⟨0x08#8, bitOfModulus m, 0, fieldOfReg rd, fieldOfReg ra, 0, 0⟩
  | .padd pd pa pb => ⟨0x10#8, 0, 0, fieldOfReg pd, fieldOfReg pa, fieldOfReg pb, 0⟩
  | .pdbl pd pa => ⟨0x11#8, 0, 0, fieldOfReg pd, fieldOfReg pa, 0, 0⟩
  | .pneg pd pa => ⟨0x12#8, 0, 0, fieldOfReg pd, fieldOfReg pa, 0, 0⟩
  | .peq pa pb => ⟨0x13#8, 0, 0, 0, fieldOfReg pa, fieldOfReg pb, 0⟩
  | .pchk pa => ⟨0x14#8, 0, 0, 0, fieldOfReg pa, 0, 0⟩
  | .pmul pd rb pa => ⟨0x15#8, 0, 0, fieldOfReg pd, fieldOfReg pa, fieldOfReg rb, 0⟩
  | .pencu pa => ⟨0x20#8, 0, 0, 0, fieldOfReg pa, 0, 0⟩
  | .pencc pa => ⟨0x21#8, 0, 0, 0, fieldOfReg pa, 0, 0⟩
  | .pdec pd => ⟨0x22#8, 0, 0, fieldOfReg pd, 0, 0, 0⟩

/-- The command word of a command (R90, R91, R95). -/
def encode (i : Instr) : BitVec 32 := wordOf (fieldsOfInstr i)

/-- The host's question about one row of the opcode table: the command the decoder reads from the word whose low `nbits` bits
are those of `w` and whose other bits are 0. A command is one 32-bit word (R90), so the word is the whole instruction. -/
def decodeTableWord (nbits w : Nat) : Option Instr :=
  match decode (BitVec.ofNat 32 (w % 2 ^ nbits)) with
  | .ok i => some i
  | .error _ => none

end Sys2Proof
end

