-- ==== Sys2Proof/Config.lean ====
section
/-! DEFINITION. What the spec leaves to an implementation (R7): the window's base address, the default parameter block, and
the free values of a point command whose inverse does not exist (U1). `LATENCY` is the freedom of the event list in `State`
(assumption 2); `BUS` and `RESET_KIND` enter no rule (assumption 12). -/

namespace Sys2Proof.Config

/-- `BASE` is any multiple of 0x800 (R7); this is which multiple, left open. -/
opaque baseIndex : Nat

/-- `BASE`, the byte address of the register window in the host's address space (R7, R60). No rule depends on it (U6). -/
def base : Nat := 0x800 * baseIndex

/-- The window offset of a byte address the platform routes to the block (R60: `off` is the byte offset from `BASE`). -/
def offsetOf (address : Nat) : Option Nat :=
  if base ≤ address then some (address - base) else none

/-- `DEFAULT_PARAMS`, instantiated with the SM2 recommended curve as R34 prints it. -/
def defaultParams : Params where
  p  := 0xFFFFFFFEFFFFFFFFFFFFFFFFFFFFFFFFFFFFFFFF00000000FFFFFFFFFFFFFFFF#256
  a  := 0xFFFFFFFEFFFFFFFFFFFFFFFFFFFFFFFFFFFFFFFF00000000FFFFFFFFFFFFFFFC#256
  b  := 0x28E9FA9E9D9F5E344D5A9E4BCF6509A7F39789F515AB8F92DDBCBD414D940E93#256
  gx := 0x32C4AE2C1F1981195F9904466A39C9948FE30BBFF2660BE1715A4589334C74C7#256
  gy := 0xBC3736A2F4F6779C59BDCEE36B692153D0A9877CC62A474002DF32E52139F0A0#256
  n  := 0xFFFFFFFEFFFFFFFFFFFFFFFFFFFFFFFF7203DF6B21C6052B53BBF40939D54123#256

/-- Free value: whether a PADD, PDBL or PMUL whose inverse does not exist raises an error, and which (U1). The argument is all
that the result of a command may depend on (R48). -/
opaque missingInverseError : CommandInput → Option CmdError

/-- Free value: the point such a command writes when it raises no error (U1). What is written is this point in the form every
result has: canonical if infinite, with coordinates below p if finite (R24, R160). -/
opaque missingInversePoint : CommandInput → Point

end Sys2Proof.Config
end

