-- ==== Sys2Proof/Machine/State.lean ====
section
/-! DEFINITION. The whole state of one instance of the block (R20), the environment's side of it (the events still to come,
the answers given, the counter of free values), the reasons a step can stop, and the state after reset (R49). -/

namespace Sys2Proof.Machine

/-- The three result flags of STATUS (R25). -/
structure Flags where
  eq      : Bool
  inf     : Bool
  onCurve : Bool
  deriving DecidableEq, Repr

/-- STATUS (R28). The software cannot write it, so it is kept as its fields; `Status.word` is the 32-bit image with the bits
that always read 0. `err` is none for the code 0 (OK). -/
structure Status where
  busy  : Bool
  done  : Bool
  err   : Option CmdError
  flags : Flags
  ovr   : Bool
  deriving DecidableEq, Repr

/-- The width of one bus access. The window admits only `word`; every other width is a BusError (R62). -/
inductive AccessSize where
  | byte
  | half
  | word
  | double
  | burst
  deriving DecidableEq, Repr

/-- One access of the host at a byte offset from `BASE` (R60). -/
inductive HostAccess where
  | read (size : AccessSize) (off : Nat)
  | write (size : AccessSize) (off : Nat) (v : Limb)
  deriving DecidableEq, Repr

/-- The response to one access (R60). -/
inductive Answer where
  | value (v : Limb)
  | ok
  | busError
  deriving DecidableEq, Repr

/-- One event of the total order of R72: a host access, a turn of the engine (R279), or the assertion of `rst` (R270). -/
inductive Event where
  | host (a : HostAccess)
  | engine
  | rst
  deriving DecidableEq, Repr

/-- The state of one instance of GMK-ECC. The first eight fields are the architectural state of R20. The last three are the
model's own and no rule of a command reads them: `events` is what the environment still does, in order (assumption 2), `answers` is
what the bus has answered, newest first, and `draws` counts the completions whose outcome U1 leaves unspecified, so that a statement
can say that there was none (assumption 5). -/
structure State where
  regs    : Vector Word 16
  points  : Vector Point 4
  prm     : Params
  encbuf  : Vector Byte 65
  enclen  : BitVec 7
  cmd     : BitVec 32
  status  : Status
  events  : List Event
  answers : List Answer
  draws   : Nat
  deriving DecidableEq, Repr

/-- Reasons the machine could stop with a fault. There are none: a failing command completes with a code in STATUS.ERR (R240)
and a failing access is answered with BusError (R60), and both are next states. -/
inductive Fault where
  deriving DecidableEq, Repr

/-- Reasons an instruction could be refused. -/
inductive Refusal where
  /-- Raised by an arm of `exec` for an instruction that has no meaning yet. Safe. No arm raises it. -/
  | notModelled (mnemonic : String)
  deriving DecidableEq, Repr

/-- All three flags 0. -/
def Flags.none : Flags := ⟨false, false, false⟩

/-- The canonical point at infinity, `P[j] <- INFINITY` (R24, R11). -/
def infinity : Point := ⟨0#256, 0#256, true⟩

/-- STATUS after reset: 0x00000000 (R28, R49). -/
def Status.idle : Status := ⟨false, false, Option.none, Flags.none, false⟩

/-- The state after reset (R49, R270), with nothing in flight, no event to come and no answer given. -/
def State.reset : State where
  regs    := Vector.replicate 16 0#256
  points  := Vector.replicate 4 infinity
  prm     := Config.defaultParams
  encbuf  := Vector.replicate 65 0#8
  enclen  := 0#7
  cmd     := 0#32
  status  := Status.idle
  events  := []
  answers := []
  draws   := 0

end Sys2Proof.Machine
end

