-- ==== Sys2Proof/Machine/Flags.lean ====
section
/-! DEFINITION. STATUS: the error codes (R241), the flag each command defines (R25), the two changes a command makes to STATUS
(R29), and its 32-bit image (R28). -/

namespace Sys2Proof

/-- The code of an error in `STATUS.ERR` (R241). -/
def CmdError.code : CmdError → BitVec 4
  | .illegalCmd => 1#4
  | .badModulus => 2#4
  | .operandRange => 3#4
  | .noInverse => 4#4
  | .noSqrt => 5#4
  | .invalidEncoding => 6#4
  | .invalidPoint => 7#4

namespace Machine

/-- The flags of a command that writes a point: INF is the INF bit of the point written (R25). -/
def pointFlags (q : Point) : Flags := ⟨false, q.inf, false⟩

/-- The flags of PEQ (R170). -/
def eqFlags (equal : Bool) : Flags := ⟨equal, false, false⟩

/-- The flags of PCHK (R172). -/
def checkFlags (infinite onCurve : Bool) : Flags := ⟨false, infinite, onCurve⟩

/-- `STATUS.ERR` (R28, R241): 0 is OK. -/
def errCode : Option CmdError → BitVec 4
  | none => 0#4
  | some e => e.code

/-- STATUS at the acceptance of a command (R29); OVR is unchanged. -/
def Status.accepted (st : Status) : Status := ⟨true, false, none, Flags.none, st.ovr⟩

/-- STATUS at the completion of a command (R29); OVR is unchanged. -/
def Status.completed (st : Status) (err : Option CmdError) (flags : Flags) : Status := ⟨false, true, err, flags, st.ovr⟩

/-- STATUS after a gated write while BUSY: OVR is set, nothing else changes (R29, R276). -/
def Status.overrun (st : Status) : Status := { st with ovr := true }

/-- The 32-bit image of STATUS (R28): BUSY 0, DONE 1, ERR 7:4, EQ 8, INF 9, ONCURVE 10, OVR 11, every other bit 0. -/
def Status.word (st : Status) : Limb :=
  (BitVec.ofBool st.busy).setWidth 32 ||| (BitVec.ofBool st.done).setWidth 32 <<< 1 ||| (errCode st.err).setWidth 32 <<< 4
    ||| (BitVec.ofBool st.flags.eq).setWidth 32 <<< 8 ||| (BitVec.ofBool st.flags.inf).setWidth 32 <<< 9
    ||| (BitVec.ofBool st.flags.onCurve).setWidth 32 <<< 10 ||| (BitVec.ofBool st.ovr).setWidth 32 <<< 11

end Machine

end Sys2Proof
end

