-- ==== Sys2Proof/Machine/Arith.lean ====
section
/-! DEFINITION. The arithmetic of residues as the field family's rules define it (R121 to R135), on natural numbers: every
result is the exact value of its formula (R122), narrowed nowhere. -/

namespace Sys2Proof.Machine

/-- Modular addition (R121), for `a` and `b` below `m`. -/
def addMod (a b m : Nat) : Nat := if a + b ≥ m then a + b - m else a + b

/-- Modular subtraction (R123), for `a` and `b` below `m`. -/
def subMod (a b m : Nat) : Nat := if a ≥ b then a - b else a + m - b

/-- Modular multiplication (R125): the remainder of the exact product. -/
def mulMod (a b m : Nat) : Nat := a * b % m

/-- The non-negative representative modulo `p` of an integer (R161: every `mod p` yields it). -/
def residueOf (z : Int) (p : Nat) : Nat := (z % (p : Int)).toNat

/-- The loop of the extended Euclidean algorithm (R217): from `(r0, r1, t0, t1)`, with the coefficients kept modulo `m`, to
the greatest common divisor and its coefficient. The fuel only bounds the recursion (R280). -/
def euclid (m : Nat) : Nat → Nat → Nat → Nat → Nat → Nat × Nat
  | 0, r0, _, t0, _ => (r0, t0)
  | fuel + 1, r0, r1, t0, t1 =>
    if r1 = 0 then (r0, t0)
    else euclid m fuel r1 (r0 - r0 / r1 * r1) t1 (subMod t0 (r0 / r1 * t1 % m) m)

/-- Iterations that suffice for 256-bit operands: every two of them at least halve the remainder. -/
def euclidFuel : Nat := 520

/-- The inverse of `a` modulo `m` (R129), or none when `gcd(a, m)` is not 1. -/
def invMod (a m : Nat) : Option Nat :=
  match euclid m euclidFuel m a 0 1 with
  | (g, t) => if g = 1 then some t else none

/-- `Rinv`, the inverse of 2^256 modulo `m` (R127). It exists for every odd `m`; the value 0 stands for no modulus a command
reaches (`rInv_spec`). -/
def rInv (m : Nat) : Nat := (invMod (2 ^ 256 % m) m).getD 0

/-- The Montgomery product `MM(a, b, m)` (R126, R127). -/
def montMod (a b m : Nat) : Nat := a * b * rInv m % m

/-- `a ^ e mod m` for the low `bits` bits of `e`, by squaring; 256 bits are a whole exponent (R131: `a ^ 0` is 1). -/
def powMod (a m : Nat) : Nat → Nat → Nat
  | 0, _ => 1 % m
  | bits + 1, e =>
    let h := powMod a m bits (e / 2)
    if e % 2 = 1 then h * h % m * a % m else h * h % m

/-- The candidate square root `a ^ ((p + 1) / 4) mod p` (R133). -/
def rootCandidate (a p : Nat) : Nat := powMod a p 256 ((p + 1) / 4)

end Sys2Proof.Machine
end

