-- ==== Sys2Proof/Machine/Curve.lean ====
section
/-! DEFINITION. The affine group law as functions on points (R161) and the scalar scan over it (R174). Where an inverse that a
formula needs does not exist (p not prime, U1) the function answers none. -/

namespace Sys2Proof.Machine

/-- A point as the group law sees it: infinity, or a pair of field elements (R13). -/
inductive Affine where
  | inf
  | pt (x y : Nat)
  deriving DecidableEq, Repr

/-- The point a register holds: infinity when INF is 1, whatever its coordinates (R23, R162). -/
def affineOf (r : Point) : Affine := if r.inf then .inf else .pt r.x.toNat r.y.toNat

/-- What a command writes for a point: the pair with INF 0, or the canonical infinity (R24). -/
def pointOf : Affine → Point
  | .inf => infinity
  | .pt x y => ⟨BitVec.ofNat 256 x, BitVec.ofNat 256 y, false⟩

/-- `NEG` (R161). -/
def affineNeg (p : Nat) : Affine → Affine
  | .inf => .inf
  | .pt x y => .pt x (if y = 0 then 0 else p - y)

/-- The point with slope `lam` through `(x1, y1)` and a point of abscissa `x2`: `x3` and `y3` of R161. -/
def chord (p lam x1 y1 x2 : Nat) : Affine :=
  let x3 : Nat := residueOf ((lam : Int) * lam - x1 - x2) p
  .pt x3 (residueOf ((lam : Int) * (x1 - x3) - y1) p)

/-- `DBL` (R161) on the curve with coefficient `a`. -/
def affineDbl (p a : Nat) : Affine → Option Affine
  | .inf => some .inf
  | .pt x y =>
    if y = 0 then some .inf
    else
      match invMod (2 * y % p) p with
      | none => none
      | some inv => some (chord p ((3 * x * x + a) * inv % p) x y x)

/-- `ADD` (R161): equal points are doubled, two points of equal x and unequal y give infinity. -/
def affineAdd (p a : Nat) : Affine → Affine → Option Affine
  | .inf, q => some q
  | q, .inf => some q
  | .pt x1 y1, .pt x2 y2 =>
    if x1 = x2 then
      if y1 = y2 then affineDbl p a (.pt x1 y1) else some .inf
    else
      match invMod (residueOf ((x2 : Int) - x1) p) p with
      | none => none
      | some inv => some (chord p (residueOf (((y2 : Int) - y1) * inv) p) x1 y1 x2)

/-- The double-and-add scan of the low `bits` bits of `k`, most significant first (R174); 256 bits are a whole scalar. -/
def scalarScan (p a : Nat) (q : Affine) : Nat → Nat → Option Affine
  | 0, _ => some .inf
  | bits + 1, k =>
    match scalarScan p a q bits (k / 2) with
    | none => none
    | some acc =>
      match affineDbl p a acc with
      | none => none
      | some twice => if k % 2 = 1 then affineAdd p a twice q else some twice

/-- The right-hand side of the curve equation, `x³ + a·x + b mod p` (R172, R196). -/
def curveRhs (p a b x : Nat) : Nat := (x * x * x + a * x + b) % p

/-- The pair satisfies the curve equation modulo `p` (R172, R196). -/
def onCurve (p a b x y : Nat) : Bool := y * y % p == curveRhs p a b x

end Sys2Proof.Machine
end

