-- ==== Sys2Proof/Machine/Operands.lean ====
section
/-! DEFINITION. Operands: how a command reads each of them, with the checks that come with the reading (R120, R160, R193), the
limbs and bytes of a 256-bit value (R10, R64), and the two byte forms of a point (R190). -/

namespace Sys2Proof.Machine

/-- `limb_k(v)`: bits 32k+31 to 32k (R10). -/
def limbOf (v : Word) (k : Nat) : Limb := v.extractLsb' (32 * k) 32

/-- The value with limb `k` replaced and the other seven kept (R64). -/
def withLimb (v : Word) (k : Nat) (l : Limb) : Word :=
  BitVec.ofNat 256 (v.toNat % 2 ^ (32 * k) + 2 ^ (32 * k) * l.toNat + 2 ^ (32 * k + 32) * (v.toNat / 2 ^ (32 * k + 32)))

/-- Byte `k` of `BE32(v)`: byte 0 is bits 255:248, byte 31 is bits 7:0 (R10). -/
def beByte (v : Word) (k : Nat) : Byte := v.extractLsb' (8 * (31 - k)) 8

/-- `BEint`: the number a byte string spells, most significant byte first (R10). -/
def beInt (s : List Byte) : Nat := s.foldl (fun acc b => 256 * acc + b.toNat) 0

/-- The uncompressed encoding, `0x04 ‖ BE32(x) ‖ BE32(y)` (R190, R192). -/
def encodeFull (x y : Word) : Vector Byte 65 :=
  Vector.ofFn fun k => if k.val = 0 then 0x04#8 else if k.val ≤ 32 then beByte x (k.val - 1) else beByte y (k.val - 33)

/-- The compressed encoding `(0x02 | (y mod 2)) ‖ BE32(x)`, followed by 32 zero bytes (R190, R194). -/
def encodeShort (x y : Word) : Vector Byte 65 :=
  Vector.ofFn fun k =>
    if k.val = 0 then 0x02#8 ||| BitVec.ofNat 8 (y.toNat % 2) else if k.val ≤ 32 then beByte x (k.val - 1) else 0x00#8

/-- The x coordinate in the buffer: `BEint(ENCBUF[1..32])` (R196). -/
def encodedX (buf : Vector Byte 65) : Nat := beInt ((buf.toList.drop 1).take 32)

/-- The y coordinate in the buffer: `BEint(ENCBUF[33..64])` (R196). -/
def encodedY (buf : Vector Byte 65) : Nat := beInt ((buf.toList.drop 33).take 32)

/-- The modulus the M bit selects, `Mod(M)` (R11, R94). -/
def modulusValue (s : State) : Modulus → Nat
  | .p => s.prm.p.toNat
  | .n => s.prm.n.toNat

/-- A modulus in use must be odd and at least 3, else BAD_MODULUS (R243). -/
def checkedModulus (m : Nat) : Except CmdError Nat :=
  if m % 2 = 1 ∧ 3 ≤ m then .ok m else .error .badModulus

/-- Where a square root is taken, `p mod 4 = 3`, else BAD_MODULUS (R243). -/
def checkedRootModulus (p : Nat) : Except CmdError Unit :=
  if p % 4 = 3 then .ok () else .error .badModulus

/-- A value the rule calls a residue must be below the modulus, else OPERAND_RANGE (R244). -/
def residue (m : Nat) (v : Word) : Except CmdError Nat :=
  if v.toNat < m then .ok v.toNat else .error .operandRange

/-- A source point: an infinite register is not range-checked, the coordinates of a finite one must be below p, else
OPERAND_RANGE (R160 check 4, R244). -/
def sourcePoint (p : Nat) (r : Point) : Except CmdError Affine :=
  if r.inf then .ok .inf
  else if r.x.toNat < p ∧ r.y.toNat < p then .ok (.pt r.x.toNat r.y.toNat)
  else .error .operandRange

/-- A point operand: a field above 3 makes the word illegal (R91, R100). -/
def pointIndex (n : RegNum) : Except CmdError (Fin 4) :=
  if h : n.val < 4 then .ok ⟨n.val, h⟩ else .error .illegalCmd

end Sys2Proof.Machine
end

