-- ==== Sys2Proof/Machine/Ops.lean ====
section
/-! DEFINITION. The named operations over the state: the writes of each kind of destination, the acceptance of a command (R27),
the two ways a command completes (R279 on success, R246 on an error), and the completion of a point command whose inverse does
not exist (U1). -/

namespace Sys2Proof.Machine

/-- `R[i] <- v` (R11). -/
def State.setReg (s : State) (i : RegNum) (v : Word) : State := { s with regs := s.regs.set i.val v i.isLt }

/-- `P[j] <- q` (R11). -/
def State.setPoint (s : State) (j : Fin 4) (q : Point) : State := { s with points := s.points.set j.val q j.isLt }

/-- ENCBUF and ENCLEN together, as the encoders write them (R192, R194). -/
def State.setEncoding (s : State) (buf : Vector Byte 65) (len : BitVec 7) : State := { s with encbuf := buf, enclen := len }

/-- A new STATUS. -/
def State.setStatus (s : State) (st : Status) : State := { s with status := st }

/-- The acceptance of a command word (R27, R29). Every word is accepted, legal or not. -/
def State.accept (s : State) (w : BitVec 32) : State := { s with cmd := w, status := s.status.accepted }

/-- One completion more whose outcome U1 leaves unspecified. -/
def State.draw (s : State) : State := { s with draws := s.draws + 1 }

/-- The destination a command's rule names, with the value for it. -/
inductive Dest where
  | none
  | reg (i : RegNum) (v : Word)
  | point (j : Fin 4) (q : Point)
  | encoding (buf : Vector Byte 65) (len : BitVec 7)
  deriving DecidableEq, Repr

/-- What a command that succeeds leaves: its destination and its flags. -/
structure Success where
  dest  : Dest
  flags : Flags
  deriving DecidableEq, Repr

/-- Write one destination; everything else stays. -/
def State.write (s : State) : Dest → State
  | .none => s
  | .reg i v => s.setReg i v
  | .point j q => s.setPoint j q
  | .encoding buf len => s.setEncoding buf len

/-- What every outcome of a machine step is here: a next state, since nothing faults and nothing is refused. -/
abbrev Outcome := Host.Outcome State Fault Refusal

/-- The completion step of a command that succeeds: the destination and STATUS change together (R279, R29). -/
def succeed (s : State) (r : Success) : Outcome :=
  .next ((s.write r.dest).setStatus (s.status.completed none r.flags))

/-- `raise e` (R246): no destination is written and STATUS holds the code, the three flags 0, OVR as before. This takes the
place of taking an exception, and there is no return from it (R247). -/
def raise (s : State) (e : CmdError) : Outcome :=
  .next (s.setStatus (s.status.completed (some e) Flags.none))

/-- The completion of a command: one of exactly two kinds (R240). -/
def finish (s : State) : Except CmdError Success → Outcome
  | .ok r => succeed s r
  | .error e => raise s e

/-- A point in the form in which a command writes it (R24, R160): the canonical infinity, or both coordinates below p. -/
def resultForm (p : Nat) (q : Point) : Point :=
  pointOf (if q.inf then .inf else .pt (q.x.toNat % p) (q.y.toNat % p))

/-- The success of a command that writes the point `q` to `P[j]` (R25). -/
def pointSuccess (j : Fin 4) (q : Point) : Success := ⟨.point j q, pointFlags q⟩

/-- The completion of a point command that has read `input` and one of whose inverses does not exist (U1, R161): whether an error is
raised, which, and the point written if none is, are free values, functions of what the command has read. R24, R25, R160, R240 and
R246 still hold of the outcome. -/
def missingInverse (s : State) (j : Fin 4) (input : CommandInput) : Outcome :=
  match Config.missingInverseError input with
  | some e => raise s.draw e
  | none => succeed s.draw (pointSuccess j (resultForm input.p (Config.missingInversePoint input)))

/-- What a point command that divides comes to: its destination, the point its formulas give (none where they need an inverse that
does not exist) and what it has read. -/
structure PointResult where
  dest  : Fin 4
  value : Option Affine
  input : CommandInput
  deriving DecidableEq, Repr

/-- The completion of a point command that divides. -/
def finishPoint (s : State) : Except CmdError PointResult → Outcome
  | .error e => raise s e
  | .ok ⟨j, some q, _⟩ => succeed s (pointSuccess j (pointOf q))
  | .ok ⟨j, none, input⟩ => missingInverse s j input

end Sys2Proof.Machine
end

