-- ==== Sys2Proof/Machine/Codec.lean ====
section
/-! DEFINITION. The point codec family (R190 to R198). The encoders write ENCBUF and ENCLEN together; the decoder reads them
and never changes them. -/

namespace Sys2Proof.Machine

/-- The coordinates of a point that can be encoded: a finite one (else INVALID_POINT), both coordinates below p (else
OPERAND_RANGE), tested in that order (R192, R194). -/
def encodable (p : Nat) (r : Point) : Except CmdError Unit :=
  if r.inf then .error .invalidPoint
  else if r.x.toNat < p ∧ r.y.toNat < p then .ok ()
  else .error .operandRange

/-- PENCU (R192). -/
def execPencu (pa : RegNum) (s : State) : Outcome :=
  finish s do
    let i ← pointIndex pa
    let p ← checkedModulus s.prm.p.toNat
    encodable p s.points[i]
    .ok ⟨.encoding (encodeFull s.points[i].x s.points[i].y) 65#7, Flags.none⟩

/-- PENCC (R194). -/
def execPencc (pa : RegNum) (s : State) : Outcome :=
  finish s do
    let i ← pointIndex pa
    let p ← checkedModulus s.prm.p.toNat
    encodable p s.points[i]
    .ok ⟨.encoding (encodeShort s.points[i].x s.points[i].y) 33#7, Flags.none⟩

/-- The uncompressed form (R196): both coordinates below p and on the curve, else INVALID_POINT. -/
def decodeFull (p a b x y : Nat) : Except CmdError Affine :=
  if x < p ∧ y < p then
    if onCurve p a b x y then .ok (.pt x y) else .error .invalidPoint
  else .error .invalidPoint

/-- The root of the right parity (R196): the candidate `c`, or `p - c`, or none when the only root is 0 and the prefix asks for
an odd y. -/
def chooseRoot (p c t : Nat) : Option Nat :=
  if c % 2 = t % 2 then some c else if c = 0 then none else some (p - c)

/-- The compressed form with prefix byte `t` (R196): `p mod 4 = 3` first, then x below p, the candidate test, the parity
choice, and the on-curve check of the recovered point. -/
def decodeShort (p a b t x : Nat) : Except CmdError Affine :=
  if p % 4 = 3 then
    if x < p then
      if rootCandidate (curveRhs p a b x) p * rootCandidate (curveRhs p a b x) p % p = curveRhs p a b x then
        match chooseRoot p (rootCandidate (curveRhs p a b x) p) t with
        | none => .error .invalidPoint
        | some y => if onCurve p a b x y then .ok (.pt x y) else .error .invalidPoint
      else .error .invalidPoint
    else .error .invalidPoint
  else .error .badModulus

/-- The decoding of a buffer and its length (R196): by length and prefix, or INVALID_ENCODING. -/
def decodePoint (p a b : Nat) (len : BitVec 7) (buf : Vector Byte 65) : Except CmdError Affine :=
  if len = 65#7 ∧ buf[0] = 0x04#8 then decodeFull p a b (encodedX buf) (encodedY buf)
  else if len = 33#7 ∧ (buf[0] = 0x02#8 ∨ buf[0] = 0x03#8) then decodeShort p a b buf[0].toNat (encodedX buf)
  else .error .invalidEncoding

/-- PDEC (R196). -/
def execPdec (pd : RegNum) (s : State) : Outcome :=
  finish s do
    let d ← pointIndex pd
    let p ← checkedModulus s.prm.p.toNat
    let a ← residue p s.prm.a
    let b ← residue p s.prm.b
    let q ← decodePoint p a b s.enclen s.encbuf
    .ok (pointSuccess d (pointOf q))

end Sys2Proof.Machine
end

