-- ==== Sys2Proof/Machine/Field.lean ====
section
/-! DEFINITION. The field family (R120 to R135). Each command makes the checks of R120 in their order: the modulus, then the
operands its rule calls residues. None reads or writes a point register, ENCBUF or ENCLEN. -/

namespace Sys2Proof.Machine

/-- Success of a field command: `R[rd] <- v`, all flags 0 (R120). -/
def fieldSuccess (rd : RegNum) (v : Nat) : Success := ⟨.reg rd (BitVec.ofNat 256 v), Flags.none⟩

/-- Checks 2 and 3 of R120 for a command with two residue operands, then its formula. -/
def binaryRule (s : State) (m : Modulus) (rd ra rb : RegNum) (f : Nat → Nat → Nat → Nat) : Except CmdError Success := do
  let q ← checkedModulus (modulusValue s m)
  let a ← residue q s.regs[ra]
  let b ← residue q s.regs[rb]
  .ok (fieldSuccess rd (f a b q))

/-- MODADD (R121). -/
def execModadd (m : Modulus) (rd ra rb : RegNum) (s : State) : Outcome := finish s (binaryRule s m rd ra rb addMod)

/-- MODSUB (R123). -/
def execModsub (m : Modulus) (rd ra rb : RegNum) (s : State) : Outcome := finish s (binaryRule s m rd ra rb subMod)

/-- MODMUL (R125). -/
def execModmul (m : Modulus) (rd ra rb : RegNum) (s : State) : Outcome := finish s (binaryRule s m rd ra rb mulMod)

/-- MONTMUL (R127). -/
def execMontmul (m : Modulus) (rd ra rb : RegNum) (s : State) : Outcome := finish s (binaryRule s m rd ra rb montMod)

/-- MODINV (R129): NO_INVERSE when `gcd(a, m)` is not 1. -/
def execModinv (m : Modulus) (rd ra : RegNum) (s : State) : Outcome :=
  finish s do
    let q ← checkedModulus (modulusValue s m)
    let a ← residue q s.regs[ra]
    match invMod a q with
    | none => .error .noInverse
    | some r => .ok (fieldSuccess rd r)

/-- MODEXP (R131): the exponent is any 256-bit value and is not range-checked. -/
def execModexp (m : Modulus) (rd ra rb : RegNum) (s : State) : Outcome :=
  finish s do
    let q ← checkedModulus (modulusValue s m)
    let a ← residue q s.regs[ra]
    .ok (fieldSuccess rd (powMod a q 256 s.regs[rb].toNat))

/-- MODSQRT (R133): always modulo `PRM.P`, which must also be 3 modulo 4; the candidate itself is the result. -/
def execModsqrt (rd ra : RegNum) (s : State) : Outcome :=
  finish s do
    let p ← checkedModulus s.prm.p.toNat
    checkedRootModulus p
    let a ← residue p s.regs[ra]
    if rootCandidate a p * rootCandidate a p % p ≠ a then .error .noSqrt
    else .ok (fieldSuccess rd (rootCandidate a p))

/-- MODRED (R135): the source is any 256-bit value. -/
def execModred (m : Modulus) (rd ra : RegNum) (s : State) : Outcome :=
  finish s do
    let q ← checkedModulus (modulusValue s m)
    .ok (fieldSuccess rd (s.regs[ra].toNat % q))

end Sys2Proof.Machine
end

