-- ==== Sys2Proof/Machine/PointFamily.lean ====
section
/-! DEFINITION. The point family (R160 to R176). Each command makes the checks of R160 in their order: the word, the modulus,
`PRM.A` (and `PRM.B`) where it reads them, the coordinates of its finite source points. -/

namespace Sys2Proof.Machine

/-- PADD (R162). -/
def execPadd (pd pa pb : RegNum) (s : State) : Outcome :=
  finishPoint s do
    let d ← pointIndex pd
    let i ← pointIndex pa
    let j ← pointIndex pb
    let p ← checkedModulus s.prm.p.toNat
    let a ← residue p s.prm.a
    let x ← sourcePoint p s.points[i]
    let y ← sourcePoint p s.points[j]
    .ok ⟨d, affineAdd p a x y,
      ⟨encode (.padd pd pa pb), p, if x = y then some a else none, [pointOf x, pointOf y], none⟩⟩

/-- PDBL (R164). -/
def execPdbl (pd pa : RegNum) (s : State) : Outcome :=
  finishPoint s do
    let d ← pointIndex pd
    let i ← pointIndex pa
    let p ← checkedModulus s.prm.p.toNat
    let a ← residue p s.prm.a
    let x ← sourcePoint p s.points[i]
    .ok ⟨d, affineDbl p a x, ⟨encode (.pdbl pd pa), p, some a, [pointOf x], none⟩⟩

/-- PNEG (R168): `PRM.A` is not read. -/
def execPneg (pd pa : RegNum) (s : State) : Outcome :=
  finish s do
    let d ← pointIndex pd
    let i ← pointIndex pa
    let p ← checkedModulus s.prm.p.toNat
    let x ← sourcePoint p s.points[i]
    .ok (pointSuccess d (pointOf (affineNeg p x)))

/-- PEQ (R170): it writes no register. Infinite registers are equal whatever their coordinates. -/
def execPeq (pa pb : RegNum) (s : State) : Outcome :=
  finish s do
    let i ← pointIndex pa
    let j ← pointIndex pb
    let p ← checkedModulus s.prm.p.toNat
    let x ← sourcePoint p s.points[i]
    let y ← sourcePoint p s.points[j]
    .ok ⟨.none, eqFlags (decide (x = y))⟩

/-- The on-curve test of PCHK (R172): a coordinate not below p fails it. -/
def pointOnCurve (p a b : Nat) (r : Point) : Bool :=
  decide (r.x.toNat < p) && decide (r.y.toNat < p) && onCurve p a b r.x.toNat r.y.toNat

/-- PCHK (R172): it writes no register and does not range-check the point; infinity is not on the curve. -/
def execPchk (pa : RegNum) (s : State) : Outcome :=
  finish s do
    let i ← pointIndex pa
    let p ← checkedModulus s.prm.p.toNat
    let a ← residue p s.prm.a
    let b ← residue p s.prm.b
    if s.points[i].inf then .ok ⟨.none, checkFlags true false⟩
    else .ok ⟨.none, checkFlags false (pointOnCurve p a b s.points[i])⟩

/-- PMUL (R174): the scalar is any 256-bit value, neither range-checked nor reduced; all its 256 bits are scanned. -/
def execPmul (pd rb pa : RegNum) (s : State) : Outcome :=
  finishPoint s do
    let d ← pointIndex pd
    let i ← pointIndex pa
    let p ← checkedModulus s.prm.p.toNat
    let a ← residue p s.prm.a
    let x ← sourcePoint p s.points[i]
    .ok ⟨d, scalarScan p a x 256 s.regs[rb].toNat, ⟨encode (.pmul pd rb pa), p, some a, [pointOf x], some s.regs[rb]⟩⟩

end Sys2Proof.Machine
end

