-- ==== Sys2Proof/Machine/Dispatch.lean ====
section
/-! DEFINITION. The meaning of each command, by one direct call: the engine's completion step (R279) for a legal word. -/

namespace Sys2Proof.Machine

def exec (i : Instr) (s : State) : Host.Outcome State Fault Refusal :=
  match i with
  | .modadd m rd ra rb => Sys2Proof.Machine.execModadd m rd ra rb s
  | .modsub m rd ra rb => Sys2Proof.Machine.execModsub m rd ra rb s
  | .modmul m rd ra rb => Sys2Proof.Machine.execModmul m rd ra rb s
  | .montmul m rd ra rb => Sys2Proof.Machine.execMontmul m rd ra rb s
  | .modinv m rd ra => Sys2Proof.Machine.execModinv m rd ra s
  | .modexp m rd ra rb => Sys2Proof.Machine.execModexp m rd ra rb s
  | .modsqrt rd ra => Sys2Proof.Machine.execModsqrt rd ra s
  | .modred m rd ra => Sys2Proof.Machine.execModred m rd ra s
  | .padd pd pa pb => Sys2Proof.Machine.execPadd pd pa pb s
  | .pdbl pd pa => Sys2Proof.Machine.execPdbl pd pa s
  | .pneg pd pa => Sys2Proof.Machine.execPneg pd pa s
  | .peq pa pb => Sys2Proof.Machine.execPeq pa pb s
  | .pchk pa => Sys2Proof.Machine.execPchk pa s
  | .pmul pd rb pa => Sys2Proof.Machine.execPmul pd rb pa s
  | .pencu pa => Sys2Proof.Machine.execPencu pa s
  | .pencc pa => Sys2Proof.Machine.execPencc pa s
  | .pdec pd => Sys2Proof.Machine.execPdec pd s

end Sys2Proof.Machine
end

