-- ==== Sys2Proof/Machine/Window.lean ====
section
/-! DEFINITION. The register window (R60 to R70): the address map (R61), the image of each register (R64, R65, R66), and the
host's two primitives with their bus errors (R62, R63) and the gating while a command runs (R276, R277). -/

namespace Sys2Proof.Machine

/-- The six writable registers of the parameter block (R26). -/
inductive ParamName where
  | p | a | b | gx | gy | n
  deriving DecidableEq, Repr

/-- What stands at a word offset of the window (R61). `k` is a limb index, `w` a word of ENCBUF. -/
inductive Slot where
  | cmd
  | status
  | enclen
  | encbuf (w : Fin 17)
  | prm (name : ParamName) (k : Fin 8)
  | prmH
  | reg (i : Fin 16) (k : Fin 8)
  | pointX (j : Fin 4) (k : Fin 8)
  | pointY (j : Fin 4) (k : Fin 8)
  | pointInf (j : Fin 4)
  deriving DecidableEq, Repr

/-- The parameter registers in the order of their offsets (R61). -/
def paramAt : Fin 6 → ParamName
  | 0 => .p
  | 1 => .a
  | 2 => .b
  | 3 => .gx
  | 4 => .gy
  | 5 => .n

/-- The offset of a parameter register's limb 0 (R26, R61). -/
def paramOffset : ParamName → Nat
  | .p => 0x100
  | .a => 0x120
  | .b => 0x140
  | .gx => 0x160
  | .gy => 0x180
  | .n => 0x1A0

/-- The offset of each slot (R61, R64, R65, R66). -/
def slotOffset : Slot → Nat
  | .cmd => 0x000
  | .status => 0x004
  | .enclen => 0x008
  | .encbuf w => 0x040 + 4 * w.val
  | .prm name k => paramOffset name + 4 * k.val
  | .prmH => 0x1C0
  | .reg i k => 0x200 + 0x20 * i.val + 4 * k.val
  | .pointX j k => 0x400 + 0x80 * j.val + 4 * k.val
  | .pointY j k => 0x420 + 0x80 * j.val + 4 * k.val
  | .pointInf j => 0x440 + 0x80 * j.val

/-- The limb index of an offset inside a block of eight words: bits 4:2 (R64). -/
def limbIndex (off : Nat) : Fin 8 := ⟨off / 4 % 8, Nat.mod_lt _ (by decide)⟩

/-- The slots below 0x200: the control registers, ENCBUF, the parameter block and PRM.H (R61). -/
def controlSlot (off : Nat) : Option Slot :=
  if off = 0x000 then some .cmd
  else if off = 0x004 then some .status
  else if off = 0x008 then some .enclen
  else if h : 0x040 ≤ off ∧ off < 0x084 then some (.encbuf ⟨(off - 0x040) / 4, by omega⟩)
  else if h : 0x100 ≤ off ∧ off < 0x1C0 then some (.prm (paramAt ⟨(off - 0x100) / 0x20, by omega⟩) (limbIndex off))
  else if off = 0x1C0 then some .prmH
  else none

/-- The slots of the point registers from 0x400 on (R61, R65). -/
def pointSlot (off : Nat) (h : off < 0x600) : Option Slot :=
  if off % 0x80 < 0x20 then some (.pointX ⟨(off - 0x400) / 0x80, by omega⟩ (limbIndex off))
  else if off % 0x80 < 0x40 then some (.pointY ⟨(off - 0x400) / 0x80, by omega⟩ (limbIndex off))
  else if off % 0x80 = 0x40 then some (.pointInf ⟨(off - 0x400) / 0x80, by omega⟩)
  else none

/-- The address map (R61): what an offset reaches. Offsets that are no multiple of 4 (R62), reserved offsets and offsets of
0x600 and above (R63) reach nothing. -/
def slotAt (off : Nat) : Option Slot :=
  if off % 4 ≠ 0 then none
  else if off < 0x200 then controlSlot off
  else if h : off < 0x400 then some (.reg ⟨(off - 0x200) / 0x20 % 16, Nat.mod_lt _ (by decide)⟩ (limbIndex off))
  else if h : off < 0x600 then pointSlot off h
  else none

/-- The value of a parameter register (R32). -/
def paramValue (q : Params) : ParamName → Word
  | .p => q.p
  | .a => q.a
  | .b => q.b
  | .gx => q.gx
  | .gy => q.gy
  | .n => q.n

/-- The parameter block with one register replaced (R32). -/
def withParam (q : Params) (name : ParamName) (v : Word) : Params :=
  match name with
  | .p => { q with p := v }
  | .a => { q with a := v }
  | .b => { q with b := v }
  | .gx => { q with gx := v }
  | .gy => { q with gy := v }
  | .n => { q with n := v }

/-- Byte `k` of the buffer as the window shows it: bytes past ENCBUF[64] read as 0 (R66). -/
def encByte (buf : Vector Byte 65) (k : Nat) : Byte := if h : k < 65 then buf[k] else 0#8

/-- Word `w` of the buffer's image: the byte of lowest index in bits 7:0 (R66). -/
def encWord (buf : Vector Byte 65) (w : Fin 17) : Limb :=
  (encByte buf (4 * w.val)).setWidth 32 ||| (encByte buf (4 * w.val + 1)).setWidth 32 <<< 8
    ||| (encByte buf (4 * w.val + 2)).setWidth 32 <<< 16 ||| (encByte buf (4 * w.val + 3)).setWidth 32 <<< 24

/-- The buffer with one word of its image written; bits of bytes that do not exist are ignored (R66). -/
def withEncWord (buf : Vector Byte 65) (w : Fin 17) (v : Limb) : Vector Byte 65 :=
  Vector.ofFn fun k => if k.val / 4 = w.val then v.extractLsb' (8 * (k.val % 4)) 8 else buf[k]

/-- What a read of a slot returns when it is not gated (R63 to R66, R28, R30, R33). -/
def readSlot (s : State) : Slot → Limb
  | .cmd => s.cmd
  | .status => s.status.word
  | .enclen => s.enclen.setWidth 32
  | .encbuf w => encWord s.encbuf w
  | .prm name k => limbOf (paramValue s.prm name) k
  | .prmH => 1#32
  | .reg i k => limbOf s.regs[i] k
  | .pointX j k => limbOf s.points[j].x k
  | .pointY j k => limbOf s.points[j].y k
  | .pointInf j => (BitVec.ofBool s.points[j].inf).setWidth 32

/-- What a write of a slot does when it is not gated. A write to CMD launches a command (R27); writes to STATUS and PRM.H change
nothing (R63); bits documented as zero are ignored (R63). -/
def writeSlot (s : State) (sl : Slot) (v : Limb) : State :=
  match sl with
  | .cmd => s.accept v
  | .status => s
  | .enclen => { s with enclen := v.setWidth 7 }
  | .encbuf w => { s with encbuf := withEncWord s.encbuf w v }
  | .prm name k => { s with prm := withParam s.prm name (withLimb (paramValue s.prm name) k v) }
  | .prmH => s
  | .reg i k => s.setReg i (withLimb s.regs[i] k v)
  | .pointX j k => s.setPoint j { s.points[j] with x := withLimb s.points[j].x k v }
  | .pointY j k => s.setPoint j { s.points[j] with y := withLimb s.points[j].y k v }
  | .pointInf j => s.setPoint j { s.points[j] with inf := v.getLsbD 0 }

/-- The slots whose writes are discarded while BUSY (R276): all but STATUS and PRM.H. -/
def Slot.writeGated : Slot → Bool
  | .status => false
  | .prmH => false
  | .cmd => true
  | .enclen => true
  | .encbuf _ => true
  | .prm _ _ => true
  | .reg _ _ => true
  | .pointX _ _ => true
  | .pointY _ _ => true
  | .pointInf _ => true

/-- The slots whose reads return 0 while BUSY (R277): those of R276 except CMD. -/
def Slot.readGated : Slot → Bool
  | .cmd => false
  | .status => false
  | .prmH => false
  | .enclen => true
  | .encbuf _ => true
  | .prm _ _ => true
  | .reg _ _ => true
  | .pointX _ _ => true
  | .pointY _ _ => true
  | .pointInf _ => true

/-- `HostRead(off)` (R60): the value, or BusError. No read changes the state (R69). -/
def hostRead (s : State) (off : Nat) : Answer :=
  match slotAt off with
  | none => .busError
  | some sl => if s.status.busy && sl.readGated then .value 0#32 else .value (readSlot s sl)

/-- `HostWrite(off, v)` (R60): the state after it and the response. While BUSY a write to a gated register is discarded and sets
OVR, with response OK (R276). -/
def hostWrite (s : State) (off : Nat) (v : Limb) : State × Answer :=
  match slotAt off with
  | none => (s, .busError)
  | some sl =>
    if s.status.busy && sl.writeGated then (s.setStatus s.status.overrun, .ok) else (writeSlot s sl v, .ok)

/-- One access of the host (R60, R62): only single 32-bit accesses are admitted, every other width is a BusError and changes
nothing. -/
def hostAccess (s : State) : HostAccess → State × Answer
  | .read .word off => (s, hostRead s off)
  | .read .byte _ => (s, .busError)
  | .read .half _ => (s, .busError)
  | .read .double _ => (s, .busError)
  | .read .burst _ => (s, .busError)
  | .write .word off v => hostWrite s off v
  | .write .byte _ _ => (s, .busError)
  | .write .half _ _ => (s, .busError)
  | .write .double _ _ => (s, .busError)
  | .write .burst _ _ => (s, .busError)

/-- An access as an event: its response joins the answers (R72). -/
def answerAccess (s : State) (a : HostAccess) : State :=
  { (hostAccess s a).1 with answers := (hostAccess s a).2 :: s.answers }

/-- The assertion of `rst` (R270): every piece of architectural state takes its reset value and a command in flight is
abandoned. The environment's events, the answers given and the count of free values are not the block's and stay. -/
def resetInput (s : State) : State := { State.reset with events := s.events, answers := s.answers, draws := s.draws }

end Sys2Proof.Machine
end

