-- ==== Sys2Proof/Machine/Engine.lean ====
section
/-! DEFINITION. The events of the block: the engine's completion step (R279), a host access, the reset input, and what happens
when the environment has no event left. -/

namespace Sys2Proof.Machine

/-- The completion of the command in CMD (R279): a word that spells no command raises ILLEGAL_CMD and nothing else (R100,
R242). -/
def complete (s : State) : Outcome :=
  match decode s.cmd with
  | .ok i => exec i s
  | .error _ => raise s .illegalCmd

/-- The engine's turn: its one step is enabled when BUSY, and an idle engine does nothing (R14, R279). -/
def engineTurn (s : State) : Outcome := if s.status.busy then complete s else .next s

/-- One event of the total order (R72). -/
def takeEvent (s : State) : Event → Outcome
  | .host a => .next (answerAccess s a)
  | .engine => engineTurn s
  | .rst => .next (resetInput s)

/-- The next event of the environment, or the engine's turn when there is none: a running command completes although nothing
else happens (R280), and the idle block waits (R49). -/
def nextEvent (s : State) : Outcome :=
  match s.events with
  | [] => engineTurn s
  | e :: rest => takeEvent { s with events := rest } e

/-- The state in which the command word with these low `nbits` bits has just been accepted (R27) and the engine has the next
turn, which completes it. -/
def launchWord (s : State) (nbits w : Nat) : State :=
  { s.accept (BitVec.ofNat 32 (w % 2 ^ nbits)) with events := .engine :: s.events }

end Sys2Proof.Machine
end

