-- ==== Sys2Proof/Machine/Step.lean ====
section
/-! DEFINITION. One step of the machine, and the host's way of launching one command word. -/

namespace Sys2Proof.Machine

/-- One step: one event of the total order of host accesses, engine steps and resets (R72, R279). -/
def step (s : State) : Host.Outcome State Fault Refusal := nextEvent s

/-- The state in which the very next step completes the command of this word: the word is in CMD, it has been accepted, and the
engine has the next turn. It stands for the host's write to CMD (R27). -/
def State.withFetchWord (s : State) (nbits w : Nat) : State := launchWord s nbits w

end Sys2Proof.Machine
end

