-- ==== Sys2Proof/Machine/Datapath.lean ====
section
/-! DEFINITION. The internal datapath (R210 to R230): the units by which the block computes what the architectural rules define.
No host can observe it (R210), so no meaning of a command calls it; each unit owes the refinement theorem R210 names. -/

namespace Sys2Proof.Machine

/-- `limb_k(v)` of a natural number (R10). -/
def natLimb (v k : Nat) : Nat := v / 2 ^ (32 * k) % 2 ^ 32

/-- The eight limbs of a 256-bit value, least significant first (R211). -/
def natLimbs (v : Nat) : List Nat := [natLimb v 0, natLimb v 1, natLimb v 2, natLimb v 3, natLimb v 4, natLimb v 5, natLimb v 6, natLimb v 7]

/-- `Σ limb_k · 2^(32k)` (R211). -/
def ofLimbs : List Nat → Nat
  | [] => 0
  | l :: ls => l + 2 ^ 32 * ofLimbs ls

/-- Limb-wise addition from k = 0 upward with a carry, which is kept (R211). -/
def addLimbs : List Nat → List Nat → Nat → List Nat × Nat
  | a :: as, b :: bs, carry =>
    let r := addLimbs as bs ((a + b + carry) / 2 ^ 32)
    ((a + b + carry) % 2 ^ 32 :: r.1, r.2)
  | _, _, carry => ([], carry)

/-- Limb-wise subtraction with a borrow, which is kept (R211). -/
def subLimbs : List Nat → List Nat → Nat → List Nat × Nat
  | a :: as, b :: bs, borrow =>
    let r := subLimbs as bs (if a < b + borrow then 1 else 0)
    ((a + 2 ^ 32 - (b + borrow)) % 2 ^ 32 :: r.1, r.2)
  | _, _, borrow => ([], borrow)

/-- MODADD in the datapath: an add followed by a compare-and-subtract of m, the carry kept as a ninth limb (R211). -/
def addUnit (a b m : Nat) : Nat :=
  let sum := addLimbs (natLimbs a) (natLimbs b) 0
  let diff := subLimbs (sum.1 ++ [sum.2]) (natLimbs m ++ [0]) 0
  if diff.2 = 0 then ofLimbs diff.1 else ofLimbs (sum.1 ++ [sum.2])

/-- MODSUB in the datapath: a subtract followed by an add of m when the borrow is set (R211). -/
def subUnit (a b m : Nat) : Nat :=
  let diff := subLimbs (natLimbs a) (natLimbs b) 0
  if diff.2 = 0 then ofLimbs diff.1 else ofLimbs (addLimbs diff.1 (natLimbs m) 0).1

/-- `m' = (−m⁻¹) mod 2^32` (R212). It exists because m is odd; the value for an even m is used nowhere. -/
def montPrime (m : Nat) : Nat := (2 ^ 32 - (invMod (m % 2 ^ 32) (2 ^ 32)).getD 0) % 2 ^ 32

/-- `RR = 2^512 mod m` (R212). -/
def montRR (m : Nat) : Nat := 2 ^ 512 % m

/-- The Montgomery image `x·2^256 mod m` (R212). -/
def montImage (x m : Nat) : Nat := x * 2 ^ 256 % m

/-- One reduction of the multiplier: add the multiple of m that makes the low limb zero, then drop that limb (R213). -/
def montReduce (m t : Nat) : Nat := (t + t % 2 ^ 32 * montPrime m % 2 ^ 32 * m) / 2 ^ 32

/-- The accumulator `T` after the first `i` iterations of the multiplier (R213). -/
def montAcc (a b m : Nat) : Nat → Nat
  | 0 => 0
  | i + 1 => montReduce m (montAcc a b m i + a * natLimb b i)

/-- The Montgomery multiplier: eight iterations and one final subtraction (R213). -/
def montUnit (a b m : Nat) : Nat := if montAcc a b m 8 ≥ m then montAcc a b m 8 - m else montAcc a b m 8

/-- MODMUL through the multiplier (R214). -/
def mulUnit (a b m : Nat) : Nat := montUnit (montUnit a b m) (montRR m) m

/-- A residue converted to its image, by one product with RR (R214). -/
def toImage (x m : Nat) : Nat := montUnit x (montRR m) m

/-- An image converted back to its residue, by one product with 1 (R214). -/
def ofImage (z m : Nat) : Nat := montUnit z 1 m

/-- The exponent scan on images, most significant bit first (R219). -/
def expAcc (image m : Nat) : Nat → Nat → Nat
  | 0, _ => toImage 1 m
  | bits + 1, e =>
    let sq := montUnit (expAcc image m bits (e / 2)) (expAcc image m bits (e / 2)) m
    if e % 2 = 1 then montUnit sq image m else sq

/-- MODEXP through the multiplier: convert, scan, convert back (R214, R219). -/
def expUnit (a e m : Nat) : Nat := ofImage (expAcc (toImage a m) m 256 e) m

/-- The square-root chain (R220): the fixed exponent, one squaring, one comparison, both on images (R214), and no second attempt. -/
def rootUnit (a p : Nat) : Option Nat :=
  let image := toImage a p
  let c := expAcc image p 256 ((p + 1) / 4)
  if montUnit c c p = image then some (ofImage c p) else none

/-- A point inside the point unit: `(X·Z⁻², Y·Z⁻³)`, or infinity when Z is 0 (R222). -/
structure Jacobian where
  x : Nat
  y : Nat
  z : Nat
  deriving DecidableEq, Repr

/-- The triple the unit writes for infinity (R222). -/
def jacInf : Jacobian := ⟨1, 1, 0⟩

/-- The entry of an affine point (R222). -/
def jacOf : Affine → Jacobian
  | .inf => jacInf
  | .pt x y => ⟨x, y, 1⟩

/-- The exit map with its one inversion (R222). -/
def jacExit (p : Nat) (j : Jacobian) : Option Affine :=
  if j.z = 0 then some .inf
  else
    match invMod j.z p with
    | none => none
    | some zi => some (.pt (j.x * (zi * zi) % p) (j.y * (zi * zi * zi) % p))

/-- `JDBL` (R223). -/
def jacDbl (p a : Nat) (j : Jacobian) : Jacobian :=
  if j.z = 0 ∨ j.y = 0 then jacInf
  else
    let s : Nat := 4 * j.x * j.y ^ 2 % p
    let m : Nat := (3 * j.x ^ 2 + a * j.z ^ 4) % p
    let x3 : Nat := residueOf ((m : Int) ^ 2 - 2 * s) p
    ⟨x3, residueOf ((m : Int) * (s - x3) - 8 * (j.y : Int) ^ 4) p, 2 * j.y * j.z % p⟩

/-- `JADD` (R224). -/
def jacAdd (p a : Nat) (j k : Jacobian) : Jacobian :=
  if j.z = 0 then k
  else if k.z = 0 then j
  else
    let u1 : Nat := j.x * k.z ^ 2 % p
    let u2 : Nat := k.x * j.z ^ 2 % p
    let s1 : Nat := j.y * k.z ^ 3 % p
    let s2 : Nat := k.y * j.z ^ 3 % p
    if u1 = u2 then
      if s1 ≠ s2 then jacInf else jacDbl p a j
    else
      let h : Nat := residueOf ((u2 : Int) - u1) p
      let r : Nat := residueOf ((s2 : Int) - s1) p
      let x3 : Nat := residueOf ((r : Int) ^ 2 - (h : Int) ^ 3 - 2 * u1 * (h : Int) ^ 2) p
      ⟨x3, residueOf ((r : Int) * (u1 * (h : Int) ^ 2 - x3) - s1 * (h : Int) ^ 3) p, h * j.z * k.z % p⟩

/-- The scalar scan on triples, as R228 writes it. -/
def jacScan (p a : Nat) (q : Affine) : Nat → Nat → Jacobian
  | 0, _ => jacInf
  | bits + 1, k =>
    let twice := jacDbl p a (jacScan p a q bits (k / 2))
    if k % 2 = 1 then jacAdd p a twice (jacOf q) else twice

/-- A triple of residues converted to images, coordinate by coordinate (R214). -/
def tripleImage (p : Nat) (j : Jacobian) : Jacobian := ⟨toImage j.x p, toImage j.y p, toImage j.z p⟩

/-- Twice a residue or an image, by the ordinary adder (R214). -/
def twiceUnit (x p : Nat) : Nat := addUnit x x p

/-- `JDBL` (R223) on images, with the image of the coefficient: every product is one pass of the multiplier, every sum and
difference one of the ordinary units, and the tests for zero are made on the images (R214). -/
def imageDbl (p a : Nat) (j : Jacobian) : Jacobian :=
  if j.z = 0 ∨ j.y = 0 then tripleImage p jacInf
  else
    let yy := montUnit j.y j.y p
    let zz := montUnit j.z j.z p
    let xx := montUnit j.x j.x p
    let s := twiceUnit (twiceUnit (montUnit j.x yy p) p) p
    let m := addUnit (addUnit (twiceUnit xx p) xx p) (montUnit a (montUnit zz zz p) p) p
    let x3 := subUnit (montUnit m m p) (twiceUnit s p) p
    let eight := twiceUnit (twiceUnit (twiceUnit (montUnit yy yy p) p) p) p
    ⟨x3, subUnit (montUnit m (subUnit s x3 p) p) eight p, twiceUnit (montUnit j.y j.z p) p⟩

/-- `JADD` (R224) on images, with the tests `U1 = U2` and `S1 = S2` made on the images (R214). -/
def imageAdd (p a : Nat) (j k : Jacobian) : Jacobian :=
  if j.z = 0 then k
  else if k.z = 0 then j
  else
    let zz1 := montUnit j.z j.z p
    let zz2 := montUnit k.z k.z p
    let u1 := montUnit j.x zz2 p
    let u2 := montUnit k.x zz1 p
    let s1 := montUnit j.y (montUnit zz2 k.z p) p
    let s2 := montUnit k.y (montUnit zz1 j.z p) p
    if u1 = u2 then
      if s1 ≠ s2 then tripleImage p jacInf else imageDbl p a j
    else
      let h := subUnit u2 u1 p
      let r := subUnit s2 s1 p
      let hh := montUnit h h p
      let hhh := montUnit hh h p
      let v := montUnit u1 hh p
      let x3 := subUnit (subUnit (montUnit r r p) hhh p) (twiceUnit v p) p
      ⟨x3, subUnit (montUnit r (subUnit v x3 p) p) (montUnit s1 hhh p) p, montUnit (montUnit h j.z p) k.z p⟩

/-- The exit of a triple of images (R222, R214): the one inversion is of the ordinary residue (R217), and each coordinate is
converted back once. -/
def imageExit (p : Nat) (j : Jacobian) : Option Affine :=
  if j.z = 0 then some .inf
  else
    match invMod (ofImage j.z p) p with
    | none => none
    | some zi =>
      let i := toImage zi p
      let ii := montUnit i i p
      some (.pt (ofImage (montUnit j.x ii p) p) (ofImage (montUnit j.y (montUnit ii i p) p) p))

/-- The scalar scanner on images (R228, R214). -/
def imageScan (p a : Nat) (j : Jacobian) : Nat → Nat → Jacobian
  | 0, _ => tripleImage p jacInf
  | bits + 1, k =>
    let twice := imageDbl p a (imageScan p a j bits (k / 2))
    if k % 2 = 1 then imageAdd p a twice j else twice

/-- PADD in the datapath: the inputs converted once, one addition on images, one exit (R214, R222, R224). -/
def pointAddUnit (p a : Nat) (q r : Affine) : Option Affine :=
  imageExit p (imageAdd p (toImage a p) (tripleImage p (jacOf q)) (tripleImage p (jacOf r)))

/-- PDBL in the datapath (R214, R222, R223). -/
def pointDblUnit (p a : Nat) (q : Affine) : Option Affine := imageExit p (imageDbl p (toImage a p) (tripleImage p (jacOf q)))

/-- PMUL in the datapath: the inputs converted once, the scan of all 256 bits on images, one exit with one inversion (R214,
R228). -/
def scanUnit (p a : Nat) (q : Affine) (k : Nat) : Option Affine :=
  imageExit p (imageScan p (toImage a p) (tripleImage p (jacOf q)) 256 k)

/-- The evaluation of `x³ + a·x + b`: three multiplications and two additions (R230). -/
def rhsUnit (p a b x : Nat) : Nat := addUnit (addUnit (mulUnit (mulUnit x x p) x p) (mulUnit a x p) p) b p

/-- The decompressor for an x below p (R230): the right-hand side, the chain, the parity choice with the subtraction p − c, and
the final squaring and comparison. -/
def decompressUnit (p a b t x : Nat) : Option Affine :=
  match rootUnit (rhsUnit p a b x) p with
  | none => none
  | some c =>
    match (if c % 2 = t % 2 then some c else if c = 0 then none else some (subUnit 0 c p)) with
    | none => none
    | some y => if mulUnit y y p = rhsUnit p a b x then some (.pt x y) else none

/-- The on-curve test of PCHK and of PDEC's uncompressed path (R230): both coordinates below p, the same evaluation of
`x³ + a·x + b`, one squaring of y, one comparison. -/
def curveUnit (p a b x y : Nat) : Bool := decide (x < p) && decide (y < p) && mulUnit y y p == rhsUnit p a b x

/-- The byte shuffle of the encoders (R230, R67): byte `k` of a coordinate, most significant first, is byte `3 − k mod 4` of limb
`7 − k div 4`. -/
def shuffleByte (v : Word) (k : Nat) : Byte := (limbOf v (7 - k / 4)).extractLsb' (8 * (3 - k % 4)) 8

/-- PENCU's shuffle (R230): the bytes of X go to ENCBUF from index 1 on and those of Y from index 33 on, behind the prefix. -/
def shuffleFull (x y : Word) : Vector Byte 65 :=
  Vector.ofFn fun k => if k.val = 0 then 0x04#8 else if k.val < 33 then shuffleByte x (k.val - 1) else shuffleByte y (k.val - 33)

/-- PENCC's shuffle (R230): the prefix takes the low bit of Y, the bytes of X follow, and the other 32 bytes are 0. -/
def shuffleShort (x y : Word) : Vector Byte 65 :=
  Vector.ofFn fun k =>
    if k.val = 0 then 0x02#8 ||| ((limbOf y 0).extractLsb' 0 1).setWidth 8 else if k.val < 33 then shuffleByte x (k.val - 1) else 0x00#8

end Sys2Proof.Machine
end

