-- ==== Sys2Proof/Safety.lean ====
section
/-! DEFINITION. The terms the claims use: the invariant of the parameter block (R9), the invariant of STATUS (R29), what a
failed command leaves (R246), the architectural part of a state (R20), the end of a run (R16) and a lost write (R276). -/

namespace Sys2Proof.Machine

/-- `ParamsValid` (R9): the premise the hardware does not check. -/
structure ParamsValid (q : Params) : Prop where
  prime   : q.p.toNat.Prime
  root    : q.p.toNat % 4 = 3
  three   : 3 < q.p.toNat
  a_lt    : q.a.toNat < q.p.toNat
  b_lt    : q.b.toNat < q.p.toNat
  gx_lt   : q.gx.toNat < q.p.toNat
  gy_lt   : q.gy.toNat < q.p.toNat
  base    : onCurve q.p.toNat q.a.toNat q.b.toNat q.gx.toNat q.gy.toNat = true
  order   : q.n.toNat.Prime
  order3  : 3 ≤ q.n.toNat
  smooth  : (4 * q.a.toNat ^ 3 + 27 * q.b.toNat ^ 2) % q.p.toNat ≠ 0

/-- STATUS as some run can leave it (R29): BUSY and DONE are never both 1; while BUSY the error and the flags are 0; an error
leaves the flags 0 (R25); and both BUSY and DONE are 0 only before the first acceptance, when STATUS is still 0. -/
def Status.legal (st : Status) : Bool :=
  match st.busy, st.done with
  | true, true => false
  | true, false => st.err == none && st.flags == Flags.none
  | false, true => st.err == none || st.flags == Flags.none
  | false, false => st == Status.idle

/-- The invariant of the machine (R29): STATUS is legal, and before the first acceptance CMD still holds its reset value. -/
def State.Inv (s : State) : Bool :=
  s.status.legal && (s.status.busy || s.status.done || s.cmd == 0#32)

/-- The architectural state (R20), without the environment's events, the answers and the count of free values. -/
structure Arch where
  regs   : Vector Word 16
  points : Vector Point 4
  prm    : Params
  encbuf : Vector Byte 65
  enclen : BitVec 7
  cmd    : BitVec 32
  status : Status
  deriving DecidableEq, Repr

/-- The architectural part of a state. -/
def State.arch (s : State) : Arch := ⟨s.regs, s.points, s.prm, s.encbuf, s.enclen, s.cmd, s.status⟩

/-- STATUS after a command that succeeded with these flags (R29): written out, for the statements. -/
def doneStatus (s : State) (flags : Flags) : Status := { busy := false, done := true, err := none, flags := flags, ovr := s.status.ovr }

/-- The state after a command that failed with this error (R246): only STATUS differs. -/
def State.failed (s : State) (e : CmdError) : State :=
  { s with status := { busy := false, done := true, err := some e, flags := ⟨false, false, false⟩, ovr := s.status.ovr } }

/-- The state after a field command that wrote `v` to `R[rd]` (R120): that register and STATUS, all flags 0, differ. -/
def State.fieldDone (s : State) (rd : RegNum) (v : Nat) : State :=
  { s with regs := s.regs.set rd.val (BitVec.ofNat 256 v) rd.isLt, status := doneStatus s ⟨false, false, false⟩ }

/-- The state after a command that wrote `q` to `P[d]` (R25): that register and STATUS differ, and the INF flag is the INF bit of
the point written. -/
def State.pointDone (s : State) (d : Fin 4) (q : Point) : State :=
  { s with points := s.points.set d.val q d.isLt, status := doneStatus s ⟨false, q.inf, false⟩ }

/-- The state after a command that wrote no register (R170, R172). -/
def State.flagsDone (s : State) (flags : Flags) : State := { s with status := doneStatus s flags }

/-- The operand that names a point register (R91, R92). -/
def pointReg (j : Fin 4) : RegNum := ⟨j.val, by omega⟩

/-- The 32 bytes of the buffer from index `at` on are `BE32(v)` (R10, R190). -/
def Spells (buf : Vector Byte 65) (start v : Nat) : Prop :=
  v < 2 ^ 256 ∧ ∀ k < 32, buf[start + k]? = some (BitVec.ofNat 8 (v / 2 ^ (8 * (31 - k))))

/-- Both coordinates of a point are below the modulus (R160). -/
def Affine.Below (p : Nat) : Affine → Prop
  | .inf => True
  | .pt x y => x < p ∧ y < p

/-- All three coordinates of a triple are below the modulus (R222: field elements). -/
def Jacobian.Below (p : Nat) (j : Jacobian) : Prop := j.x < p ∧ j.y < p ∧ j.z < p

/-- A point as a command leaves it in a register: the canonical infinity, or a finite point with both coordinates below p
(R160). -/
def Canonical (p : Nat) (q : Point) : Prop := q = ⟨0#256, 0#256, true⟩ ∨ (q.inf = false ∧ q.x.toNat < p ∧ q.y.toNat < p)

/-- An outcome that U1 leaves unspecified (assumption 5): an error with nothing written, or some point in `P[d]` in the form every
result has; and it is counted. -/
def Unspecified (s : State) (d : Fin 4) (t : State) : Prop :=
  t.draws = s.draws + 1 ∧ ((∃ e, { t with draws := s.draws } = s.failed e) ∨
    ∃ q, Canonical s.prm.p.toNat q ∧ { t with draws := s.draws } = s.pointDone d q)

/-- The bits of a word of the window that hold what is written to them (R63, R65, R66). -/
def implementedBits : Slot → Limb
  | .enclen => 0x0000007F#32
  | .pointInf _ => 0x00000001#32
  | .encbuf w => if w = 16 then 0x000000FF#32 else 0xFFFFFFFF#32
  | .cmd => 0xFFFFFFFF#32
  | .status => 0#32
  | .prmH => 0#32
  | .prm _ _ => 0xFFFFFFFF#32
  | .reg _ _ => 0xFFFFFFFF#32
  | .pointX _ _ => 0xFFFFFFFF#32
  | .pointY _ _ => 0xFFFFFFFF#32

/-- The event is an access of the host (R14). -/
def Event.isHost : Event → Bool
  | .host _ => true
  | .engine => false
  | .rst => false

/-- The run has ended (R16): the host has no further access to make and no command is running. Turns of the idle engine and resets
may still be to come. -/
def runEnded (s : State) : Bool := !s.status.busy && s.events.all fun e => !e.isHost

/-- Some write of the host has been lost since reset (R276). -/
def lostWrite (s : State) : Bool := s.status.ovr

/-- A command can run: the modulus in use is odd and at least 3 (R243). -/
abbrev GoodModulus (m : Nat) : Prop := m % 2 = 1 ∧ 3 ≤ m

/-- A source point passes the range check (R160 check 4): infinite, or both coordinates below p. -/
abbrev InRange (p : Nat) (r : Point) : Prop := r.inf = true ∨ (r.x.toNat < p ∧ r.y.toNat < p)

/-- The short-Weierstrass curve y² = x³ + a·x + b over the field of p (R160), as the library has it. -/
def curveOver (p a b : Nat) : WeierstrassCurve.Affine (ZMod p) := ⟨0, 0, 0, (a : ZMod p), (b : ZMod p)⟩

/-- A pair of numbers stands for a point of the curve's group (R176). -/
def Represents {p a b : Nat} : Affine → (curveOver p a b).Point → Prop
  | .inf, q => q = .zero
  | .pt x y, q => x < p ∧ y < p ∧ ∃ h : (curveOver p a b).Nonsingular (x : ZMod p) (y : ZMod p), q = .some (x : ZMod p) (y : ZMod p) h

end Sys2Proof.Machine
end

