-- ==== Sys2Proof/Certificates/Slice0/Obligations.lean ====
section
/-! DEFINITION. The statements for the provers: what the numbered rules of the spec say of the commands, of the machine's steps,
of the window and of the internal datapath. -/

open Sys2Proof Sys2Proof.Machine

/-! ### The command word (R90 to R102) -/

/-- R90, R91: the word of a well-formed command decodes to it; the word of a term with a point register above 3 is refused. -/
def Obligations.DecodeOfEncode : Prop :=
  ∀ i : Instr, decode (encode i) = if i.wellFormed then .ok i else .error .pointRegisterAboveThree

/-- R90, R91: a word that decodes is the word of the command it decodes to, so no bit of it is dropped, and that command is well
formed. -/
def Obligations.EncodeOfDecode : Prop :=
  ∀ (w : BitVec 32) (i : Instr), decode w = .ok i → i.wellFormed = true ∧ encode i = w

/-- R91: a word spells the command of an opcode exactly when it agrees with the opcode under the command's mask. -/
def Obligations.DecodeMatchesMask : Prop :=
  ∀ (w : BitVec 32) (o : Opcode), (w &&& o.format.mask) = o.code.setWidth 32 ↔
    ∃ i, decode w = .ok i ∧ (fieldsOfInstr i).opc = o.code

/-- R90, R91, R100: words written out in the spec (R103 and the table of illegal words), decoded. -/
def Obligations.SpecWordsDecode : Prop :=
  decode 0x02130003#32 = .ok (.modmul .p 3 1 2) ∧ decode 0x00540105#32 = .ok (.modinv .n 4 5) ∧
  decode 0x02010015#32 = .ok (.pmul 1 2 0) ∧ decode 0x01000013#32 = .ok (.peq 0 1) ∧
  decode 0x00300014#32 = .ok (.pchk 3) ∧ decode 0x00020022#32 = .ok (.pdec 2) ∧
  decode 0x00000000#32 = .error .unknownOpcode ∧ decode 0x00000107#32 = .error .modulusBitNotZero ∧
  decode 0x01000005#32 = .error .registerFieldNotZero ∧ decode 0x00400010#32 = .error .pointRegisterAboveThree ∧
  decode 0x10000001#32 = .error .reservedFieldNotZero

/-! ### Steps (R27, R29, R100, R270 to R280) -/

/-- R279: while a command runs, the engine's turn is the meaning of the command the word in CMD spells, on the state with that
turn taken. The second clause is the model's choice (assumption 2, DESIGN CHOICE): when the environment has nothing left to do the
engine has the turn. -/
def Obligations.StepRunsDecodedCommand : Prop :=
  ∀ (s : State) (i : Instr) (rest : List Event), s.status.busy = true → decode s.cmd = .ok i →
    (s.events = .engine :: rest → step s = exec i { s with events := rest }) ∧ (s.events = [] → step s = exec i s)

/-- R100, R242, R279: the engine's turn on a word that agrees with no row of the table completes with ILLEGAL_CMD and changes
nothing else, whatever the registers hold and whatever is still to come. The second clause is the model's choice (assumption 2,
DESIGN CHOICE): with no event left the engine has the turn. -/
def Obligations.IllegalWordRaisesIllegalCmd : Prop :=
  ∀ (s : State) (rest : List Event), s.status.busy = true → (∀ o : Opcode, (s.cmd &&& o.format.mask) ≠ o.code.setWidth 32) →
    (s.events = .engine :: rest → step s = .next ({ s with events := rest }.failed .illegalCmd)) ∧
    (s.events = [] → step s = .next (s.failed .illegalCmd))

/-- The model's choice (assumption 7, DEDUCED from R91 and R100): a command term with a point register above 3, which no word
decodes to, raises ILLEGAL_CMD whatever the state. -/
def Obligations.IllFormedCommandRaisesIllegalCmd : Prop :=
  ∀ (i : Instr) (s : State), i.wellFormed = false → exec i s = .next (s.failed .illegalCmd)

/-- The model's reading (assumption 1, DEDUCED from R60, R240 and R280): no step faults and none is refused. -/
def Obligations.EveryStepAnswersNext : Prop := ∀ s : State, ∃ t, step s = .next t

/-- R27, R29: a write of any value to CMD while BUSY is 0 is accepted: BUSY is set, DONE, ERR and the flags are cleared, OVR
stays, and the response is OK. -/
def Obligations.WriteToCmdLaunches : Prop :=
  ∀ (s : State) (v : Limb) (rest : List Event), s.status.busy = false → s.events = .host (.write .word 0x000 v) :: rest →
    step s = .next { s with
      cmd := v
      status := { busy := true, done := false, err := none, flags := ⟨false, false, false⟩, ovr := s.status.ovr }
      events := rest
      answers := .ok :: s.answers }

/-- R49: the value of every piece of state after reset, the parameter block holding DEFAULT_PARAMS. -/
def Obligations.ResetValues : Prop :=
  (∀ i : Fin 16, State.reset.regs[i] = 0#256) ∧ (∀ j : Fin 4, State.reset.points[j] = ⟨0#256, 0#256, true⟩) ∧
  State.reset.prm = Config.defaultParams ∧ hostRead State.reset 0x1C0 = .value 1#32 ∧
  (∀ k : Fin 65, State.reset.encbuf[k] = 0x00#8) ∧ State.reset.enclen = 0#7 ∧ State.reset.cmd = 0x00000000#32 ∧
  State.reset.status.word = 0x00000000#32

/-- R34, R7 (the model's instance of the parameter DEFAULT_PARAMS: assumption 4): the numbers the window shows after reset,
limb 0 of each parameter at its lowest offset (R64). -/
def Obligations.DefaultParameters : Prop :=
  ((List.range 8).map fun k => hostRead State.reset (0x100 + 4 * k)) =
    [0xFFFFFFFF#32, 0xFFFFFFFF#32, 0x00000000#32, 0xFFFFFFFF#32, 0xFFFFFFFF#32, 0xFFFFFFFF#32, 0xFFFFFFFF#32, 0xFFFFFFFE#32].map
      Answer.value ∧
  ((List.range 8).map fun k => hostRead State.reset (0x120 + 4 * k)) =
    [0xFFFFFFFC#32, 0xFFFFFFFF#32, 0x00000000#32, 0xFFFFFFFF#32, 0xFFFFFFFF#32, 0xFFFFFFFF#32, 0xFFFFFFFF#32, 0xFFFFFFFE#32].map
      Answer.value ∧
  ((List.range 8).map fun k => hostRead State.reset (0x140 + 4 * k)) =
    [0x4D940E93#32, 0xDDBCBD41#32, 0x15AB8F92#32, 0xF39789F5#32, 0xCF6509A7#32, 0x4D5A9E4B#32, 0x9D9F5E34#32, 0x28E9FA9E#32].map
      Answer.value ∧
  ((List.range 8).map fun k => hostRead State.reset (0x160 + 4 * k)) =
    [0x334C74C7#32, 0x715A4589#32, 0xF2660BE1#32, 0x8FE30BBF#32, 0x6A39C994#32, 0x5F990446#32, 0x1F198119#32, 0x32C4AE2C#32].map
      Answer.value ∧
  ((List.range 8).map fun k => hostRead State.reset (0x180 + 4 * k)) =
    [0x2139F0A0#32, 0x02DF32E5#32, 0xC62A4740#32, 0xD0A9877C#32, 0x6B692153#32, 0x59BDCEE3#32, 0xF4F6779C#32, 0xBC3736A2#32].map
      Answer.value ∧
  ((List.range 8).map fun k => hostRead State.reset (0x1A0 + 4 * k)) =
    [0x39D54123#32, 0x53BBF409#32, 0x21C6052B#32, 0x7203DF6B#32, 0xFFFFFFFF#32, 0xFFFFFFFF#32, 0xFFFFFFFF#32, 0xFFFFFFFE#32].map
      Answer.value

/-- R270: the reset input gives every piece of architectural state its reset value from any state, a running command included. -/
def Obligations.ResetInputFromAnyState : Prop :=
  ∀ (s : State) (rest : List Event), s.events = .rst :: rest → ∃ t, step s = .next t ∧ t.arch = State.reset.arch

/-! ### The field family (R120 to R135) -/

/-- R121: MODADD. -/
def Obligations.ModaddRule : Prop :=
  ∀ (s : State) (m : Modulus) (rd ra rb : RegNum), exec (.modadd m rd ra rb) s = .next (
    if ¬ GoodModulus (modulusValue s m) then s.failed .badModulus
    else if ¬ (s.regs[ra].toNat < modulusValue s m ∧ s.regs[rb].toNat < modulusValue s m) then s.failed .operandRange
    else s.fieldDone rd ((s.regs[ra].toNat + s.regs[rb].toNat) % modulusValue s m))

/-- R123: MODSUB. -/
def Obligations.ModsubRule : Prop :=
  ∀ (s : State) (m : Modulus) (rd ra rb : RegNum), exec (.modsub m rd ra rb) s = .next (
    if ¬ GoodModulus (modulusValue s m) then s.failed .badModulus
    else if ¬ (s.regs[ra].toNat < modulusValue s m ∧ s.regs[rb].toNat < modulusValue s m) then s.failed .operandRange
    else s.fieldDone rd ((s.regs[ra].toNat + (modulusValue s m - s.regs[rb].toNat)) % modulusValue s m))

/-- R125: MODMUL. -/
def Obligations.ModmulRule : Prop :=
  ∀ (s : State) (m : Modulus) (rd ra rb : RegNum), exec (.modmul m rd ra rb) s = .next (
    if ¬ GoodModulus (modulusValue s m) then s.failed .badModulus
    else if ¬ (s.regs[ra].toNat < modulusValue s m ∧ s.regs[rb].toNat < modulusValue s m) then s.failed .operandRange
    else s.fieldDone rd (s.regs[ra].toNat * s.regs[rb].toNat % modulusValue s m))

/-- R127: MONTMUL. The result is the residue that 2^256 multiplies to the product. -/
def Obligations.MontmulRule : Prop :=
  ∀ (s : State) (m : Modulus) (rd ra rb : RegNum), ∃ r : Nat,
    (GoodModulus (modulusValue s m) → r < modulusValue s m ∧
      2 ^ 256 * r % modulusValue s m = s.regs[ra].toNat * s.regs[rb].toNat % modulusValue s m) ∧
    exec (.montmul m rd ra rb) s = .next (
      if ¬ GoodModulus (modulusValue s m) then s.failed .badModulus
      else if ¬ (s.regs[ra].toNat < modulusValue s m ∧ s.regs[rb].toNat < modulusValue s m) then s.failed .operandRange
      else s.fieldDone rd r)

/-- R129: MODINV. The result is the number in [1, m) that multiplies the operand to 1, and NO_INVERSE is raised exactly when the
operand is not coprime to the modulus. -/
def Obligations.ModinvRule : Prop :=
  ∀ (s : State) (m : Modulus) (rd ra : RegNum), ∃ r : Nat,
    (GoodModulus (modulusValue s m) → s.regs[ra].toNat < modulusValue s m →
      Nat.gcd s.regs[ra].toNat (modulusValue s m) = 1 →
      1 ≤ r ∧ r < modulusValue s m ∧ s.regs[ra].toNat * r % modulusValue s m = 1) ∧
    exec (.modinv m rd ra) s = .next (
      if ¬ GoodModulus (modulusValue s m) then s.failed .badModulus
      else if ¬ s.regs[ra].toNat < modulusValue s m then s.failed .operandRange
      else if Nat.gcd s.regs[ra].toNat (modulusValue s m) ≠ 1 then s.failed .noInverse
      else s.fieldDone rd r)

/-- R131: MODEXP. The exponent is any 256-bit value, and a^0 is 1. -/
def Obligations.ModexpRule : Prop :=
  ∀ (s : State) (m : Modulus) (rd ra rb : RegNum), exec (.modexp m rd ra rb) s = .next (
    if ¬ GoodModulus (modulusValue s m) then s.failed .badModulus
    else if ¬ s.regs[ra].toNat < modulusValue s m then s.failed .operandRange
    else s.fieldDone rd (s.regs[ra].toNat ^ s.regs[rb].toNat % modulusValue s m))

/-- R133: MODSQRT. The result is the candidate, when its square is the operand. -/
def Obligations.ModsqrtRule : Prop :=
  ∀ (s : State) (rd ra : RegNum), exec (.modsqrt rd ra) s = .next (
    if ¬ GoodModulus s.prm.p.toNat ∨ s.prm.p.toNat % 4 ≠ 3 then s.failed .badModulus
    else if ¬ s.regs[ra].toNat < s.prm.p.toNat then s.failed .operandRange
    else if (s.regs[ra].toNat ^ ((s.prm.p.toNat + 1) / 4) % s.prm.p.toNat) ^ 2 % s.prm.p.toNat ≠ s.regs[ra].toNat then
      s.failed .noSqrt
    else s.fieldDone rd (s.regs[ra].toNat ^ ((s.prm.p.toNat + 1) / 4) % s.prm.p.toNat))

/-- R135: MODRED. -/
def Obligations.ModredRule : Prop :=
  ∀ (s : State) (m : Modulus) (rd ra : RegNum), exec (.modred m rd ra) s = .next (
    if ¬ GoodModulus (modulusValue s m) then s.failed .badModulus
    else s.fieldDone rd (s.regs[ra].toNat % modulusValue s m))

/-- R134: for a prime p with p mod 4 = 3, MODSQRT writes a root below p of every operand that has one, and raises NO_SQRT for every
other. -/
def Obligations.ModsqrtFindsEveryRoot : Prop :=
  ∀ (s : State) (rd ra : RegNum), s.prm.p.toNat.Prime → s.prm.p.toNat % 4 = 3 → s.regs[ra].toNat < s.prm.p.toNat →
    ((∃ x : Nat, x * x % s.prm.p.toNat = s.regs[ra].toNat) →
      ∃ r < s.prm.p.toNat, r * r % s.prm.p.toNat = s.regs[ra].toNat ∧ exec (.modsqrt rd ra) s = .next (s.fieldDone rd r)) ∧
    ((¬ ∃ x : Nat, x * x % s.prm.p.toNat = s.regs[ra].toNat) → exec (.modsqrt rd ra) s = .next (s.failed .noSqrt))

/-- R126: MODMUL is two Montgomery products, the second with 2^512 mod m. -/
def Obligations.MontgomeryProductRelation : Prop :=
  ∀ a b m : Nat, GoodModulus m → m < 2 ^ 256 → a < m → b < m →
    montMod (montMod a b m) ((2 ^ 256) ^ 2 % m) m = a * b % m

/-! ### The point family (R160 to R176) -/

/-- R162, R161: PADD, by the cases of R161: it completes in every state, with an error of R160, an infinity, a copy, the double or
the chord's third point. The chord is stated for a prime p, and the double (PDBL's own next state) where 2y has its inverse or none
is needed, as U1 asks. -/
def Obligations.PaddRule : Prop :=
  ∀ (s : State) (d i j : Fin 4), ∃ t, exec (.padd (pointReg d) (pointReg i) (pointReg j)) s = .next t ∧
    if ¬ GoodModulus s.prm.p.toNat then t = s.failed .badModulus
    else if ¬ s.prm.a.toNat < s.prm.p.toNat then t = s.failed .operandRange
    else if ¬ (InRange s.prm.p.toNat s.points[i] ∧ InRange s.prm.p.toNat s.points[j]) then t = s.failed .operandRange
    else if s.points[i].inf = true ∧ s.points[j].inf = true then t = s.pointDone d ⟨0#256, 0#256, true⟩
    else if s.points[i].inf = true then t = s.pointDone d s.points[j]
    else if s.points[j].inf = true then t = s.pointDone d s.points[i]
    else if s.points[i] = s.points[j] then
      s.points[i].y = 0#256 ∨ Nat.gcd (2 * s.points[i].y.toNat) s.prm.p.toNat = 1 →
        exec (.pdbl (pointReg d) (pointReg i)) s = .next t
    else if s.points[i].x = s.points[j].x then t = s.pointDone d ⟨0#256, 0#256, true⟩
    else
      s.prm.p.toNat.Prime →
        ∃ lam x3 y3 : Nat, x3 < s.prm.p.toNat ∧ y3 < s.prm.p.toNat ∧
          (lam : Int) * (s.points[j].x.toNat - s.points[i].x.toNat) ≡
            s.points[j].y.toNat - s.points[i].y.toNat [ZMOD s.prm.p.toNat] ∧
          (x3 : Int) ≡ lam * lam - s.points[i].x.toNat - s.points[j].x.toNat [ZMOD s.prm.p.toNat] ∧
          (y3 : Int) ≡ lam * (s.points[i].x.toNat - x3) - s.points[i].y.toNat [ZMOD s.prm.p.toNat] ∧
          t = s.pointDone d ⟨BitVec.ofNat 256 x3, BitVec.ofNat 256 y3, false⟩

/-- R164, R161: PDBL, by the cases of R161; the tangent for a prime p, as U1 asks. -/
def Obligations.PdblRule : Prop :=
  ∀ (s : State) (d i : Fin 4), ∃ t, exec (.pdbl (pointReg d) (pointReg i)) s = .next t ∧
    if ¬ GoodModulus s.prm.p.toNat then t = s.failed .badModulus
    else if ¬ s.prm.a.toNat < s.prm.p.toNat then t = s.failed .operandRange
    else if ¬ InRange s.prm.p.toNat s.points[i] then t = s.failed .operandRange
    else if s.points[i].inf = true ∨ s.points[i].y = 0#256 then t = s.pointDone d ⟨0#256, 0#256, true⟩
    else
      s.prm.p.toNat.Prime →
        ∃ lam x3 y3 : Nat, x3 < s.prm.p.toNat ∧ y3 < s.prm.p.toNat ∧
          (lam : Int) * (2 * s.points[i].y.toNat) ≡ 3 * (s.points[i].x.toNat * s.points[i].x.toNat) + s.prm.a.toNat
            [ZMOD s.prm.p.toNat] ∧
          (x3 : Int) ≡ lam * lam - 2 * s.points[i].x.toNat [ZMOD s.prm.p.toNat] ∧
          (y3 : Int) ≡ lam * (s.points[i].x.toNat - x3) - s.points[i].y.toNat [ZMOD s.prm.p.toNat] ∧
          t = s.pointDone d ⟨BitVec.ofNat 256 x3, BitVec.ofNat 256 y3, false⟩

/-- R168: PNEG. -/
def Obligations.PnegRule : Prop :=
  ∀ (s : State) (d i : Fin 4), exec (.pneg (pointReg d) (pointReg i)) s = .next (
    if ¬ GoodModulus s.prm.p.toNat then s.failed .badModulus
    else if ¬ InRange s.prm.p.toNat s.points[i] then s.failed .operandRange
    else if s.points[i].inf then s.pointDone d ⟨0#256, 0#256, true⟩
    else s.pointDone d ⟨s.points[i].x, if s.points[i].y = 0#256 then 0#256 else s.prm.p - s.points[i].y, false⟩)

/-- R170: PEQ. -/
def Obligations.PeqRule : Prop :=
  ∀ (s : State) (i j : Fin 4), exec (.peq (pointReg i) (pointReg j)) s = .next (
    if ¬ GoodModulus s.prm.p.toNat then s.failed .badModulus
    else if ¬ (InRange s.prm.p.toNat s.points[i] ∧ InRange s.prm.p.toNat s.points[j]) then s.failed .operandRange
    else if s.points[i].inf = true ∧ s.points[j].inf = true then s.flagsDone ⟨true, false, false⟩
    else if s.points[i].inf ≠ s.points[j].inf then s.flagsDone ⟨false, false, false⟩
    else s.flagsDone ⟨decide (s.points[i].x = s.points[j].x ∧ s.points[i].y = s.points[j].y), false, false⟩)

/-- R172: PCHK. -/
def Obligations.PchkRule : Prop :=
  ∀ (s : State) (i : Fin 4), exec (.pchk (pointReg i)) s = .next (
    if ¬ GoodModulus s.prm.p.toNat then s.failed .badModulus
    else if ¬ (s.prm.a.toNat < s.prm.p.toNat ∧ s.prm.b.toNat < s.prm.p.toNat) then s.failed .operandRange
    else if s.points[i].inf then s.flagsDone ⟨false, true, false⟩
    else s.flagsDone ⟨false, false, decide (s.points[i].x.toNat < s.prm.p.toNat ∧ s.points[i].y.toNat < s.prm.p.toNat ∧
      s.points[i].y.toNat ^ 2 % s.prm.p.toNat =
        (s.points[i].x.toNat ^ 3 + s.prm.a.toNat * s.points[i].x.toNat + s.prm.b.toNat) % s.prm.p.toNat)⟩)

/-- R174: PMUL, as the scan of all 256 bits of the scalar from bit 255 down, over the functions DBL and ADD of R161; p is prime,
as U1 asks of every claim about the scan's result. -/
def Obligations.PmulRule : Prop :=
  ∀ (s : State) (d i : Fin 4) (rb : RegNum), ∃ t, exec (.pmul (pointReg d) rb (pointReg i)) s = .next t ∧
    if ¬ GoodModulus s.prm.p.toNat then t = s.failed .badModulus
    else if ¬ s.prm.a.toNat < s.prm.p.toNat then t = s.failed .operandRange
    else if ¬ InRange s.prm.p.toNat s.points[i] then t = s.failed .operandRange
    else
      s.prm.p.toNat.Prime →
        ∃ acc : Nat → Affine, acc 0 = .inf ∧
          (∀ n < 256, ∃ twice, affineDbl s.prm.p.toNat s.prm.a.toNat (acc n) = some twice ∧
            if s.regs[rb].toNat.testBit (255 - n) then
              affineAdd s.prm.p.toNat s.prm.a.toNat twice (affineOf s.points[i]) = some (acc (n + 1))
            else acc (n + 1) = twice) ∧
          t = s.pointDone d (pointOf (acc 256))

/-- R174, corner cases: k = 0 and an infinite point give infinity and k = 1 copies the point, for any modulus that passes the checks;
k = 2 is PDBL where 2y has its inverse or none is needed. (Where it has none U1 leaves both commands unspecified, and the model gives
each its own free outcome: assumption 5.) -/
def Obligations.PmulSmallScalars : Prop :=
  ∀ (s : State) (d i : Fin 4) (rb : RegNum), GoodModulus s.prm.p.toNat → s.prm.a.toNat < s.prm.p.toNat →
    InRange s.prm.p.toNat s.points[i] →
    (s.regs[rb] = 0#256 ∨ s.points[i].inf = true →
      exec (.pmul (pointReg d) rb (pointReg i)) s = .next (s.pointDone d ⟨0#256, 0#256, true⟩)) ∧
    (s.regs[rb] = 1#256 → s.points[i].inf = false →
      exec (.pmul (pointReg d) rb (pointReg i)) s = .next (s.pointDone d s.points[i])) ∧
    (s.regs[rb] = 2#256 →
      s.points[i].inf = true ∨ s.points[i].y = 0#256 ∨ Nat.gcd (2 * s.points[i].y.toNat) s.prm.p.toNat = 1 →
      exec (.pmul (pointReg d) rb (pointReg i)) s = exec (.pdbl (pointReg d) (pointReg i)) s)

/-- R176: under ParamsValid, for a finite point that PCHK finds on the curve, PMUL writes the multiple k·Pt of the curve's group. -/
def Obligations.PmulIsGroupMultiple : Prop :=
  ∀ (s : State) (p : Nat) [Fact p.Prime] (d i : Fin 4) (rb : RegNum), s.prm.p.toNat = p → ParamsValid s.prm →
    s.points[i].inf = false → pointOnCurve p s.prm.a.toNat s.prm.b.toNat s.points[i] = true →
    ∃ (q : (curveOver p s.prm.a.toNat s.prm.b.toNat).Point) (r : Affine),
      Represents (affineOf s.points[i]) q ∧ Represents r (s.regs[rb].toNat • q) ∧
      exec (.pmul (pointReg d) rb (pointReg i)) s = .next (s.pointDone d (pointOf r))

/-- U1, R161 (the model's choice: assumption 5, DESIGN CHOICE): a PADD, PDBL or PMUL that passes its checks but needs an inverse that
does not exist completes all the same, with an error and nothing written or with some point in its destination, which has the form
every result has. PADD needs the inverse of 2y for two equal points, PMUL for every scalar above 1, and whatever else its scan comes
upon. -/
def Obligations.MissingInverseStillCompletes : Prop :=
  ∀ (s : State) (d i j : Fin 4) (rb : RegNum), GoodModulus s.prm.p.toNat → s.prm.a.toNat < s.prm.p.toNat →
    InRange s.prm.p.toNat s.points[i] → InRange s.prm.p.toNat s.points[j] → s.points[i].inf = false → s.points[j].inf = false →
    (s.points[i].x ≠ s.points[j].x →
      Int.gcd ((s.points[j].x.toNat : Int) - s.points[i].x.toNat) s.prm.p.toNat ≠ 1 →
      ∃ t, exec (.padd (pointReg d) (pointReg i) (pointReg j)) s = .next t ∧ Unspecified s d t) ∧
    (s.points[i].y ≠ 0#256 → Nat.gcd (2 * s.points[i].y.toNat) s.prm.p.toNat ≠ 1 →
      (∃ t, exec (.pdbl (pointReg d) (pointReg i)) s = .next t ∧ Unspecified s d t) ∧
      (s.points[i] = s.points[j] → ∃ t, exec (.padd (pointReg d) (pointReg i) (pointReg j)) s = .next t ∧ Unspecified s d t) ∧
      (2 ≤ s.regs[rb].toNat → ∃ t, exec (.pmul (pointReg d) rb (pointReg i)) s = .next t ∧ Unspecified s d t)) ∧
    (scalarScan s.prm.p.toNat s.prm.a.toNat (affineOf s.points[i]) 256 s.regs[rb].toNat = none →
      ∃ t, exec (.pmul (pointReg d) rb (pointReg i)) s = .next t ∧ Unspecified s d t)

/-- R161: when p is prime every inverse the point formulas need exists, so no command has an outcome that U1 leaves unspecified (the
count of such outcomes is the model's own: assumption 5). -/
def Obligations.PrimeModulusUsesNoFreeValue : Prop :=
  ∀ (i : Instr) (s t : State), s.prm.p.toNat.Prime → exec i s = .next t → t.draws = s.draws

/-! ### The codec family (R190 to R198) -/

/-- R192: PENCU. -/
def Obligations.PencuRule : Prop :=
  ∀ (s : State) (i : Fin 4), ∃ buf : Vector Byte 65,
    buf[0] = 0x04#8 ∧ Spells buf 1 s.points[i].x.toNat ∧ Spells buf 33 s.points[i].y.toNat ∧
    exec (.pencu (pointReg i)) s = .next (
      if ¬ GoodModulus s.prm.p.toNat then s.failed .badModulus
      else if s.points[i].inf then s.failed .invalidPoint
      else if s.prm.p.toNat ≤ s.points[i].x.toNat ∨ s.prm.p.toNat ≤ s.points[i].y.toNat then s.failed .operandRange
      else { s with encbuf := buf, enclen := 65#7, status := doneStatus s ⟨false, false, false⟩ })

/-- R194: PENCC. -/
def Obligations.PenccRule : Prop :=
  ∀ (s : State) (i : Fin 4), ∃ buf : Vector Byte 65,
    buf[0] = (if s.points[i].y.toNat % 2 = 0 then 0x02#8 else 0x03#8) ∧ Spells buf 1 s.points[i].x.toNat ∧
    (∀ k : Fin 65, 33 ≤ k.val → buf[k] = 0x00#8) ∧
    exec (.pencc (pointReg i)) s = .next (
      if ¬ GoodModulus s.prm.p.toNat then s.failed .badModulus
      else if s.points[i].inf then s.failed .invalidPoint
      else if s.prm.p.toNat ≤ s.points[i].x.toNat ∨ s.prm.p.toNat ≤ s.points[i].y.toNat then s.failed .operandRange
      else { s with encbuf := buf, enclen := 33#7, status := doneStatus s ⟨false, false, false⟩ })

/-- R196, the uncompressed form: both coordinates below p and the curve equation, else INVALID_POINT. -/
def Obligations.PdecUncompressedRule : Prop :=
  ∀ (s : State) (d : Fin 4) (x y : Nat), s.enclen = 65#7 → s.encbuf[0] = 0x04#8 → Spells s.encbuf 1 x → Spells s.encbuf 33 y →
    exec (.pdec (pointReg d)) s = .next (
      if ¬ GoodModulus s.prm.p.toNat then s.failed .badModulus
      else if ¬ (s.prm.a.toNat < s.prm.p.toNat ∧ s.prm.b.toNat < s.prm.p.toNat) then s.failed .operandRange
      else if s.prm.p.toNat ≤ x ∨ s.prm.p.toNat ≤ y then s.failed .invalidPoint
      else if y ^ 2 % s.prm.p.toNat ≠ (x ^ 3 + s.prm.a.toNat * x + s.prm.b.toNat) % s.prm.p.toNat then s.failed .invalidPoint
      else s.pointDone d ⟨BitVec.ofNat 256 x, BitVec.ofNat 256 y, false⟩)

/-- R196, the compressed form: p mod 4 = 3, x below p, the candidate root of x³ + a·x + b, and the root whose parity is that of
the prefix byte. -/
def Obligations.PdecCompressedRule : Prop :=
  ∀ (s : State) (d : Fin 4) (x w c : Nat), s.enclen = 33#7 → (s.encbuf[0] = 0x02#8 ∨ s.encbuf[0] = 0x03#8) →
    Spells s.encbuf 1 x → w = (x ^ 3 + s.prm.a.toNat * x + s.prm.b.toNat) % s.prm.p.toNat →
    c = w ^ ((s.prm.p.toNat + 1) / 4) % s.prm.p.toNat →
    ∃ t, exec (.pdec (pointReg d)) s = .next t ∧
      if ¬ GoodModulus s.prm.p.toNat then t = s.failed .badModulus
      else if ¬ (s.prm.a.toNat < s.prm.p.toNat ∧ s.prm.b.toNat < s.prm.p.toNat) then t = s.failed .operandRange
      else if s.prm.p.toNat % 4 ≠ 3 then t = s.failed .badModulus
      else if s.prm.p.toNat ≤ x then t = s.failed .invalidPoint
      else if c ^ 2 % s.prm.p.toNat ≠ w then t = s.failed .invalidPoint
      else if c = 0 ∧ s.encbuf[0] = 0x03#8 then t = s.failed .invalidPoint
      else
        ∃ y, (y = c ∨ y = s.prm.p.toNat - c) ∧ y < s.prm.p.toNat ∧ y % 2 = s.encbuf[0].toNat % 2 ∧ y ^ 2 % s.prm.p.toNat = w ∧
          t = s.pointDone d ⟨BitVec.ofNat 256 x, BitVec.ofNat 256 y, false⟩

/-- R196, R191: every other length or prefix is INVALID_ENCODING, after the tests of the modulus, A and B. -/
def Obligations.PdecRefusesOtherEncodings : Prop :=
  ∀ (s : State) (d : Fin 4), ¬ (s.enclen = 65#7 ∧ s.encbuf[0] = 0x04#8) →
    ¬ (s.enclen = 33#7 ∧ (s.encbuf[0] = 0x02#8 ∨ s.encbuf[0] = 0x03#8)) →
    exec (.pdec (pointReg d)) s = .next (
      if ¬ GoodModulus s.prm.p.toNat then s.failed .badModulus
      else if ¬ (s.prm.a.toNat < s.prm.p.toNat ∧ s.prm.b.toNat < s.prm.p.toNat) then s.failed .operandRange
      else s.failed .invalidEncoding)

/-- R198: under ParamsValid, for every finite point that PCHK finds on the curve, PENCC or PENCU followed by PDEC yields the point
again, with no error. -/
def Obligations.EncodeThenDecodeRestores : Prop :=
  ∀ (s c : State) (d i : Fin 4), ParamsValid s.prm → s.points[i].inf = false →
    exec (.pchk (pointReg i)) s = .next c → c.status.flags.onCurve = true →
    ∀ enc ∈ [Instr.pencc (pointReg i), Instr.pencu (pointReg i)],
      ∃ t u, exec enc s = .next t ∧ t.status.err = none ∧ exec (.pdec (pointReg d)) t = .next u ∧ u.status.err = none ∧
        u.points[d] = s.points[i]

/-! ### All commands -/

/-- R120, R160: every residue a field command writes is below the modulus in use, and every point a point command writes for a
prime p is the canonical infinity or has both coordinates below p. -/
def Obligations.ResultsAreReduced : Prop :=
  (∀ (s t : State) (m : Modulus) (rd ra rb : RegNum),
    ∀ i ∈ [Instr.modadd m rd ra rb, .modsub m rd ra rb, .modmul m rd ra rb, .montmul m rd ra rb, .modinv m rd ra,
        .modexp m rd ra rb, .modred m rd ra],
      exec i s = .next t → t.status.err = none → t.regs[rd].toNat < modulusValue s m) ∧
  (∀ (s t : State) (rd ra : RegNum), exec (.modsqrt rd ra) s = .next t → t.status.err = none →
    t.regs[rd].toNat < s.prm.p.toNat) ∧
  (∀ (s t : State) (d a b : Fin 4) (rb : RegNum), s.prm.p.toNat.Prime →
    ∀ i ∈ [Instr.padd (pointReg d) (pointReg a) (pointReg b), .pdbl (pointReg d) (pointReg a), .pneg (pointReg d) (pointReg a),
        .pmul (pointReg d) rb (pointReg a), .pdec (pointReg d)],
      exec i s = .next t → t.status.err = none → Canonical s.prm.p.toNat t.points[d])

/-- R246: the state after a failed command is the state before it, except STATUS, whose flags are 0 and whose OVR stays. (The
model's count of the outcomes U1 leaves unspecified, which is no state of the block, may have advanced.) -/
def Obligations.ErrorLeavesEverythingElse : Prop :=
  ∀ (i : Instr) (s t : State) (e : CmdError), exec i s = .next t → t.status.err = some e →
    { t with draws := s.draws } = s.failed e

/-- R29, R32, R120, R160: what each command leaves unchanged. Every command leaves the parameter block, CMD, OVR and the
environment; a field command every field register but rd, and all point registers, ENCBUF and ENCLEN; a command that writes a
point every point register but pd, and all field registers, ENCBUF and ENCLEN; an encoder all registers; PEQ and PCHK all of
them. -/
def Obligations.CommandFrame : Prop :=
  (∀ (i : Instr) (s t : State), exec i s = .next t →
    t.prm = s.prm ∧ t.cmd = s.cmd ∧ t.status.ovr = s.status.ovr ∧ t.status.busy = false ∧ t.status.done = true ∧
      t.events = s.events ∧ t.answers = s.answers) ∧
  (∀ (s t : State) (m : Modulus) (rd ra rb : RegNum),
    ∀ i ∈ [Instr.modadd m rd ra rb, .modsub m rd ra rb, .modmul m rd ra rb, .montmul m rd ra rb, .modinv m rd ra,
        .modexp m rd ra rb, .modsqrt rd ra, .modred m rd ra],
      exec i s = .next t → (∀ r : RegNum, r ≠ rd → t.regs[r] = s.regs[r]) ∧ t.points = s.points ∧ t.encbuf = s.encbuf ∧
        t.enclen = s.enclen ∧ t.draws = s.draws) ∧
  (∀ (s t : State) (d : Fin 4) (pa pb rb : RegNum),
    ∀ i ∈ [Instr.padd (pointReg d) pa pb, .pdbl (pointReg d) pa, .pneg (pointReg d) pa, .pmul (pointReg d) rb pa,
        .pdec (pointReg d)],
      exec i s = .next t → (∀ j : Fin 4, j ≠ d → t.points[j] = s.points[j]) ∧ t.regs = s.regs ∧ t.encbuf = s.encbuf ∧
        t.enclen = s.enclen) ∧
  (∀ (s t : State) (pa pb : RegNum), ∀ i ∈ [Instr.pencu pa, .pencc pa], exec i s = .next t →
    t.regs = s.regs ∧ t.points = s.points ∧ t.draws = s.draws) ∧
  (∀ (s t : State) (pa pb : RegNum), ∀ i ∈ [Instr.peq pa pb, .pchk pa], exec i s = .next t →
    t.regs = s.regs ∧ t.points = s.points ∧ t.encbuf = s.encbuf ∧ t.enclen = s.enclen ∧ t.draws = s.draws)

/-- R25, R48, R276: the flags, and what a command depends on. All three flags are rewritten by every completion: 0 on an error; EQ
only by PEQ, ONCURVE only by PCHK, INF by the commands that write a point, which give it the INF bit they wrote, and by PCHK (where
an inverse is missing U1 leaves the INF flag open, and that it is the INF bit of the point written is the model's choice: assumption
5, DESIGN CHOICE). They are 0 after reset. No command reads a flag or any other part of STATUS but the OVR it keeps, and what a
command leaves is a function of the registers, the parameter block, ENCBUF, ENCLEN and the command, of nothing else. -/
def Obligations.FlagsFollowTheCommand : Prop :=
  (∀ (i : Instr) (s t : State), exec i s = .next t → t.status.err ≠ none → t.status.flags = ⟨false, false, false⟩) ∧
  (∀ (i : Instr) (s t : State), exec i s = .next t → t.status.flags.eq = true → ∃ pa pb, i = .peq pa pb) ∧
  (∀ (i : Instr) (s t : State), exec i s = .next t → t.status.flags.onCurve = true → ∃ pa, i = .pchk pa) ∧
  (∀ (i : Instr) (s t : State), exec i s = .next t → t.status.flags.inf = true →
    (∃ pd pa pb, i = .padd pd pa pb) ∨ (∃ pd pa, i = .pdbl pd pa) ∨ (∃ pd pa, i = .pneg pd pa) ∨
      (∃ pd rb pa, i = .pmul pd rb pa) ∨ ∃ pa, i = .pchk pa) ∧
  (∀ (s t : State) (d : Fin 4) (pa pb rb : RegNum),
    ∀ i ∈ [Instr.padd (pointReg d) pa pb, .pdbl (pointReg d) pa, .pneg (pointReg d) pa, .pmul (pointReg d) rb pa,
        .pdec (pointReg d)],
      exec i s = .next t → t.status.err = none → t.status.flags.inf = t.points[d].inf) ∧
  State.reset.status.flags = ⟨false, false, false⟩ ∧
  (∀ (i : Instr) (s : State) (st : Status), st.ovr = s.status.ovr → exec i { s with status := st } = exec i s) ∧
  (∀ (i : Instr) (s u t : State), s.regs = u.regs → s.points = u.points → s.prm = u.prm → s.encbuf = u.encbuf →
    s.enclen = u.enclen → exec i s = .next t →
    ∃ v, exec i u = .next v ∧ t.regs = v.regs ∧ t.points = v.points ∧ t.prm = v.prm ∧ t.encbuf = v.encbuf ∧ t.enclen = v.enclen ∧
      t.status.err = v.status.err ∧ t.status.flags = v.status.flags)

/-! ### The machine over many steps -/

/-- R29, R25, R27: every step keeps the invariant of STATUS and CMD. -/
def Obligations.StatusInvariantKept : Prop :=
  ∀ s t : State, s.Inv = true → step s = .next t → t.Inv = true

/-- R49: the invariant holds after reset. -/
def Obligations.StatusInvariantAtReset : Prop := State.reset.Inv = true

/-- R28, R276: OVR is cleared only by reset. -/
def Obligations.OvrClearedOnlyByReset : Prop :=
  ∀ s t : State, s.status.ovr = true → step s = .next t → t.status.ovr = true ∨ ∃ rest, s.events = .rst :: rest

/-- R276: while BUSY a write to any register but STATUS and PRM.H is discarded, answers OK and sets OVR. -/
def Obligations.GatedWriteSetsOvr : Prop :=
  ∀ (s : State) (sl : Slot) (v : Limb), s.status.busy = true → sl ≠ .status → sl ≠ .prmH →
    hostAccess s (.write .word (slotOffset sl) v) = ({ s with status := { s.status with ovr := true } }, .ok)

/-- R277: while BUSY a read of any register but CMD, STATUS and PRM.H returns 0, those three read as ever, and no read changes
anything. -/
def Obligations.GatedReadReturnsZero : Prop :=
  ∀ (s : State) (sl : Slot), s.status.busy = true →
    hostAccess s (.read .word (slotOffset sl)) = (s, .value (
      if sl = .cmd then s.cmd else if sl = .status then s.status.word else if sl = .prmH then 1#32 else 0#32))

/-- R277, R70: what the host is told while a command runs depends on CMD and STATUS alone: two busy blocks that agree there answer
every sequence of accesses alike, whatever their registers hold. -/
def Obligations.BusyBlockRevealsNothing : Prop :=
  ∀ (accesses : List HostAccess) (s u : State), s.status.busy = true → s.cmd = u.cmd → s.status = u.status →
    s.answers = u.answers → s.events = accesses.map .host → u.events = accesses.map .host →
    ∃ s' u', Host.Core.run Sys2Proof.core accesses.length s = .next s' ∧
      Host.Core.run Sys2Proof.core accesses.length u = .next u' ∧ s'.answers = u'.answers

/-- R70, R276, R279: a command is atomic with respect to host accesses: however many of them come between acceptance and completion,
every register ends as if the command had completed at once, and so does STATUS but for OVR. (The step that completes at once is
written on the empty event list, where the engine has the turn by the model's choice: assumption 2, DESIGN CHOICE.) -/
def Obligations.CommandIsAtomic : Prop :=
  ∀ (accesses : List HostAccess) (s : State), s.status.busy = true → s.events = accesses.map .host ++ [.engine] →
    ∃ t u : State, Host.Core.run Sys2Proof.core (accesses.length + 1) s = .next t ∧ step { s with events := [] } = .next u ∧
      t.arch = { u.arch with status := { u.status with ovr := t.status.ovr } }

/-- R280, R16: every accepted command completes: unless reset comes first, within one step more than the environment has events,
BUSY is 0 and DONE is 1 (where the events hold no turn of the engine, by the model's choice that it has the turn when they are used
up: assumption 2, DESIGN CHOICE). A state with BUSY 1 is never final, and a run that has ended stays ended. -/
def Obligations.EveryCommandCompletes : Prop :=
  (∀ s : State, s.status.busy = true → .rst ∉ s.events →
    ∃ k ≤ s.events.length + 1, ∃ t : State, Host.Core.run Sys2Proof.core k s = .next t ∧ t.status.busy = false ∧
      t.status.done = true) ∧
  (∀ s : State, s.status.busy = true → runEnded s = false) ∧
  ∀ s t : State, runEnded s = true → step s = .next t → runEnded t = true

/-! ### The register window (R60 to R70) -/

/-- R61: the address map: an offset reaches a register word exactly when it is that word's offset. -/
def Obligations.AddressMapIsExact : Prop :=
  ∀ (off : Nat) (sl : Slot), slotAt off = some sl ↔ slotOffset sl = off

/-- R64, R65, R66, R30, R28, R241, R27, R33: the image of each register in the window. STATUS, CMD and PRM.H read alike in every
state, with bit 0 of STATUS the BUSY bit; the others as here while no command runs. -/
def Obligations.WindowImages : Prop :=
  (∀ s : State, hostRead s 0x000 = .value s.cmd ∧ hostRead s 0x1C0 = .value 1#32 ∧
    hostRead s 0x004 = .value (BitVec.ofNat 32 (s.status.busy.toNat + 2 * s.status.done.toNat + 2 ^ 4 * (match s.status.err with
        | none => 0
        | some .illegalCmd => 1
        | some .badModulus => 2
        | some .operandRange => 3
        | some .noInverse => 4
        | some .noSqrt => 5
        | some .invalidEncoding => 6
        | some .invalidPoint => 7) +
      2 ^ 8 * s.status.flags.eq.toNat + 2 ^ 9 * s.status.flags.inf.toNat + 2 ^ 10 * s.status.flags.onCurve.toNat +
      2 ^ 11 * s.status.ovr.toNat))) ∧
  ∀ s : State, s.status.busy = false →
    (∀ (i : Fin 16) (k : Fin 8), hostRead s (0x200 + 0x20 * i.val + 4 * k.val) =
      .value (BitVec.ofNat 32 (s.regs[i].toNat / 2 ^ (32 * k.val)))) ∧
    (∀ (j : Fin 4) (k : Fin 8), hostRead s (0x400 + 0x80 * j.val + 4 * k.val) =
      .value (BitVec.ofNat 32 (s.points[j].x.toNat / 2 ^ (32 * k.val)))) ∧
    (∀ (j : Fin 4) (k : Fin 8), hostRead s (0x420 + 0x80 * j.val + 4 * k.val) =
      .value (BitVec.ofNat 32 (s.points[j].y.toNat / 2 ^ (32 * k.val)))) ∧
    (∀ j : Fin 4, hostRead s (0x440 + 0x80 * j.val) = .value (if s.points[j].inf then 1#32 else 0#32)) ∧
    (∀ k : Fin 8, hostRead s (0x100 + 4 * k.val) = .value (BitVec.ofNat 32 (s.prm.p.toNat / 2 ^ (32 * k.val))) ∧
      hostRead s (0x120 + 4 * k.val) = .value (BitVec.ofNat 32 (s.prm.a.toNat / 2 ^ (32 * k.val))) ∧
      hostRead s (0x140 + 4 * k.val) = .value (BitVec.ofNat 32 (s.prm.b.toNat / 2 ^ (32 * k.val))) ∧
      hostRead s (0x160 + 4 * k.val) = .value (BitVec.ofNat 32 (s.prm.gx.toNat / 2 ^ (32 * k.val))) ∧
      hostRead s (0x180 + 4 * k.val) = .value (BitVec.ofNat 32 (s.prm.gy.toNat / 2 ^ (32 * k.val))) ∧
      hostRead s (0x1A0 + 4 * k.val) = .value (BitVec.ofNat 32 (s.prm.n.toNat / 2 ^ (32 * k.val)))) ∧
    (∀ w : Fin 16, hostRead s (0x040 + 4 * w.val) = .value (BitVec.ofNat 32 (s.encbuf[4 * w.val].toNat +
      2 ^ 8 * s.encbuf[4 * w.val + 1].toNat + 2 ^ 16 * s.encbuf[4 * w.val + 2].toNat + 2 ^ 24 * s.encbuf[4 * w.val + 3].toNat))) ∧
    hostRead s 0x080 = .value (BitVec.ofNat 32 s.encbuf[64].toNat) ∧
    hostRead s 0x008 = .value (BitVec.ofNat 32 s.enclen.toNat)

/-- R64, R65, R66, R63: with the block idle, a word written to a data register reads back in its implemented bits, and no other
word of the window changes. -/
def Obligations.WriteThenReadBack : Prop :=
  ∀ (s : State) (sl : Slot) (v : Limb), s.status.busy = false → sl ≠ .cmd → sl ≠ .status → sl ≠ .prmH →
    (hostWrite s (slotOffset sl) v).2 = .ok ∧
    hostRead (hostWrite s (slotOffset sl) v).1 (slotOffset sl) = .value (v &&& implementedBits sl) ∧
    ∀ other : Slot, other ≠ sl →
      hostRead (hostWrite s (slotOffset sl) v).1 (slotOffset other) = hostRead s (slotOffset other)

/-- R62, R63: an access of another width, at an offset that is no multiple of 4, or at an offset of no register answers BusError
and changes nothing; a write to STATUS or PRM.H answers OK and changes nothing; and no read changes anything (R69). -/
def Obligations.BusErrorsChangeNothing : Prop :=
  (∀ (s : State) (size : AccessSize) (off : Nat) (v : Limb),
    size ≠ .word ∨ off % 4 ≠ 0 ∨ (∀ sl, slotOffset sl ≠ off) →
    hostAccess s (.read size off) = (s, .busError) ∧ hostAccess s (.write size off v) = (s, .busError)) ∧
  (∀ (s : State) (v : Limb), hostWrite s 0x004 v = (s, .ok) ∧ hostWrite s 0x1C0 v = (s, .ok)) ∧
  (∀ (s : State) (size : AccessSize) (off : Nat), (hostAccess s (.read size off)).1 = s)

/-! ### The internal datapath (R210 to R230) -/

/-- R211, R230, R67: the limb-wise adder and subtractor compute MODADD and MODSUB, and the byte shuffles of PENCU and PENCC place
the bytes of limb k of a coordinate, most significant first, at the places R230 names, and give the encodings. -/
def Obligations.LimbUnitsRefine : Prop :=
  (∀ a b m : Nat, m < 2 ^ 256 → a < m → b < m →
    addUnit a b m = (a + b) % m ∧ subUnit a b m = (a + (m - b)) % m) ∧
  (∀ (v : Word) (k : Nat), k < 32 → shuffleByte v k = BitVec.ofNat 8 (v.toNat / 2 ^ (8 * (31 - k)))) ∧
  (∀ (x y : Word) (k j : Nat), k < 8 → j < 4 →
    (shuffleFull x y)[1 + 4 * (7 - k) + j]? = some (BitVec.ofNat 8 (x.toNat / 2 ^ (32 * k + 8 * (3 - j)))) ∧
    (shuffleFull x y)[33 + 4 * (7 - k) + j]? = some (BitVec.ofNat 8 (y.toNat / 2 ^ (32 * k + 8 * (3 - j)))) ∧
    (shuffleShort x y)[1 + 4 * (7 - k) + j]? = some (BitVec.ofNat 8 (x.toNat / 2 ^ (32 * k + 8 * (3 - j))))) ∧
  ∀ x y : Word, shuffleFull x y = encodeFull x y ∧ shuffleShort x y = encodeShort x y

/-- R213, R214: the word-serial multiplier computes the Montgomery product, with its accumulator below 2m after every iteration,
two passes of it the ordinary product, one pass with RR the image, one pass with 1 the residue again, and one pass on two images
the image of the product. -/
def Obligations.MontgomeryUnitRefines : Prop :=
  ∀ a b m : Nat, GoodModulus m → m < 2 ^ 256 → a < m → b < m →
    (∀ i ≤ 8, montAcc a b m i < 2 * m) ∧ montUnit a b m = montMod a b m ∧ mulUnit a b m = a * b % m ∧
    toImage a m = montImage a m ∧ ofImage (toImage a m) m = a ∧
    montUnit (toImage a m) (toImage b m) m = toImage (a * b % m) m

/-- R219: the scan on Montgomery images computes MODEXP. -/
def Obligations.ExponentUnitRefines : Prop :=
  ∀ a e m : Nat, GoodModulus m → m < 2 ^ 256 → a < m → e < 2 ^ 256 → expUnit a e m = a ^ e % m

/-- R226, R214: for p prime the Jacobian formulas compute the affine ones: the exit of the double is the double of the exit, and the
exit of the sum the sum of the exits. The formulas on images give the images of what the formulas give, their exit is the exit, and
so the point units compute ADD and DBL. -/
def Obligations.JacobianFormulasRefine : Prop :=
  ∀ (p a : Nat) (j k : Jacobian), p.Prime → 3 ≤ p → p < 2 ^ 256 → j.Below p → k.Below p →
    (∃ q r : Affine, jacExit p j = some q ∧ jacExit p k = some r ∧
      jacExit p (jacDbl p a j) = affineDbl p a q ∧ jacExit p (jacAdd p a j k) = affineAdd p a q r) ∧
    (a < p →
      imageDbl p (toImage a p) (tripleImage p j) = tripleImage p (jacDbl p a j) ∧
      imageAdd p (toImage a p) (tripleImage p j) (tripleImage p k) = tripleImage p (jacAdd p a j k) ∧
      imageExit p (tripleImage p j) = jacExit p j ∧
      ∀ q r : Affine, q.Below p → r.Below p →
        pointDblUnit p a q = affineDbl p a q ∧ pointAddUnit p a q r = affineAdd p a q r)

/-- R228, R214: for p prime, after every bit of the scan the exit of the triple is the affine accumulator, and the scanner on images
with its one inversion computes PMUL's scan. -/
def Obligations.ScannerRefines : Prop :=
  ∀ (p a k : Nat) (q : Affine), p.Prime → 3 ≤ p → p < 2 ^ 256 → q.Below p →
    (∀ bits, jacExit p (jacScan p a q bits k) = scalarScan p a q bits k) ∧
    (a < p → scanUnit p a q k = scalarScan p a q 256 k)

/-- R220, R230: the root chain and the decompressor compute MODSQRT's candidate test and the compressed path of PDEC, and the
curve test, with the same evaluation of x³ + a·x + b and one squaring of y, the test of PCHK and the uncompressed path of PDEC. -/
def Obligations.DecompressorRefines : Prop :=
  ∀ p a b x : Nat, GoodModulus p → p < 2 ^ 256 → a < p → b < p →
    (∀ t, p % 4 = 3 → x < p →
      rootUnit x p = (if rootCandidate x p * rootCandidate x p % p = x then some (rootCandidate x p) else none) ∧
      decodeShort p a b t x = (match decompressUnit p a b t x with
        | some q => .ok q
        | none => .error .invalidPoint)) ∧
    (∀ y, decodeFull p a b x y = if curveUnit p a b x y then .ok (.pt x y) else .error .invalidPoint) ∧
    ∀ r : Point, pointOnCurve p a b r = curveUnit p a b r.x.toNat r.y.toNat
end

