-- ==== Sys2Proof/Laws/Arith.lean ====
section
/-! SUPPORT. What the arithmetic functions compute: the exact residue of each rule of the field family. -/

namespace Sys2Proof.Machine

theorem addMod_eq {a b m : Nat} (ha : a < m) (hb : b < m) : addMod a b m = (a + b) % m := by
  unfold addMod
  split
  · rw [Nat.mod_eq_sub_mod ‹_›, Nat.mod_eq_of_lt (by omega)]
  · rw [Nat.mod_eq_of_lt (by omega)]

theorem subMod_eq {a b m : Nat} (ha : a < m) (hb : b ≤ m) : subMod a b m = (a + (m - b)) % m := by
  unfold subMod
  split
  · rw [Nat.mod_eq_sub_mod (by omega), Nat.mod_eq_of_lt (by omega)]; omega
  · rw [Nat.mod_eq_of_lt (by omega)]; omega

theorem subMod_lt {a b m : Nat} (ha : a < m) (hb : b ≤ m) : subMod a b m < m := by
  rw [subMod_eq ha hb]; exact Nat.mod_lt _ (by omega)

/-- Modular subtraction is subtraction modulo `m`. -/
theorem subMod_modEq {a b m : Nat} (ha : a < m) (hb : b ≤ m) : (subMod a b m : Int) ≡ (a : Int) - b [ZMOD m] := by
  rw [subMod_eq ha hb, Int.natCast_mod, Nat.cast_add, Nat.cast_sub hb]
  refine (Int.mod_modEq _ _).trans (Int.modEq_iff_dvd.2 ⟨-1, by ring⟩)

/-- A representative is congruent to the integer it represents. -/
theorem residueOf_modEq (z : Int) {p : Nat} (hp : 0 < p) : (residueOf z p : Int) ≡ z [ZMOD p] := by
  unfold residueOf
  rw [Int.toNat_of_nonneg (Int.emod_nonneg _ (by omega))]
  exact Int.mod_modEq _ _

theorem residueOf_lt (z : Int) {p : Nat} (hp : 0 < p) : residueOf z p < p := by
  have h := Int.emod_lt_of_pos z (by omega : (0 : Int) < p)
  have h0 := Int.emod_nonneg z (by omega : (p : Int) ≠ 0)
  unfold residueOf; omega

/-- In the ring of residues a representative is the integer itself. -/
theorem residueOf_cast (z : Int) {p : Nat} (hp : 0 < p) : ((residueOf z p : Nat) : ZMod p) = (z : ZMod p) := by
  have h := (ZMod.intCast_eq_intCast_iff _ _ p).2 (residueOf_modEq z hp)
  simpa using h

/-- One iteration of Euclid's loop replaces `(r0, r1)` by `(r1, r0 mod r1)`. -/
theorem sub_div_mul (r0 r1 : Nat) : r0 - r0 / r1 * r1 = r0 % r1 := by
  have h := Nat.div_add_mod r0 r1
  rw [Nat.mul_comm] at h
  omega

/-- Euclid's loop ends at the greatest common divisor, with a coefficient below `m` that multiplies `a` to it (R217). The product
of the two remainders at least halves in each iteration, so `fuel` iterations suffice when it is below `2 ^ fuel`. -/
theorem euclid_spec (a m : Nat) (hm : 0 < m) :
    ∀ (fuel r0 r1 t0 t1 : Nat), r1 ≤ r0 → r0 * r1 < 2 ^ fuel → t0 < m → t1 < m →
      ((t0 * a : Nat) : Int) ≡ r0 [ZMOD m] → ((t1 * a : Nat) : Int) ≡ r1 [ZMOD m] →
      (euclid m fuel r0 r1 t0 t1).1 = Nat.gcd r0 r1 ∧ (euclid m fuel r0 r1 t0 t1).2 < m ∧
        (((euclid m fuel r0 r1 t0 t1).2 * a : Nat) : Int) ≡ Nat.gcd r0 r1 [ZMOD m] := by
  intro fuel
  induction fuel with
  | zero =>
    intro r0 r1 t0 t1 hle hlt ht0 _ h0 _
    have : r1 = 0 := by
      rcases Nat.eq_zero_or_pos r1 with h | h
      · exact h
      · have := Nat.mul_pos (lt_of_lt_of_le h hle) h
        omega
    subst this
    simpa [euclid] using ⟨ht0, by simpa using h0⟩
  | succ n ih =>
    intro r0 r1 t0 t1 hle hlt ht0 ht1 h0 h1
    by_cases hr : r1 = 0
    · subst hr
      simpa [euclid] using ⟨ht0, by simpa using h0⟩
    · have hpos : 0 < r1 := Nat.pos_of_ne_zero hr
      rw [euclid, if_neg hr, sub_div_mul]
      have hmod := Nat.mod_lt r0 hpos
      have hhalf : 2 * (r0 % r1) ≤ r0 := by
        have := Nat.div_add_mod r0 r1
        have : 1 ≤ r0 / r1 := (Nat.one_le_div_iff hpos).2 hle
        nlinarith
      have hq : r0 / r1 * t1 % m < m := Nat.mod_lt _ hm
      have key := ih r1 (r0 % r1) t1 (subMod t0 (r0 / r1 * t1 % m) m) hmod.le
        (by rw [pow_succ] at hlt; nlinarith) ht1 (subMod_lt ht0 hq.le) h1 ?_
      · rw [Nat.gcd_comm r1, ← Nat.gcd_rec, Nat.gcd_comm r1 r0] at key
        exact key
      · have hs := subMod_modEq ht0 hq.le
        have hs' := hs.mul_right (a : Int)
        have hmm : ((r0 / r1 * t1 % m : Nat) : Int) ≡ ((r0 / r1 : Nat) : Int) * t1 [ZMOD m] := by
          rw [Int.natCast_mod, ← Nat.cast_mul]; exact Int.mod_modEq _ _
        have h2 : ((t0 : Int) - (r0 / r1 * t1 % m : Nat)) * a ≡ (r0 : Int) - (r0 / r1 : Nat) * r1 [ZMOD m] := by
          have e1 : (t0 : Int) * a ≡ r0 [ZMOD m] := by simpa using h0
          have e2 : (t1 : Int) * a ≡ r1 [ZMOD m] := by simpa using h1
          have e3 := (hmm.mul_right (a : Int)).trans (by simpa [mul_assoc] using e2.mul_left ((r0 / r1 : Nat) : Int))
          simpa [sub_mul] using e1.sub e3
        have h3 : (r0 : Int) - (r0 / r1 : Nat) * r1 = (r0 % r1 : Nat) := by
          have := Nat.div_add_mod r0 r1
          zify at this ⊢
          linarith
        rw [h3] at h2
        simpa using hs'.trans h2

theorem two_pow_mul_le {b c : Nat} (h : b + b ≤ c) : 2 ^ b * 2 ^ b ≤ 2 ^ c := by
  rw [← pow_add]; exact Nat.pow_le_pow_right two_pos h

theorem euclid_start {a m : Nat} (hm : 1 < m) (ha : a < m) (hb : m ≤ 2 ^ 256) :
    (euclid m euclidFuel m a 0 1).1 = Nat.gcd m a ∧ (euclid m euclidFuel m a 0 1).2 < m ∧
      (((euclid m euclidFuel m a 0 1).2 * a : Nat) : Int) ≡ Nat.gcd m a [ZMOD m] := by
  refine euclid_spec a m (by omega) euclidFuel m a 0 1 ha.le ?_ (by omega) hm ?_ ?_
  · calc m * a < m * m := Nat.mul_lt_mul_of_pos_left ha (by omega)
      _ ≤ 2 ^ 256 * 2 ^ 256 := Nat.mul_le_mul hb hb
      _ ≤ 2 ^ euclidFuel := two_pow_mul_le (by unfold euclidFuel; omega)
  · simpa using (Int.modEq_iff_dvd.2 ⟨1, by ring⟩ : (0 : Int) ≡ m [ZMOD m])
  · simp [Int.ModEq.refl]

/-- The inverse exists exactly for an operand coprime to the modulus (R129). -/
theorem invMod_eq_none {a m : Nat} (hm : 1 < m) (ha : a < m) (hb : m ≤ 2 ^ 256) (h : Nat.gcd a m ≠ 1) : invMod a m = none := by
  have hs := euclid_start hm ha hb
  rw [Nat.gcd_comm] at hs
  unfold invMod
  split
  rename_i g t he
  rw [he] at hs
  simp only at hs
  rw [if_neg]
  rw [hs.1]; exact h

/-- The inverse is the number in `[1, m)` that multiplies the operand to 1 (R129). -/
theorem invMod_eq_some {a m : Nat} (hm : 1 < m) (ha : a < m) (hb : m ≤ 2 ^ 256) (h : Nat.gcd a m = 1) :
    ∃ r, invMod a m = some r ∧ 0 < r ∧ r < m ∧ a * r % m = 1 := by
  have hs := euclid_start hm ha hb
  rw [Nat.gcd_comm, h] at hs
  obtain ⟨h1, h2, h3⟩ := hs
  refine ⟨(euclid m euclidFuel m a 0 1).2, ?_, ?_, h2, ?_⟩
  · unfold invMod
    split
    rename_i g t he
    rw [he] at h1 ⊢
    simp only at h1
    rw [if_pos h1]
  · rcases Nat.eq_zero_or_pos (euclid m euclidFuel m a 0 1).2 with h0 | h0
    · rw [h0] at h3
      have := Int.modEq_iff_dvd.1 h3
      simp at this
      have := Int.le_of_dvd (by norm_num) this
      omega
    · exact h0
  · have h4 : (euclid m euclidFuel m a 0 1).2 * a ≡ 1 [MOD m] := (Int.natCast_modEq_iff).1 (by simpa using h3)
    rw [Nat.mul_comm]
    have h5 : (euclid m euclidFuel m a 0 1).2 * a % m = 1 % m := h4
    rw [h5, Nat.mod_eq_of_lt hm]

/-- In the ring of residues the inverse multiplies the operand to 1. -/
theorem invMod_cast {a m r : Nat} (hm : 1 < m) (h : a * r % m = 1) : ((a : ZMod m)) * (r : ZMod m) = 1 := by
  have : ((a * r : Nat) : ZMod m) = ((1 : Nat) : ZMod m) := by
    rw [ZMod.natCast_eq_natCast_iff']; rw [h, Nat.mod_eq_of_lt hm]
  simpa using this

theorem gcd_prime_eq_one {a p : Nat} (hp : p.Prime) (ha : a < p) (h0 : a ≠ 0) : Nat.gcd a p = 1 :=
  Nat.Coprime.symm ((Nat.Prime.coprime_iff_not_dvd hp).2 fun h => absurd (Nat.le_of_dvd (Nat.pos_of_ne_zero h0) h) (by omega))

/-- Modulo a prime every non-zero residue has an inverse. -/
theorem invMod_prime {a p : Nat} (hp : p.Prime) (ha : a < p) (h0 : a ≠ 0) (hb : p ≤ 2 ^ 256) :
    ∃ r, invMod a p = some r ∧ 0 < r ∧ r < p ∧ a * r % p = 1 :=
  invMod_eq_some hp.one_lt ha hb (gcd_prime_eq_one hp ha h0)

/-- `Rinv` is the inverse of 2^256 for every odd modulus (R127). -/
theorem rInv_spec {m : Nat} (hodd : m % 2 = 1) (h3 : 3 ≤ m) (hb : m ≤ 2 ^ 256) : rInv m < m ∧ 2 ^ 256 * rInv m % m = 1 := by
  have hc : Nat.gcd (2 ^ 256 % m) m = 1 := by
    rw [← Nat.gcd_rec, Nat.gcd_comm]
    exact Nat.Coprime.pow_left _ ((Nat.coprime_two_left).2 (Nat.odd_iff.2 hodd))
  obtain ⟨r, hr, _, hlt, h⟩ := invMod_eq_some (by omega) (Nat.mod_lt _ (by omega)) hb hc
  have : rInv m = r := by unfold rInv; rw [hr]; rfl
  rw [this]
  exact ⟨hlt, (Nat.mod_mul_mod _ _ _).symm.trans h⟩

/-- Squaring computes the power (R131). -/
theorem powMod_eq (a m : Nat) : ∀ bits e, powMod a m bits e = a ^ (e % 2 ^ bits) % m := by
  intro bits
  induction bits with
  | zero => intro e; simp [powMod, Nat.mod_one]
  | succ n ih =>
    intro e
    have hsplit : e % 2 ^ (n + 1) = 2 * (e / 2 % 2 ^ n) + e % 2 := by
      rw [pow_succ, Nat.mul_comm (2 ^ n) 2, Nat.mod_mul]; omega
    have hsq : powMod a m n (e / 2) * powMod a m n (e / 2) % m = a ^ (2 * (e / 2 % 2 ^ n)) % m := by
      rw [ih, ← Nat.mul_mod, ← pow_add, two_mul]
    unfold powMod
    simp only
    split
    · rename_i h
      rw [hsq, hsplit, h, pow_add, pow_one, Nat.mod_mul_mod]
    · rename_i h
      have h0 : e % 2 = 0 := by omega
      rw [hsq, hsplit, h0, Nat.add_zero]

/-- A 256-bit exponent is used whole. -/
theorem powMod_word (a m : Nat) {e : Nat} (he : e < 2 ^ 256) : powMod a m 256 e = a ^ e % m := by
  rw [powMod_eq, Nat.mod_eq_of_lt he]

theorem rootCandidate_eq (a : Nat) {p : Nat} (hp : p < 2 ^ 256) : rootCandidate a p = a ^ ((p + 1) / 4) % p :=
  powMod_word a p (by omega)

end Sys2Proof.Machine
end

