-- ==== Sys2Proof/Laws/State.lean ====
section
/-! SUPPORT. For each update of the state, what every field is after it. -/

namespace Sys2Proof.Machine

@[simp] theorem State.setReg_regs (s : State) (i : RegNum) (v : Word) : (s.setReg i v).regs = s.regs.set i.val v i.isLt := rfl
@[simp] theorem State.setReg_points (s : State) (i : RegNum) (v : Word) : (s.setReg i v).points = s.points := rfl
@[simp] theorem State.setReg_prm (s : State) (i : RegNum) (v : Word) : (s.setReg i v).prm = s.prm := rfl
@[simp] theorem State.setReg_encbuf (s : State) (i : RegNum) (v : Word) : (s.setReg i v).encbuf = s.encbuf := rfl
@[simp] theorem State.setReg_enclen (s : State) (i : RegNum) (v : Word) : (s.setReg i v).enclen = s.enclen := rfl
@[simp] theorem State.setReg_cmd (s : State) (i : RegNum) (v : Word) : (s.setReg i v).cmd = s.cmd := rfl
@[simp] theorem State.setReg_status (s : State) (i : RegNum) (v : Word) : (s.setReg i v).status = s.status := rfl
@[simp] theorem State.setReg_events (s : State) (i : RegNum) (v : Word) : (s.setReg i v).events = s.events := rfl
@[simp] theorem State.setReg_answers (s : State) (i : RegNum) (v : Word) : (s.setReg i v).answers = s.answers := rfl
@[simp] theorem State.setReg_draws (s : State) (i : RegNum) (v : Word) : (s.setReg i v).draws = s.draws := rfl

@[simp] theorem State.setPoint_regs (s : State) (j : Fin 4) (q : Point) : (s.setPoint j q).regs = s.regs := rfl
@[simp] theorem State.setPoint_points (s : State) (j : Fin 4) (q : Point) : (s.setPoint j q).points = s.points.set j.val q j.isLt := rfl
@[simp] theorem State.setPoint_prm (s : State) (j : Fin 4) (q : Point) : (s.setPoint j q).prm = s.prm := rfl
@[simp] theorem State.setPoint_encbuf (s : State) (j : Fin 4) (q : Point) : (s.setPoint j q).encbuf = s.encbuf := rfl
@[simp] theorem State.setPoint_enclen (s : State) (j : Fin 4) (q : Point) : (s.setPoint j q).enclen = s.enclen := rfl
@[simp] theorem State.setPoint_cmd (s : State) (j : Fin 4) (q : Point) : (s.setPoint j q).cmd = s.cmd := rfl
@[simp] theorem State.setPoint_status (s : State) (j : Fin 4) (q : Point) : (s.setPoint j q).status = s.status := rfl
@[simp] theorem State.setPoint_events (s : State) (j : Fin 4) (q : Point) : (s.setPoint j q).events = s.events := rfl
@[simp] theorem State.setPoint_answers (s : State) (j : Fin 4) (q : Point) : (s.setPoint j q).answers = s.answers := rfl
@[simp] theorem State.setPoint_draws (s : State) (j : Fin 4) (q : Point) : (s.setPoint j q).draws = s.draws := rfl

@[simp] theorem State.setEncoding_regs (s : State) (buf : Vector Byte 65) (len : BitVec 7) : (s.setEncoding buf len).regs = s.regs := rfl
@[simp] theorem State.setEncoding_points (s : State) (buf : Vector Byte 65) (len : BitVec 7) : (s.setEncoding buf len).points = s.points := rfl
@[simp] theorem State.setEncoding_prm (s : State) (buf : Vector Byte 65) (len : BitVec 7) : (s.setEncoding buf len).prm = s.prm := rfl
@[simp] theorem State.setEncoding_encbuf (s : State) (buf : Vector Byte 65) (len : BitVec 7) : (s.setEncoding buf len).encbuf = buf := rfl
@[simp] theorem State.setEncoding_enclen (s : State) (buf : Vector Byte 65) (len : BitVec 7) : (s.setEncoding buf len).enclen = len := rfl
@[simp] theorem State.setEncoding_cmd (s : State) (buf : Vector Byte 65) (len : BitVec 7) : (s.setEncoding buf len).cmd = s.cmd := rfl
@[simp] theorem State.setEncoding_status (s : State) (buf : Vector Byte 65) (len : BitVec 7) : (s.setEncoding buf len).status = s.status := rfl
@[simp] theorem State.setEncoding_events (s : State) (buf : Vector Byte 65) (len : BitVec 7) : (s.setEncoding buf len).events = s.events := rfl
@[simp] theorem State.setEncoding_answers (s : State) (buf : Vector Byte 65) (len : BitVec 7) : (s.setEncoding buf len).answers = s.answers := rfl
@[simp] theorem State.setEncoding_draws (s : State) (buf : Vector Byte 65) (len : BitVec 7) : (s.setEncoding buf len).draws = s.draws := rfl

@[simp] theorem State.setStatus_regs (s : State) (st : Status) : (s.setStatus st).regs = s.regs := rfl
@[simp] theorem State.setStatus_points (s : State) (st : Status) : (s.setStatus st).points = s.points := rfl
@[simp] theorem State.setStatus_prm (s : State) (st : Status) : (s.setStatus st).prm = s.prm := rfl
@[simp] theorem State.setStatus_encbuf (s : State) (st : Status) : (s.setStatus st).encbuf = s.encbuf := rfl
@[simp] theorem State.setStatus_enclen (s : State) (st : Status) : (s.setStatus st).enclen = s.enclen := rfl
@[simp] theorem State.setStatus_cmd (s : State) (st : Status) : (s.setStatus st).cmd = s.cmd := rfl
@[simp] theorem State.setStatus_status (s : State) (st : Status) : (s.setStatus st).status = st := rfl
@[simp] theorem State.setStatus_events (s : State) (st : Status) : (s.setStatus st).events = s.events := rfl
@[simp] theorem State.setStatus_answers (s : State) (st : Status) : (s.setStatus st).answers = s.answers := rfl
@[simp] theorem State.setStatus_draws (s : State) (st : Status) : (s.setStatus st).draws = s.draws := rfl

@[simp] theorem State.accept_regs (s : State) (w : BitVec 32) : (s.accept w).regs = s.regs := rfl
@[simp] theorem State.accept_points (s : State) (w : BitVec 32) : (s.accept w).points = s.points := rfl
@[simp] theorem State.accept_prm (s : State) (w : BitVec 32) : (s.accept w).prm = s.prm := rfl
@[simp] theorem State.accept_encbuf (s : State) (w : BitVec 32) : (s.accept w).encbuf = s.encbuf := rfl
@[simp] theorem State.accept_enclen (s : State) (w : BitVec 32) : (s.accept w).enclen = s.enclen := rfl
@[simp] theorem State.accept_cmd (s : State) (w : BitVec 32) : (s.accept w).cmd = w := rfl
@[simp] theorem State.accept_status (s : State) (w : BitVec 32) : (s.accept w).status = s.status.accepted := rfl
@[simp] theorem State.accept_events (s : State) (w : BitVec 32) : (s.accept w).events = s.events := rfl
@[simp] theorem State.accept_answers (s : State) (w : BitVec 32) : (s.accept w).answers = s.answers := rfl
@[simp] theorem State.accept_draws (s : State) (w : BitVec 32) : (s.accept w).draws = s.draws := rfl

@[simp] theorem State.draw_regs (s : State) : (s.draw).regs = s.regs := rfl
@[simp] theorem State.draw_points (s : State) : (s.draw).points = s.points := rfl
@[simp] theorem State.draw_prm (s : State) : (s.draw).prm = s.prm := rfl
@[simp] theorem State.draw_encbuf (s : State) : (s.draw).encbuf = s.encbuf := rfl
@[simp] theorem State.draw_enclen (s : State) : (s.draw).enclen = s.enclen := rfl
@[simp] theorem State.draw_cmd (s : State) : (s.draw).cmd = s.cmd := rfl
@[simp] theorem State.draw_status (s : State) : (s.draw).status = s.status := rfl
@[simp] theorem State.draw_events (s : State) : (s.draw).events = s.events := rfl
@[simp] theorem State.draw_answers (s : State) : (s.draw).answers = s.answers := rfl
@[simp] theorem State.draw_draws (s : State) : (s.draw).draws = s.draws + 1 := rfl

@[simp] theorem resetInput_regs (s : State) : (resetInput s).regs = State.reset.regs := rfl
@[simp] theorem resetInput_points (s : State) : (resetInput s).points = State.reset.points := rfl
@[simp] theorem resetInput_prm (s : State) : (resetInput s).prm = State.reset.prm := rfl
@[simp] theorem resetInput_encbuf (s : State) : (resetInput s).encbuf = State.reset.encbuf := rfl
@[simp] theorem resetInput_enclen (s : State) : (resetInput s).enclen = State.reset.enclen := rfl
@[simp] theorem resetInput_cmd (s : State) : (resetInput s).cmd = State.reset.cmd := rfl
@[simp] theorem resetInput_status (s : State) : (resetInput s).status = State.reset.status := rfl
@[simp] theorem resetInput_events (s : State) : (resetInput s).events = s.events := rfl
@[simp] theorem resetInput_answers (s : State) : (resetInput s).answers = s.answers := rfl
@[simp] theorem resetInput_draws (s : State) : (resetInput s).draws = s.draws := rfl

@[simp] theorem Status.accepted_busy (st : Status) : st.accepted.busy = true := rfl
@[simp] theorem Status.accepted_done (st : Status) : st.accepted.done = false := rfl
@[simp] theorem Status.accepted_err (st : Status) : st.accepted.err = none := rfl
@[simp] theorem Status.accepted_flags (st : Status) : st.accepted.flags = Flags.none := rfl
@[simp] theorem Status.accepted_ovr (st : Status) : st.accepted.ovr = st.ovr := rfl
@[simp] theorem Status.completed_busy (st : Status) (e : Option CmdError) (f : Flags) : (st.completed e f).busy = false := rfl
@[simp] theorem Status.completed_done (st : Status) (e : Option CmdError) (f : Flags) : (st.completed e f).done = true := rfl
@[simp] theorem Status.completed_err (st : Status) (e : Option CmdError) (f : Flags) : (st.completed e f).err = e := rfl
@[simp] theorem Status.completed_flags (st : Status) (e : Option CmdError) (f : Flags) : (st.completed e f).flags = f := rfl
@[simp] theorem Status.completed_ovr (st : Status) (e : Option CmdError) (f : Flags) : (st.completed e f).ovr = st.ovr := rfl
@[simp] theorem Status.overrun_busy (st : Status) : st.overrun.busy = st.busy := rfl
@[simp] theorem Status.overrun_done (st : Status) : st.overrun.done = st.done := rfl
@[simp] theorem Status.overrun_err (st : Status) : st.overrun.err = st.err := rfl
@[simp] theorem Status.overrun_flags (st : Status) : st.overrun.flags = st.flags := rfl
@[simp] theorem Status.overrun_ovr (st : Status) : st.overrun.ovr = true := rfl

/-- Writing a register gives the value back and leaves the other fifteen. -/
theorem State.setReg_get (s : State) (i j : RegNum) (v : Word) : (s.setReg i v).regs[j] = if i = j then v else s.regs[j] := by
  simp only [State.setReg_regs, Fin.getElem_fin, Vector.getElem_set, Fin.ext_iff]

/-- Writing a point register gives the value back and leaves the other three. -/
theorem State.setPoint_get (s : State) (i j : Fin 4) (q : Point) :
    (s.setPoint i q).points[j] = if i = j then q else s.points[j] := by
  simp only [State.setPoint_points, Fin.getElem_fin, Vector.getElem_set, Fin.ext_iff]

end Sys2Proof.Machine
end

