-- ==== Sys2Proof/Laws/Ops.lean ====
section
/-! SUPPORT. What each shared operation of the completion step can do, said once. -/

namespace Sys2Proof.Machine

/-- A command that raises an error leaves everything but STATUS (R246). -/
theorem raise_eq (s : State) (e : CmdError) : raise s e = .next (s.failed e) := rfl

/-- What the two kinds of completion leave (R240): an error, or the named destination with the flags. -/
theorem finish_cases {s t : State} {r : Except CmdError Success} (h : finish s r = .next t) :
    (∃ e, r = .error e ∧ t = s.failed e) ∨
      (∃ q, r = .ok q ∧ t = (s.write q.dest).setStatus (s.status.completed none q.flags)) := by
  cases r with
  | error e => exact .inl ⟨e, rfl, by cases h; rfl⟩
  | ok q => exact .inr ⟨q, rfl, by cases h; rfl⟩

/-- Every completion is a next state. -/
theorem finish_next (s : State) (r : Except CmdError Success) : ∃ t, finish s r = .next t := by
  cases r <;> exact ⟨_, rfl⟩

/-- The form every result has (R24, R160). -/
theorem resultForm_canonical {p : Nat} (q : Point) (h0 : 0 < p) (hb : p ≤ 2 ^ 256) : Canonical p (resultForm p q) := by
  unfold resultForm
  split
  · exact .inl rfl
  · have hx := Nat.mod_lt q.x.toNat h0
    have hy := Nat.mod_lt q.y.toNat h0
    refine .inr ⟨rfl, ?_, ?_⟩
    · simpa only [pointOf, BitVec.toNat_ofNat, Nat.mod_eq_of_lt (hx.trans_le hb)] using hx
    · simpa only [pointOf, BitVec.toNat_ofNat, Nat.mod_eq_of_lt (hy.trans_le hb)] using hy

/-- The completion of a point command whose inverse does not exist: an error, or some point in the destination, and the count of
such completions one higher. -/
theorem missingInverse_cases {s t : State} {j : Fin 4} {input : CommandInput} (h : missingInverse s j input = .next t) :
    (∃ e, t = s.draw.failed e) ∨
      (∃ q : Point, t = (s.draw.setPoint j (resultForm input.p q)).setStatus
        (s.status.completed none (pointFlags (resultForm input.p q)))) := by
  unfold missingInverse at h
  split at h
  · exact .inl ⟨_, by cases h; rfl⟩
  · exact .inr ⟨_, by cases h; rfl⟩

theorem missingInverse_next (s : State) (j : Fin 4) (input : CommandInput) : ∃ t, missingInverse s j input = .next t := by
  unfold missingInverse
  split <;> exact ⟨_, rfl⟩

/-- The completion whose inverse does not exist has an outcome that U1 leaves unspecified. -/
theorem missingInverse_unspecified {s : State} {input : CommandInput} (j : Fin 4) (hp : input.p = s.prm.p.toNat)
    (h0 : 0 < s.prm.p.toNat) : ∃ t, missingInverse s j input = .next t ∧ Unspecified s j t := by
  unfold missingInverse
  split
  · exact ⟨_, rfl, rfl, .inl ⟨_, rfl⟩⟩
  · exact ⟨_, rfl, rfl, .inr ⟨_, hp ▸ resultForm_canonical _ (hp ▸ h0) (hp ▸ s.prm.p.isLt.le), rfl⟩⟩

/-- What the completion of a point command that divides leaves: an error, the point it computed, or a free outcome. -/
theorem finishPoint_cases {s t : State} {r : Except CmdError PointResult} (h : finishPoint s r = .next t) :
    (∃ e, r = .error e ∧ t = s.failed e) ∨
      (∃ j q input, r = .ok ⟨j, some q, input⟩ ∧
        t = (s.setPoint j (pointOf q)).setStatus (s.status.completed none (pointFlags (pointOf q)))) ∨
      (∃ j input, r = .ok ⟨j, none, input⟩ ∧ missingInverse s j input = .next t) := by
  rcases r with e | ⟨j, _ | q, input⟩
  · exact .inl ⟨e, rfl, by cases h; rfl⟩
  · exact .inr (.inr ⟨j, input, rfl, h⟩)
  · exact .inr (.inl ⟨j, q, input, rfl, by cases h; rfl⟩)

theorem finishPoint_next (s : State) (r : Except CmdError PointResult) : ∃ t, finishPoint s r = .next t := by
  rcases r with e | ⟨j, _ | q, input⟩
  · exact ⟨_, rfl⟩
  · exact missingInverse_next s j input
  · exact ⟨_, rfl⟩

theorem checkedModulus_ok {m : Nat} (h : GoodModulus m) : checkedModulus m = .ok m := if_pos h

theorem checkedModulus_error {m : Nat} (h : ¬ GoodModulus m) : checkedModulus m = .error .badModulus := if_neg h

theorem residue_ok {m : Nat} {v : Word} (h : v.toNat < m) : residue m v = .ok v.toNat := if_pos h

theorem residue_error {m : Nat} {v : Word} (h : ¬ v.toNat < m) : residue m v = .error .operandRange := if_neg h

/-- A source point in range is read as the point it holds (R160 check 4). -/
theorem sourcePoint_ok {p : Nat} {r : Point} (h : InRange p r) : sourcePoint p r = .ok (affineOf r) := by
  unfold sourcePoint affineOf
  rcases h with h | h
  · simp [h]
  · split <;> simp_all

theorem sourcePoint_error {p : Nat} {r : Point} (h : ¬ InRange p r) : sourcePoint p r = .error .operandRange := by
  unfold sourcePoint
  simp only [InRange, not_or] at h
  simp [h.1, h.2]

/-- A point operand below 4 names that point register. -/
theorem pointIndex_ok {n : RegNum} (h : n.val < 4) : pointIndex n = .ok ⟨n.val, h⟩ := dif_pos h

theorem pointIndex_error {n : RegNum} (h : ¬ n.val < 4) : pointIndex n = .error .illegalCmd := dif_neg h

/-- A 256-bit value is what its own number spells. -/
theorem word_ofNat_toNat (v : Word) : BitVec.ofNat 256 v.toNat = v := by simp

/-- A point in range is written back as it was read. -/
theorem pointOf_affineOf (r : Point) : pointOf (affineOf r) = if r.inf then infinity else r := by
  unfold affineOf pointOf
  cases h : r.inf <;> simp
  cases r; simp_all

end Sys2Proof.Machine
end

