-- ==== Sys2Proof/Laws/Checks.lean ====
section
/-! SUPPORT. The checks of each command, resolved once: the meaning as one chain of conditions ending in the computation. -/

namespace Sys2Proof.Machine

theorem pointIndex_pointReg (j : Fin 4) : pointIndex (pointReg j) = .ok j := pointIndex_ok (n := pointReg j) j.isLt

/-- The completion of a point command that computed a point (R24, R25). -/
theorem finishPoint_some (s : State) (d : Fin 4) (q : Affine) (input : CommandInput) :
    finishPoint s (.ok ⟨d, some q, input⟩) = .next (s.pointDone d (pointOf q)) := by
  cases q <;> rfl

/-- The success of a command that writes a point (R24, R25). -/
theorem finish_pointSuccess (s : State) (d : Fin 4) (q : Affine) :
    finish s (.ok (pointSuccess d (pointOf q))) = .next (s.pointDone d (pointOf q)) := by
  cases q <;> rfl

/-- PADD after its checks (R160, R162). -/
theorem exec_padd (s : State) (d i j : Fin 4) :
    exec (.padd (pointReg d) (pointReg i) (pointReg j)) s =
      if ¬ GoodModulus s.prm.p.toNat then .next (s.failed .badModulus)
      else if ¬ s.prm.a.toNat < s.prm.p.toNat then .next (s.failed .operandRange)
      else if ¬ (InRange s.prm.p.toNat s.points[i] ∧ InRange s.prm.p.toNat s.points[j]) then .next (s.failed .operandRange)
      else finishPoint s (.ok ⟨d, affineAdd s.prm.p.toNat s.prm.a.toNat (affineOf s.points[i]) (affineOf s.points[j]),
        ⟨encode (.padd (pointReg d) (pointReg i) (pointReg j)), s.prm.p.toNat,
          if affineOf s.points[i] = affineOf s.points[j] then some s.prm.a.toNat else none,
          [pointOf (affineOf s.points[i]), pointOf (affineOf s.points[j])], none⟩⟩) := by
  simp only [exec, execPadd, pointIndex_pointReg]
  by_cases h1 : GoodModulus s.prm.p.toNat
  · by_cases h2 : s.prm.a.toNat < s.prm.p.toNat
    · by_cases h3 : InRange s.prm.p.toNat s.points[i]
      · by_cases h4 : InRange s.prm.p.toNat s.points[j]
        · rw [if_neg (not_not.2 h1), if_neg (not_not.2 h2), if_neg (not_not.2 ⟨h3, h4⟩), checkedModulus_ok h1]
          simp only [bind, Except.bind]
          rw [residue_ok h2]
          simp only [sourcePoint_ok h3, sourcePoint_ok h4]
        · rw [if_neg (not_not.2 h1), if_neg (not_not.2 h2), if_pos (fun h => h4 h.2), checkedModulus_ok h1]
          simp only [bind, Except.bind]
          rw [residue_ok h2]
          simp only [sourcePoint_ok h3, sourcePoint_error h4]
          rfl
      · rw [if_neg (not_not.2 h1), if_neg (not_not.2 h2), if_pos (fun h => h3 h.1), checkedModulus_ok h1]
        simp only [bind, Except.bind]
        rw [residue_ok h2]
        simp only [sourcePoint_error h3]
        rfl
    · rw [if_neg (not_not.2 h1), if_pos h2, checkedModulus_ok h1]
      simp only [bind, Except.bind]
      rw [residue_error h2]
      rfl
  · rw [if_pos h1, checkedModulus_error h1]
    rfl

/-- PDBL after its checks (R160, R164). -/
theorem exec_pdbl (s : State) (d i : Fin 4) :
    exec (.pdbl (pointReg d) (pointReg i)) s =
      if ¬ GoodModulus s.prm.p.toNat then .next (s.failed .badModulus)
      else if ¬ s.prm.a.toNat < s.prm.p.toNat then .next (s.failed .operandRange)
      else if ¬ InRange s.prm.p.toNat s.points[i] then .next (s.failed .operandRange)
      else finishPoint s (.ok ⟨d, affineDbl s.prm.p.toNat s.prm.a.toNat (affineOf s.points[i]),
        ⟨encode (.pdbl (pointReg d) (pointReg i)), s.prm.p.toNat, some s.prm.a.toNat, [pointOf (affineOf s.points[i])], none⟩⟩) := by
  simp only [exec, execPdbl, pointIndex_pointReg]
  by_cases h1 : GoodModulus s.prm.p.toNat
  · by_cases h2 : s.prm.a.toNat < s.prm.p.toNat
    · by_cases h3 : InRange s.prm.p.toNat s.points[i]
      · rw [if_neg (not_not.2 h1), if_neg (not_not.2 h2), if_neg (not_not.2 h3), checkedModulus_ok h1]
        simp only [bind, Except.bind]
        rw [residue_ok h2]
        simp only [sourcePoint_ok h3]
      · rw [if_neg (not_not.2 h1), if_neg (not_not.2 h2), if_pos h3, checkedModulus_ok h1]
        simp only [bind, Except.bind]
        rw [residue_ok h2]
        simp only [sourcePoint_error h3]
        rfl
    · rw [if_neg (not_not.2 h1), if_pos h2, checkedModulus_ok h1]
      simp only [bind, Except.bind]
      rw [residue_error h2]
      rfl
  · rw [if_pos h1, checkedModulus_error h1]
    rfl

/-- PMUL after its checks (R160, R174). -/
theorem exec_pmul (s : State) (d i : Fin 4) (rb : RegNum) :
    exec (.pmul (pointReg d) rb (pointReg i)) s =
      if ¬ GoodModulus s.prm.p.toNat then .next (s.failed .badModulus)
      else if ¬ s.prm.a.toNat < s.prm.p.toNat then .next (s.failed .operandRange)
      else if ¬ InRange s.prm.p.toNat s.points[i] then .next (s.failed .operandRange)
      else finishPoint s (.ok ⟨d, scalarScan s.prm.p.toNat s.prm.a.toNat (affineOf s.points[i]) 256 s.regs[rb].toNat,
        ⟨encode (.pmul (pointReg d) rb (pointReg i)), s.prm.p.toNat, some s.prm.a.toNat, [pointOf (affineOf s.points[i])],
          some s.regs[rb]⟩⟩) := by
  simp only [exec, execPmul, pointIndex_pointReg]
  by_cases h1 : GoodModulus s.prm.p.toNat
  · by_cases h2 : s.prm.a.toNat < s.prm.p.toNat
    · by_cases h3 : InRange s.prm.p.toNat s.points[i]
      · rw [if_neg (not_not.2 h1), if_neg (not_not.2 h2), if_neg (not_not.2 h3), checkedModulus_ok h1]
        simp only [bind, Except.bind]
        rw [residue_ok h2]
        simp only [sourcePoint_ok h3]
      · rw [if_neg (not_not.2 h1), if_neg (not_not.2 h2), if_pos h3, checkedModulus_ok h1]
        simp only [bind, Except.bind]
        rw [residue_ok h2]
        simp only [sourcePoint_error h3]
        rfl
    · rw [if_neg (not_not.2 h1), if_pos h2, checkedModulus_ok h1]
      simp only [bind, Except.bind]
      rw [residue_error h2]
      rfl
  · rw [if_pos h1, checkedModulus_error h1]
    rfl

/-- PDEC after its checks (R193, R196). -/
theorem exec_pdec (s : State) (d : Fin 4) :
    exec (.pdec (pointReg d)) s =
      if ¬ GoodModulus s.prm.p.toNat then .next (s.failed .badModulus)
      else if ¬ (s.prm.a.toNat < s.prm.p.toNat ∧ s.prm.b.toNat < s.prm.p.toNat) then .next (s.failed .operandRange)
      else finish s ((decodePoint s.prm.p.toNat s.prm.a.toNat s.prm.b.toNat s.enclen s.encbuf).map fun q => pointSuccess d (pointOf q)) := by
  simp only [exec, execPdec, pointIndex_pointReg]
  by_cases h1 : GoodModulus s.prm.p.toNat
  · rw [if_neg (not_not.2 h1), checkedModulus_ok h1]
    simp only [bind, Except.bind]
    by_cases h2 : s.prm.a.toNat < s.prm.p.toNat
    · rw [residue_ok h2]
      by_cases h3 : s.prm.b.toNat < s.prm.p.toNat
      · rw [if_neg (not_not.2 ⟨h2, h3⟩)]
        simp only [residue_ok h3]
        cases decodePoint s.prm.p.toNat s.prm.a.toNat s.prm.b.toNat s.enclen s.encbuf <;> rfl
      · rw [if_pos (fun h => h3 h.2)]
        simp only [residue_error h3]
        rfl
    · rw [residue_error h2, if_pos (fun h => h2 h.1)]
      rfl
  · rw [if_pos h1, checkedModulus_error h1]
    rfl

end Sys2Proof.Machine
end

