-- ==== Sys2Proof/Laws/Codec.lean ====
section
/-! SUPPORT. The byte strings of the codec: 32 bytes spell one 256-bit number (R10, R190). -/

namespace Sys2Proof.Machine

theorem beInt_append (l : List Byte) (b : Byte) : beInt (l ++ [b]) = 256 * beInt l + b.toNat := by
  simp [beInt]

/-- The big-endian bytes of a number, read back. -/
theorem beInt_bytes : ∀ (n v : Nat), beInt ((List.range n).map fun k => BitVec.ofNat 8 (v / 2 ^ (8 * (n - 1 - k)))) = v % 2 ^ (8 * n) := by
  intro n
  induction n with
  | zero => intro v; simp [beInt, Nat.mod_one]
  | succ n ih =>
    intro v
    have hpre : ((List.range n).map fun k => BitVec.ofNat 8 (v / 2 ^ (8 * (n + 1 - 1 - k)))) =
        (List.range n).map fun k => BitVec.ofNat 8 (v / 256 / 2 ^ (8 * (n - 1 - k))) := by
      refine List.map_congr_left fun k hk => ?_
      have hk := List.mem_range.1 hk
      rw [Nat.div_div_eq_div_mul, show (256 : Nat) = 2 ^ 8 by norm_num, ← pow_add, show 8 + 8 * (n - 1 - k) = 8 * (n + 1 - 1 - k) by omega]
    rw [List.range_succ, List.map_append, hpre]
    simp only [List.map_cons, List.map_nil]
    rw [beInt_append, ih]
    have hb : (BitVec.ofNat 8 (v / 2 ^ (8 * (n + 1 - 1 - n)))).toNat = v % 256 := by simp
    rw [hb, show 8 * (n + 1) = 8 + 8 * n by ring, pow_add, show (2 : Nat) ^ 8 = 256 by norm_num, Nat.mod_mul]
    ring

/-- Bytes of a buffer that spell a number are read back as that number (R10: BEint is the inverse of BE32). -/
theorem beInt_of_spells {buf : Vector Byte 65} {start v : Nat} (hs : start + 32 ≤ 65) (h : Spells buf start v) :
    beInt ((buf.toList.drop start).take 32) = v := by
  have hl : (buf.toList.drop start).take 32 = (List.range 32).map fun k => BitVec.ofNat 8 (v / 2 ^ (8 * (32 - 1 - k))) := by
    refine List.ext_getElem (by simp; omega) fun k h1 h2 => ?_
    have hk : k < 32 := by simpa using h2
    have hb := h.2 k hk
    rw [Vector.getElem?_eq_getElem (by omega)] at hb
    simp only [List.getElem_take, List.getElem_drop, List.getElem_map, List.getElem_range, Vector.getElem_toList]
    exact Option.some.inj hb
  rw [hl, beInt_bytes, Nat.mod_eq_of_lt h.1]

theorem encodedX_of_spells {buf : Vector Byte 65} {x : Nat} (h : Spells buf 1 x) : encodedX buf = x := beInt_of_spells (by norm_num) h

theorem encodedY_of_spells {buf : Vector Byte 65} {y : Nat} (h : Spells buf 33 y) : encodedY buf = y := beInt_of_spells (by norm_num) h

/-- A byte of `BE32`, as a quotient. -/
theorem beByte_eq (v : Word) (k : Nat) : beByte v k = BitVec.ofNat 8 (v.toNat / 2 ^ (8 * (31 - k))) := by
  apply BitVec.eq_of_toNat_eq
  simp [beByte, BitVec.extractLsb'_toNat, Nat.shiftRight_eq_div_pow]

/-- What PENCU writes spells both coordinates (R190). -/
theorem encodeFull_spells (x y : Word) : Spells (encodeFull x y) 1 x.toNat ∧ Spells (encodeFull x y) 33 y.toNat := by
  refine ⟨⟨x.isLt, fun k hk => ?_⟩, ⟨y.isLt, fun k hk => ?_⟩⟩
  · rw [Vector.getElem?_eq_getElem (by omega), ← beByte_eq]
    simp [encodeFull, show 1 + k ≤ 32 by omega]
  · rw [Vector.getElem?_eq_getElem (by omega), ← beByte_eq]
    simp [encodeFull, show ¬ 33 + k ≤ 32 by omega]

/-- What PENCC writes spells the abscissa (R190). -/
theorem encodeShort_spells (x y : Word) : Spells (encodeShort x y) 1 x.toNat := by
  refine ⟨x.isLt, fun k hk => ?_⟩
  rw [Vector.getElem?_eq_getElem (by omega), ← beByte_eq]
  simp [encodeShort, show 1 + k ≤ 32 by omega]

end Sys2Proof.Machine
end

