-- ==== Sys2Proof/Laws/Curve.lean ====
section
/-! SUPPORT. What the affine formulas compute (R161): the slope and the two coordinates as congruences, when the inverse exists,
and that it exists modulo a prime. -/

namespace Sys2Proof.Machine

/-- The third point of a line with slope `lam` is reduced, and its coordinates are those of R161. -/
theorem chord_spec (p lam x1 y1 x2 : Nat) (hp : 0 < p) :
    ∃ x3 y3, chord p lam x1 y1 x2 = .pt x3 y3 ∧ x3 < p ∧ y3 < p ∧ (x3 : Int) ≡ lam * lam - x1 - x2 [ZMOD p] ∧
      (y3 : Int) ≡ lam * (x1 - x3) - y1 [ZMOD p] :=
  ⟨_, _, rfl, residueOf_lt _ hp, residueOf_lt _ hp, residueOf_modEq _ hp, residueOf_modEq _ hp⟩

theorem chord_below (p lam x1 y1 x2 : Nat) (hp : 0 < p) : (chord p lam x1 y1 x2).Below p :=
  ⟨residueOf_lt _ hp, residueOf_lt _ hp⟩

/-- Coprimality to the modulus is a property of the residue class. -/
theorem gcd_residueOf (z : Int) {p : Nat} (hp : 0 < p) : Nat.gcd (residueOf z p) p = Int.gcd z p := by
  have h1 : ((residueOf z p : Nat) : Int) = z % p := by
    unfold residueOf
    exact Int.toNat_of_nonneg (Int.emod_nonneg _ (by omega))
  rw [← Int.gcd_natCast_natCast, h1, Int.gcd_emod]

/-- A congruence modulo `p` between numbers is equality of remainders. -/
theorem modEq_of_mod {a b m : Nat} (h : a % m = b % m) : (a : Int) ≡ b [ZMOD m] := Int.natCast_modEq_iff.2 h

/-- The tangent of R161, where 2·y has an inverse. -/
theorem affineDbl_spec {p a x y : Nat} (hp : 1 < p) (hb : p ≤ 2 ^ 256) (hy : y ≠ 0) (hg : Nat.gcd (2 * y) p = 1) :
    ∃ lam x3 y3 : Nat, affineDbl p a (.pt x y) = some (.pt x3 y3) ∧ x3 < p ∧ y3 < p ∧
      (lam : Int) * (2 * y) ≡ 3 * (x * x) + a [ZMOD p] ∧ (x3 : Int) ≡ lam * lam - 2 * x [ZMOD p] ∧
      (y3 : Int) ≡ lam * (x - x3) - y [ZMOD p] := by
  have hlt : 2 * y % p < p := Nat.mod_lt _ (by omega)
  have hg' : Nat.gcd (2 * y % p) p = 1 := by rw [← Nat.gcd_rec, Nat.gcd_comm]; exact hg
  obtain ⟨inv, hi, _, _, h1⟩ := invMod_eq_some hp hlt hb hg'
  obtain ⟨x3, y3, hc, hx, hy3, hx3, hy4⟩ := chord_spec p ((3 * x * x + a) * inv % p) x y x (by omega)
  refine ⟨(3 * x * x + a) * inv % p, x3, y3, ?_, hx, hy3, ?_, ?_, hy4⟩
  · simp only [affineDbl, if_neg hy, hi, hc]
  · have e1 : ((2 * y * inv : Nat) : Int) ≡ 1 [ZMOD p] := by
      have : 2 * y * inv % p = 1 % p := by rw [← Nat.mod_mul_mod, h1, Nat.mod_eq_of_lt hp]
      simpa using modEq_of_mod this
    have e2 : (((3 * x * x + a) * inv % p : Nat) : Int) ≡ ((3 * x * x + a) * inv : Nat) [ZMOD p] := modEq_of_mod (Nat.mod_mod _ _)
    have e3 := e2.mul_right (2 * y : Int)
    have e4 := e1.mul_left ((3 * x * x + a : Nat) : Int)
    refine e3.trans ?_
    have : (((3 * x * x + a) * inv : Nat) : Int) * (2 * y) = ((3 * x * x + a : Nat) : Int) * ((2 * y * inv : Nat) : Int) := by
      push_cast; ring
    rw [this]
    refine e4.trans ?_
    rw [show ((3 * x * x + a : Nat) : Int) * 1 = 3 * (x * x) + a by push_cast; ring]
  · rw [show (((3 * x * x + a) * inv % p : Nat) : Int) * ((3 * x * x + a) * inv % p : Nat) - 2 * x =
      (((3 * x * x + a) * inv % p : Nat) : Int) * ((3 * x * x + a) * inv % p : Nat) - x - x by ring]
    exact hx3

/-- The chord of R161, where the difference of the abscissas has an inverse. -/
theorem affineAdd_spec {p a x1 y1 x2 y2 : Nat} (hp : 1 < p) (hb : p ≤ 2 ^ 256) (hx : x1 ≠ x2)
    (hg : Int.gcd ((x2 : Int) - x1) p = 1) :
    ∃ lam x3 y3 : Nat, affineAdd p a (.pt x1 y1) (.pt x2 y2) = some (.pt x3 y3) ∧ x3 < p ∧ y3 < p ∧
      (lam : Int) * (x2 - x1) ≡ y2 - y1 [ZMOD p] ∧ (x3 : Int) ≡ lam * lam - x1 - x2 [ZMOD p] ∧
      (y3 : Int) ≡ lam * (x1 - x3) - y1 [ZMOD p] := by
  have hp0 : 0 < p := by omega
  obtain ⟨inv, hi, _, _, h1⟩ := invMod_eq_some hp (residueOf_lt ((x2 : Int) - x1) hp0) hb (by rw [gcd_residueOf _ hp0]; exact hg)
  obtain ⟨x3, y3, hc, hx3, hy3, hx4, hy4⟩ := chord_spec p (residueOf (((y2 : Int) - y1) * inv) p) x1 y1 x2 hp0
  refine ⟨residueOf (((y2 : Int) - y1) * inv) p, x3, y3, ?_, hx3, hy3, ?_, hx4, hy4⟩
  · simp only [affineAdd, if_neg hx, hi, hc]
  · have e1 : ((x2 : Int) - x1) * inv ≡ 1 [ZMOD p] := by
      have : residueOf ((x2 : Int) - x1) p * inv % p = 1 % p := by rw [h1, Nat.mod_eq_of_lt hp]
      have h2 := modEq_of_mod this
      push_cast at h2
      exact ((residueOf_modEq ((x2 : Int) - x1) hp0).mul_right (inv : Int)).symm.trans h2
    have e2 := (residueOf_modEq (((y2 : Int) - y1) * inv) hp0).mul_right ((x2 : Int) - x1)
    refine e2.trans ?_
    rw [show ((y2 : Int) - y1) * inv * (x2 - x1) = (y2 - y1) * ((x2 - x1) * inv) by ring]
    simpa using e1.mul_left ((y2 : Int) - y1)

/-- Where 2·y has no inverse the doubling has no value (U1). -/
theorem affineDbl_none {p a x y : Nat} (hp : 1 < p) (hb : p ≤ 2 ^ 256) (hy : y ≠ 0) (hg : Nat.gcd (2 * y) p ≠ 1) :
    affineDbl p a (.pt x y) = none := by
  have hg' : Nat.gcd (2 * y % p) p ≠ 1 := by rw [← Nat.gcd_rec, Nat.gcd_comm]; exact hg
  simp only [affineDbl, if_neg hy, invMod_eq_none hp (Nat.mod_lt _ (by omega)) hb hg']

/-- Where the difference of the abscissas has no inverse the addition has no value (U1). -/
theorem affineAdd_none {p a x1 y1 x2 y2 : Nat} (hp : 1 < p) (hb : p ≤ 2 ^ 256) (hx : x1 ≠ x2)
    (hg : Int.gcd ((x2 : Int) - x1) p ≠ 1) : affineAdd p a (.pt x1 y1) (.pt x2 y2) = none := by
  have hp0 : 0 < p := by omega
  have := invMod_eq_none hp (residueOf_lt ((x2 : Int) - x1) hp0) hb (by rw [gcd_residueOf _ hp0]; exact hg)
  simp only [affineAdd, if_neg hx, this]

/-- Modulo an odd prime 2·y is invertible for every residue y but 0. -/
theorem gcd_two_mul {p y : Nat} (hp : p.Prime) (h3 : 3 ≤ p) (hy : y < p) (h0 : y ≠ 0) : Nat.gcd (2 * y) p = 1 := by
  have hc : ∀ n : Nat, 0 < n → n < p → Nat.Coprime n p := fun n h1 h2 => gcd_prime_eq_one hp h2 (by omega)
  exact Nat.Coprime.mul_left (hc 2 (by omega) (by omega)) (hc y (by omega) hy)

/-- Modulo a prime the difference of two distinct residues is invertible. -/
theorem gcd_sub {p x1 x2 : Nat} (hp : p.Prime) (h1 : x1 < p) (h2 : x2 < p) (hx : x1 ≠ x2) : Int.gcd ((x2 : Int) - x1) p = 1 := by
  rw [Int.gcd_eq_natAbs, Int.natAbs_natCast]
  exact gcd_prime_eq_one hp (by omega) (by omega)

/-- Modulo an odd prime the double of a reduced point exists and is reduced (R160, R161). -/
theorem affineDbl_prime {p a : Nat} {q : Affine} (hp : p.Prime) (h3 : 3 ≤ p) (hb : p ≤ 2 ^ 256) (hq : q.Below p) :
    ∃ r, affineDbl p a q = some r ∧ r.Below p := by
  cases q with
  | inf => exact ⟨_, rfl, trivial⟩
  | pt x y =>
    by_cases h0 : y = 0
    · exact ⟨.inf, by simp [affineDbl, h0], trivial⟩
    · obtain ⟨_, x3, y3, h, hx, hy, _⟩ := affineDbl_spec (a := a) (x := x) hp.one_lt hb h0 (gcd_two_mul hp h3 hq.2 h0)
      exact ⟨_, h, hx, hy⟩

/-- Modulo an odd prime the sum of two reduced points exists and is reduced (R160, R161). -/
theorem affineAdd_prime {p a : Nat} {q r : Affine} (hp : p.Prime) (h3 : 3 ≤ p) (hb : p ≤ 2 ^ 256) (hq : q.Below p) (hr : r.Below p) :
    ∃ t, affineAdd p a q r = some t ∧ t.Below p := by
  cases q with
  | inf => exact ⟨r, by cases r <;> rfl, hr⟩
  | pt x1 y1 =>
    cases r with
    | inf => exact ⟨_, rfl, hq⟩
    | pt x2 y2 =>
      by_cases hx : x1 = x2
      · by_cases hy : y1 = y2
        · obtain ⟨t, ht, hb⟩ := affineDbl_prime (a := a) hp h3 hb hq
          exact ⟨t, by simpa [affineAdd, hx, hy] using hx ▸ hy ▸ ht, hb⟩
        · exact ⟨.inf, by simp [affineAdd, hx, hy], trivial⟩
      · obtain ⟨_, x3, y3, h, hx, hy, _⟩ := affineAdd_spec (a := a) (y1 := y1) (y2 := y2) hp.one_lt hb hx (gcd_sub hp hq.1 hr.1 hx)
        exact ⟨_, h, hx, hy⟩

/-- Modulo an odd prime the scan of a reduced point exists and is reduced (R174). -/
theorem scalarScan_prime {p a : Nat} {q : Affine} (hp : p.Prime) (h3 : 3 ≤ p) (hb : p ≤ 2 ^ 256) (hq : q.Below p) :
    ∀ bits k, ∃ r, scalarScan p a q bits k = some r ∧ r.Below p := by
  intro bits
  induction bits with
  | zero => exact fun k => ⟨_, rfl, trivial⟩
  | succ n ih =>
    intro k
    obtain ⟨acc, h1, hacc⟩ := ih (k / 2)
    obtain ⟨tw, h2, htw⟩ := affineDbl_prime (a := a) hp h3 hb hacc
    by_cases hk : k % 2 = 1
    · obtain ⟨r, h, hr⟩ := affineAdd_prime (a := a) hp h3 hb htw hq
      exact ⟨r, by simp [scalarScan, h1, h2, hk, h], hr⟩
    · exact ⟨tw, by simp [scalarScan, h1, h2, hk], htw⟩

/-- A finite register holds the pair of its coordinates (R23). -/
theorem affineOf_finite {r : Point} (h : r.inf = false) : affineOf r = .pt r.x.toNat r.y.toNat := by simp [affineOf, h]

/-- An infinite register holds infinity whatever its coordinates (R24). -/
theorem affineOf_infinite {r : Point} (h : r.inf = true) : affineOf r = .inf := by simp [affineOf, h]

/-- The scan of the scalar 0 is infinity (R174). -/
theorem scalarScan_zero (p a : Nat) (q : Affine) (bits : Nat) : scalarScan p a q bits 0 = some .inf := by
  induction bits with
  | zero => rfl
  | succ n ih => simp [scalarScan, ih, affineDbl]

/-- The scan of infinity is infinity for every scalar (R174). -/
theorem scalarScan_inf (p a bits : Nat) : ∀ k, scalarScan p a .inf bits k = some .inf := by
  induction bits with
  | zero => exact fun _ => rfl
  | succ n ih => intro k; simp [scalarScan, ih, affineDbl, affineAdd]

/-- The scan of the scalar 1 is the point itself (R174). -/
theorem scalarScan_one (p a : Nat) (q : Affine) (bits : Nat) : scalarScan p a q (bits + 1) 1 = some q := by
  have h : ∀ q : Affine, affineAdd p a .inf q = some q := fun q => by cases q <;> rfl
  simp [scalarScan, scalarScan_zero, affineDbl, h]

/-- Every scalar above 1 makes the scan double the point, so it has no value where the double has none (U1, R174). -/
theorem scalarScan_dbl_none {p a : Nat} {q : Affine} (hd : affineDbl p a q = none) :
    ∀ bits k, 2 ≤ k → k < 2 ^ bits → scalarScan p a q bits k = none := by
  intro bits
  induction bits with
  | zero => intro k h2 hk; omega
  | succ n ih =>
    intro k h2 hk
    by_cases h4 : 4 ≤ k
    · simp [scalarScan, ih (k / 2) (by omega) (by rw [pow_succ] at hk; omega)]
    · have h1 : k / 2 = 1 := by omega
      cases n with
      | zero => omega
      | succ n =>
        rw [scalarScan, h1, scalarScan_one p a q n]
        simp only [hd]

/-- The right-hand side of the curve equation with its powers written out (R172, R196). -/
theorem curveRhs_eq (p a b x : Nat) : curveRhs p a b x = (x ^ 3 + a * x + b) % p := by
  unfold curveRhs; congr 2; ring

theorem onCurve_iff (p a b x y : Nat) : onCurve p a b x y = true ↔ y ^ 2 % p = (x ^ 3 + a * x + b) % p := by
  unfold onCurve; rw [beq_iff_eq, curveRhs_eq, pow_two]

/-- The two roots c and p − c have one square (R196). -/
theorem sq_sub_mod {p c : Nat} (h : c ≤ p) : (p - c) ^ 2 % p = c ^ 2 % p := by
  have : ((p - c : Nat) : Int) ^ 2 ≡ (c : Int) ^ 2 [ZMOD p] := by
    rw [Nat.cast_sub h]
    exact Int.modEq_iff_dvd.2 ⟨2 * c - p, by ring⟩
  exact Int.natCast_modEq_iff.1 (by exact_mod_cast this)

/-- A point register in range holds a reduced point. -/
theorem affineOf_below {p : Nat} {r : Point} (h : InRange p r) : (affineOf r).Below p := by
  unfold affineOf
  cases hi : r.inf with
  | true => exact trivial
  | false => exact h.resolve_left (by simp [hi])

end Sys2Proof.Machine
end

