-- ==== Sys2Proof/Laws/Datapath.lean ====
section
/-! SUPPORT. The units of the datapath: limbs spell the value (R211), one reduction of the multiplier divides exactly (R212,
R213), and the multiplier's result is the product divided by 2^256. -/

namespace Sys2Proof.Machine

/-- A value below 2^256 is what its eight limbs spell (R211). -/
theorem ofLimbs_natLimbs {v : Nat} (hv : v < 2 ^ 256) : ofLimbs (natLimbs v) = v := by
  simp only [natLimbs, natLimb, ofLimbs]
  omega

/-- Limb-wise addition adds, with its carry (R211). -/
theorem addLimbs_spec : ∀ (a b : List Nat) (carry : Nat), a.length = b.length →
    ofLimbs (addLimbs a b carry).1 + 2 ^ (32 * a.length) * (addLimbs a b carry).2 = ofLimbs a + ofLimbs b + carry := by
  intro a
  induction a with
  | nil => intro b carry h; cases b <;> simp_all [addLimbs, ofLimbs]
  | cons x xs ih =>
    intro b carry h
    cases b with
    | nil => simp at h
    | cons y ys =>
      have := ih ys ((x + y + carry) / 2 ^ 32) (by simpa using h)
      simp only [addLimbs, ofLimbs, List.length_cons]
      have hd := Nat.mod_add_div (x + y + carry) (2 ^ 32)
      rw [show 32 * (xs.length + 1) = 32 + 32 * xs.length by ring, pow_add]
      generalize ofLimbs (addLimbs xs ys ((x + y + carry) / 2 ^ 32)).1 = A at *
      generalize (addLimbs xs ys ((x + y + carry) / 2 ^ 32)).2 = C at *
      generalize (2 : Nat) ^ (32 * xs.length) = E at *
      calc (x + y + carry) % 2 ^ 32 + 2 ^ 32 * A + 2 ^ 32 * E * C
          = (x + y + carry) % 2 ^ 32 + 2 ^ 32 * (A + E * C) := by ring
        _ = (x + y + carry) % 2 ^ 32 + 2 ^ 32 * (ofLimbs xs + ofLimbs ys + (x + y + carry) / 2 ^ 32) := by rw [this]
        _ = _ := by omega

/-- Limb-wise subtraction subtracts, with its borrow (R211). -/
theorem subLimbs_spec : ∀ (a b : List Nat) (borrow : Nat), a.length = b.length → (∀ x ∈ a, x < 2 ^ 32) → (∀ x ∈ b, x < 2 ^ 32) →
    borrow ≤ 1 → ofLimbs (subLimbs a b borrow).1 + ofLimbs b + borrow =
      ofLimbs a + 2 ^ (32 * a.length) * (subLimbs a b borrow).2 ∧ (subLimbs a b borrow).2 ≤ 1 := by
  intro a
  induction a with
  | nil => intro b borrow h _ _ hb; cases b <;> simp_all [subLimbs, ofLimbs]
  | cons x xs ih =>
    intro b borrow h ha hb hbo
    cases b with
    | nil => simp at h
    | cons y ys =>
      have hx := ha x (by simp)
      have hy := hb y (by simp)
      have := ih ys (if x < y + borrow then 1 else 0) (by simpa using h) (fun z hz => ha z (by simp [hz]))
        (fun z hz => hb z (by simp [hz])) (by split <;> omega)
      simp only [subLimbs, ofLimbs, List.length_cons]
      rw [show 32 * (xs.length + 1) = 32 + 32 * xs.length by ring, pow_add]
      generalize ofLimbs (subLimbs xs ys (if x < y + borrow then 1 else 0)).1 = A at *
      generalize (subLimbs xs ys (if x < y + borrow then 1 else 0)).2 = C at *
      generalize (2 : Nat) ^ (32 * xs.length) = E at *
      obtain ⟨h1, h2⟩ := this
      refine ⟨?_, h2⟩
      rw [Nat.mul_assoc]
      generalize E * C = G at *
      split at h1
      · rw [Nat.mod_eq_of_lt (by omega)]; omega
      · rw [show x + 2 ^ 32 - (y + borrow) = x - (y + borrow) + 2 ^ 32 by omega, Nat.add_mod_right, Nat.mod_eq_of_lt (by omega)]; omega

/-- The constant `m'` is the negated inverse of m modulo 2^32 (R212). -/
theorem montPrime_spec {m : Nat} (hodd : m % 2 = 1) : (1 + m * montPrime m) % 2 ^ 32 = 0 := by
  have hg : Nat.gcd (m % 2 ^ 32) (2 ^ 32) = 1 := by
    have : Nat.Coprime (m % 2 ^ 32) 2 := (Nat.coprime_two_right).2 (Nat.odd_iff.2 (by omega))
    exact Nat.Coprime.pow_right 32 this
  obtain ⟨r, hr, h0, hlt, h⟩ := invMod_eq_some (by norm_num) (Nat.mod_lt m (by norm_num)) (by norm_num) hg
  unfold montPrime
  rw [hr]
  simp only [Option.getD_some]
  rw [Nat.mod_eq_of_lt (show 2 ^ 32 - r < 2 ^ 32 by omega)]
  have hm : m * r % 2 ^ 32 = 1 := by rw [← Nat.mod_mul_mod, h]
  have e : m * (2 ^ 32 - r) = m * 2 ^ 32 - m * r := Nat.mul_sub m (2 ^ 32) r
  have hle : m * r ≤ m * 2 ^ 32 := Nat.mul_le_mul_left m hlt.le
  omega

/-- The multiple of m that the multiplier adds makes the low limb zero, so the division is exact (R213). -/
theorem montReduce_mul {m : Nat} (hodd : m % 2 = 1) (t : Nat) :
    2 ^ 32 * montReduce m t = t + t % 2 ^ 32 * montPrime m % 2 ^ 32 * m := by
  unfold montReduce
  refine Nat.mul_div_cancel' (Nat.dvd_of_mod_eq_zero ?_)
  have h : 1 + m * montPrime m ≡ 0 [MOD 2 ^ 32] := montPrime_spec hodd
  have h1 : t % 2 ^ 32 * montPrime m % 2 ^ 32 * m ≡ t * montPrime m * m [MOD 2 ^ 32] :=
    ((Nat.mod_modEq _ _).trans ((Nat.mod_modEq t _).mul_right _)).mul_right m
  have h2 : t + t * montPrime m * m ≡ 0 [MOD 2 ^ 32] := by
    rw [show t + t * montPrime m * m = t * (1 + m * montPrime m) by ring]
    simpa using h.mul_left t
  exact (h1.add_left t).trans h2

/-- The accumulator stays below 2m (R213). -/
theorem montReduce_lt {a b m t : Nat} (hodd : m % 2 = 1) (ha : a < m) (hb : b < 2 ^ 32) (ht : t < 2 * m) :
    montReduce m (t + a * b) < 2 * m := by
  have h := montReduce_mul hodd (t + a * b)
  have hq : (t + a * b) % 2 ^ 32 * montPrime m % 2 ^ 32 < 2 ^ 32 := Nat.mod_lt _ (by norm_num)
  generalize (t + a * b) % 2 ^ 32 * montPrime m % 2 ^ 32 = q at *
  have h1 : a * b ≤ m * (2 ^ 32 - 1) := Nat.mul_le_mul ha.le (by omega)
  have h2 : q * m ≤ (2 ^ 32 - 1) * m := Nat.mul_le_mul_right m (by omega)
  omega

/-- A limb is below 2^32 (R10). -/
theorem natLimb_lt (v k : Nat) : natLimb v k < 2 ^ 32 := Nat.mod_lt _ (by norm_num)

/-- The low limbs up to the next one (R211). -/
theorem mod_limb_succ (v i : Nat) : v % 2 ^ (32 * (i + 1)) = v % 2 ^ (32 * i) + 2 ^ (32 * i) * natLimb v i := by
  rw [show 32 * (i + 1) = 32 * i + 32 by ring, pow_add, Nat.mod_mul, natLimb]

/-- After each iteration the accumulator, scaled back, is the product with the limbs used so far (R213). -/
theorem montAcc_modEq {m : Nat} (hodd : m % 2 = 1) (a b : Nat) :
    ∀ i, 2 ^ (32 * i) * montAcc a b m i ≡ a * (b % 2 ^ (32 * i)) [MOD m] := by
  intro i
  induction i with
  | zero => simp [montAcc, Nat.mod_one]; rfl
  | succ n ih =>
    have hr := montReduce_mul hodd (montAcc a b m n + a * natLimb b n)
    have h1 : 2 ^ 32 * montReduce m (montAcc a b m n + a * natLimb b n) ≡ montAcc a b m n + a * natLimb b n [MOD m] := by
      rw [hr]
      exact (Nat.modEq_iff_dvd' (Nat.le_add_right _ _)).2 ⟨_, by rw [Nat.add_sub_cancel_left, Nat.mul_comm]⟩ |>.symm
    have h2 := h1.mul_left (2 ^ (32 * n))
    rw [mod_limb_succ, show 32 * (n + 1) = 32 * n + 32 by ring, pow_add, Nat.mul_assoc]
    refine h2.trans ?_
    rw [Nat.mul_add, Nat.mul_add]
    exact (ih.add_right _).trans (by rw [← Nat.mul_assoc, ← Nat.mul_assoc, Nat.mul_comm (2 ^ (32 * n)) a])

/-- The multiplier's result is reduced and is the product divided by 2^256 (R213). -/
theorem montUnit_spec {a b m : Nat} (hodd : m % 2 = 1) (ha : a < m) (hb : b < 2 ^ 256) :
    montUnit a b m < m ∧ 2 ^ 256 * montUnit a b m ≡ a * b [MOD m] := by
  have hlt : ∀ i, montAcc a b m i < 2 * m := by
    intro i
    induction i with
    | zero => simp only [montAcc]; omega
    | succ n ih => exact montReduce_lt hodd ha (natLimb_lt b n) ih
  have h8 := montAcc_modEq hodd a b 8
  rw [Nat.mod_eq_of_lt (show b < 2 ^ (32 * 8) from hb)] at h8
  have := hlt 8
  unfold montUnit
  split
  · rename_i hge
    refine ⟨by omega, Nat.ModEq.trans ?_ h8⟩
    refine (Nat.modEq_iff_dvd' (Nat.mul_le_mul_left _ (Nat.sub_le _ _))).2 ⟨2 ^ 256, ?_⟩
    rw [← Nat.mul_sub, Nat.sub_sub_self hge, Nat.mul_comm]
  · exact ⟨by omega, h8⟩

end Sys2Proof.Machine
end

