-- ==== Sys2Proof/Laws/Decode.lean ====
section
/-! SUPPORT. The command word and its fields say the same (R90). -/

namespace Sys2Proof

/-- The fields of the word made of some fields are those fields (R90: fixed positions, no overlap). -/
theorem fieldsOf_wordOf (c : CommandWord) : fieldsOf (wordOf c) = c := by
  obtain ⟨opc, m, z1, rd, ra, rb, z2⟩ := c
  simp only [fieldsOf, wordOf, CommandWord.mk.injEq]
  refine ⟨?_, ?_, ?_, ?_, ?_, ?_, ?_⟩ <;>
    (apply BitVec.eq_of_getLsbD_eq
     intro i hi
     interval_cases i <;> simp)

/-- The word made of the fields of a word is that word (R90: the seven fields cover all 32 bits). -/
theorem wordOf_fieldsOf (w : BitVec 32) : wordOf (fieldsOf w) = w := by
  apply BitVec.eq_of_getLsbD_eq
  intro i hi
  interval_cases i <;> simp [wordOf, fieldsOf]

theorem regOf_fieldOfReg (n : RegNum) : regOf (fieldOfReg n) = n := rfl

theorem fieldOfReg_regOf (f : BitVec 4) : fieldOfReg (regOf f) = f := rfl

theorem modulusOf_bitOfModulus (m : Modulus) : modulusOf (bitOfModulus m) = m := by cases m <;> rfl

theorem bitOfModulus_modulusOf (m : BitVec 1) : bitOfModulus (modulusOf m) = m := by revert m; decide

/-- The opcode byte of a command names it (R95: the opcodes are distinct). -/
theorem opcodeOf_code (o : Opcode) : opcodeOf o.code = some o := by cases o <;> decide

/-- A byte that names a command is that command's opcode (R95). -/
theorem code_of_opcodeOf {c : BitVec 8} {o : Opcode} (h : opcodeOf c = some o) : o.code = c := by
  have := List.find?_some h
  simpa using this

end Sys2Proof
end

