-- ==== Sys2Proof/Laws/Exec.lean ====
section
/-! SUPPORT. What the meaning of each command can do, said once: an error, or the one destination its rule names, with the flags it
defines. -/

namespace Sys2Proof.Machine

/-- A sequence of checks succeeds when the first does and the rest does on what it gives. -/
theorem bind_eq_ok {ε α β : Type} {x : Except ε α} {f : α → Except ε β} {b : β} (h : (x >>= f) = .ok b) :
    ∃ a, x = .ok a ∧ f a = .ok b := by
  cases x with
  | error e => cases h
  | ok a => exact ⟨a, rfl, h⟩

/-- Passing a point operand's check says that it names a point register. -/
theorem pointIndex_val {n : RegNum} {j : Fin 4} (h : pointIndex n = .ok j) : j.val = n.val := by
  unfold pointIndex at h
  split at h
  · cases h; rfl
  · cases h

/-- The destination and the flags each command may leave when it succeeds (R120, R160, R190, R25). -/
def MayLeave : Instr → Dest → Flags → Prop
  | .modadd _ rd _ _, d, fl => ∃ v, d = .reg rd v ∧ fl = Flags.none
  | .modsub _ rd _ _, d, fl => ∃ v, d = .reg rd v ∧ fl = Flags.none
  | .modmul _ rd _ _, d, fl => ∃ v, d = .reg rd v ∧ fl = Flags.none
  | .montmul _ rd _ _, d, fl => ∃ v, d = .reg rd v ∧ fl = Flags.none
  | .modinv _ rd _, d, fl => ∃ v, d = .reg rd v ∧ fl = Flags.none
  | .modexp _ rd _ _, d, fl => ∃ v, d = .reg rd v ∧ fl = Flags.none
  | .modsqrt rd _, d, fl => ∃ v, d = .reg rd v ∧ fl = Flags.none
  | .modred _ rd _, d, fl => ∃ v, d = .reg rd v ∧ fl = Flags.none
  | .padd pd _ _, d, fl => ∃ j q, j.val = pd.val ∧ d = .point j q ∧ fl = pointFlags q
  | .pdbl pd _, d, fl => ∃ j q, j.val = pd.val ∧ d = .point j q ∧ fl = pointFlags q
  | .pneg pd _, d, fl => ∃ j q, j.val = pd.val ∧ d = .point j q ∧ fl = pointFlags q
  | .peq _ _, d, fl => d = .none ∧ ∃ b, fl = eqFlags b
  | .pchk _, d, fl => d = .none ∧ ∃ i c, fl = checkFlags i c
  | .pmul pd _ _, d, fl => ∃ j q, j.val = pd.val ∧ d = .point j q ∧ fl = pointFlags q
  | .pencu _, d, fl => ∃ buf len, d = .encoding buf len ∧ fl = Flags.none
  | .pencc _, d, fl => ∃ buf len, d = .encoding buf len ∧ fl = Flags.none
  | .pdec pd, d, fl => ∃ j q, j.val = pd.val ∧ q.inf = false ∧ d = .point j q ∧ fl = pointFlags q

/-- The commands whose inverse may not exist (U1). -/
def usesInverse : Instr → Bool
  | .padd _ _ _ => true
  | .pdbl _ _ => true
  | .pmul _ _ _ => true
  | .modadd _ _ _ _ => false
  | .modsub _ _ _ _ => false
  | .modmul _ _ _ _ => false
  | .montmul _ _ _ _ => false
  | .modinv _ _ _ => false
  | .modexp _ _ _ _ => false
  | .modsqrt _ _ => false
  | .modred _ _ _ => false
  | .pneg _ _ => false
  | .peq _ _ => false
  | .pchk _ => false
  | .pencu _ => false
  | .pencc _ => false
  | .pdec _ => false

/-- `t` is what a command may leave of `u`: an error, or the destination and flags `MayLeave` admits. -/
def Leaves (i : Instr) (u t : State) : Prop :=
  (∃ e, t = u.failed e) ∨ ∃ d fl, MayLeave i d fl ∧ t = (u.write d).setStatus (u.status.completed none fl)

theorem finish_leaves {i : Instr} {s t : State} {r : Except CmdError Success} (h : finish s r = .next t)
    (hr : ∀ q, r = .ok q → MayLeave i q.dest q.flags) : Leaves i s t := by
  rcases finish_cases h with ⟨e, _, h⟩ | ⟨q, hq, h⟩
  · exact .inl ⟨e, h⟩
  · exact .inr ⟨q.dest, q.flags, hr q hq, h⟩

/-- The outcome of a point command that divides, with the state it counts an unspecified outcome in. -/
theorem finishPoint_leaves {i : Instr} {s t : State} {pd : RegNum} {r : Except CmdError PointResult} (h : finishPoint s r = .next t)
    (hi : usesInverse i = true) (hr : ∀ q, r = .ok q → q.dest.val = pd.val)
    (hw : ∀ j q, j.val = pd.val → MayLeave i (.point j q) (pointFlags q)) : Leaves i s t ∨ Leaves i s.draw t ∧ usesInverse i = true := by
  rcases finishPoint_cases h with ⟨e, _, h⟩ | ⟨j, q, input, hq, h⟩ | ⟨j, input, hq, h⟩
  · exact .inl (.inl ⟨e, h⟩)
  · exact .inl (.inr ⟨_, _, hw j _ (hr _ hq), h⟩)
  · rcases missingInverse_cases h with ⟨e, h⟩ | ⟨q, h⟩
    · exact .inr ⟨.inl ⟨e, h⟩, hi⟩
    · exact .inr ⟨.inr ⟨_, _, hw j _ (hr _ hq), h⟩, hi⟩

/-- A decoded point is finite (R191: no byte string decodes to infinity). -/
theorem decodePoint_finite {p a b : Nat} {len : BitVec 7} {buf : Vector Byte 65} {q : Affine} (h : decodePoint p a b len buf = .ok q) :
    (pointOf q).inf = false := by
  unfold decodePoint decodeFull decodeShort at h
  split_ifs at h
  · cases h; rfl
  · split at h
    · cases h
    · split_ifs at h
      cases h; rfl

/-- Everything a command can do (R240, R246, R279): an error, or its one destination with its flags; a command that needed an
inverse that does not exist may do either, and is counted. -/
theorem exec_leaves {i : Instr} {s t : State} (h : exec i s = .next t) :
    Leaves i s t ∨ Leaves i s.draw t ∧ usesInverse i = true := by
  cases i with
  | modadd m rd ra rb =>
    refine .inl (finish_leaves h fun q hq => ?_)
    iterate 3 obtain ⟨_, _, hq⟩ := bind_eq_ok hq
    cases hq; exact ⟨_, rfl, rfl⟩
  | modsub m rd ra rb =>
    refine .inl (finish_leaves h fun q hq => ?_)
    iterate 3 obtain ⟨_, _, hq⟩ := bind_eq_ok hq
    cases hq; exact ⟨_, rfl, rfl⟩
  | modmul m rd ra rb =>
    refine .inl (finish_leaves h fun q hq => ?_)
    iterate 3 obtain ⟨_, _, hq⟩ := bind_eq_ok hq
    cases hq; exact ⟨_, rfl, rfl⟩
  | montmul m rd ra rb =>
    refine .inl (finish_leaves h fun q hq => ?_)
    iterate 3 obtain ⟨_, _, hq⟩ := bind_eq_ok hq
    cases hq; exact ⟨_, rfl, rfl⟩
  | modinv m rd ra =>
    refine .inl (finish_leaves h fun q hq => ?_)
    iterate 2 obtain ⟨_, _, hq⟩ := bind_eq_ok hq
    split at hq
    · cases hq
    · cases hq; exact ⟨_, rfl, rfl⟩
  | modexp m rd ra rb =>
    refine .inl (finish_leaves h fun q hq => ?_)
    iterate 2 obtain ⟨_, _, hq⟩ := bind_eq_ok hq
    cases hq; exact ⟨_, rfl, rfl⟩
  | modsqrt rd ra =>
    refine .inl (finish_leaves h fun q hq => ?_)
    iterate 3 obtain ⟨_, _, hq⟩ := bind_eq_ok hq
    split at hq
    · cases hq
    · cases hq; exact ⟨_, rfl, rfl⟩
  | modred m rd ra =>
    refine .inl (finish_leaves h fun q hq => ?_)
    obtain ⟨_, _, hq⟩ := bind_eq_ok hq
    cases hq; exact ⟨_, rfl, rfl⟩
  | padd pd pa pb =>
    refine finishPoint_leaves (pd := pd) h rfl (fun q hq => ?_) fun j q hj => ⟨j, q, hj, rfl, rfl⟩
    obtain ⟨_, hd, hq⟩ := bind_eq_ok hq
    iterate 6 obtain ⟨_, _, hq⟩ := bind_eq_ok hq
    cases hq; exact pointIndex_val hd
  | pdbl pd pa =>
    refine finishPoint_leaves (pd := pd) h rfl (fun q hq => ?_) fun j q hj => ⟨j, q, hj, rfl, rfl⟩
    obtain ⟨_, hd, hq⟩ := bind_eq_ok hq
    iterate 4 obtain ⟨_, _, hq⟩ := bind_eq_ok hq
    cases hq; exact pointIndex_val hd
  | pneg pd pa =>
    refine .inl (finish_leaves h fun q hq => ?_)
    obtain ⟨_, hd, hq⟩ := bind_eq_ok hq
    iterate 3 obtain ⟨_, _, hq⟩ := bind_eq_ok hq
    cases hq; exact ⟨_, _, pointIndex_val hd, rfl, rfl⟩
  | peq pa pb =>
    refine .inl (finish_leaves h fun q hq => ?_)
    iterate 5 obtain ⟨_, _, hq⟩ := bind_eq_ok hq
    cases hq; exact ⟨rfl, _, rfl⟩
  | pchk pa =>
    refine .inl (finish_leaves h fun q hq => ?_)
    iterate 4 obtain ⟨_, _, hq⟩ := bind_eq_ok hq
    split at hq <;> (cases hq; exact ⟨rfl, _, _, rfl⟩)
  | pmul pd rb pa =>
    refine finishPoint_leaves (pd := pd) h rfl (fun q hq => ?_) fun j q hj => ⟨j, q, hj, rfl, rfl⟩
    obtain ⟨_, hd, hq⟩ := bind_eq_ok hq
    iterate 4 obtain ⟨_, _, hq⟩ := bind_eq_ok hq
    cases hq; exact pointIndex_val hd
  | pencu pa =>
    refine .inl (finish_leaves h fun q hq => ?_)
    iterate 3 obtain ⟨_, _, hq⟩ := bind_eq_ok hq
    cases hq; exact ⟨_, _, rfl, rfl⟩
  | pencc pa =>
    refine .inl (finish_leaves h fun q hq => ?_)
    iterate 3 obtain ⟨_, _, hq⟩ := bind_eq_ok hq
    cases hq; exact ⟨_, _, rfl, rfl⟩
  | pdec pd =>
    refine .inl (finish_leaves h fun q hq => ?_)
    obtain ⟨_, hd, hq⟩ := bind_eq_ok hq
    iterate 3 obtain ⟨_, _, hq⟩ := bind_eq_ok hq
    obtain ⟨_, hp, hq⟩ := bind_eq_ok hq
    cases hq; exact ⟨_, _, pointIndex_val hd, decodePoint_finite hp, rfl, rfl⟩

/-- Every command completes (R240). -/
theorem exec_next (i : Instr) (s : State) : ∃ t, exec i s = .next t := by
  cases i <;> first | exact finish_next _ _ | exact finishPoint_next _ _

/-- The completion step always takes place. -/
theorem complete_next (s : State) : ∃ t, complete s = .next t := by
  unfold complete
  split
  · exact exec_next _ _
  · exact ⟨_, rfl⟩

end Sys2Proof.Machine
end

