-- ==== Sys2Proof/Laws/Group.lean ====
section
/-! SUPPORT. The affine formulas over a prime field are the addition of the curve's group, as the library has it (R161, R176). -/

namespace Sys2Proof.Machine

/-- A congruence modulo `p` is an equation in the field of `p`. -/
theorem zmod_eq_of_modEq {p : Nat} {x y : Int} (h : x ≡ y [ZMOD p]) : (x : ZMod p) = (y : ZMod p) :=
  (ZMod.intCast_eq_intCast_iff x y p).2 h

/-- Two residues with one image in the field of `p` are equal. -/
theorem natCast_inj {p x y : Nat} (hx : x < p) (hy : y < p) : (x : ZMod p) = (y : ZMod p) ↔ x = y := by
  rw [ZMod.natCast_eq_natCast_iff]
  exact ⟨fun h => Nat.ModEq.eq_of_lt_of_lt h hx hy, fun h => h ▸ rfl⟩

theorem curveOver_negY (p a b : Nat) (x y : ZMod p) : (curveOver p a b).negY x y = -y := by
  simp [WeierstrassCurve.Affine.negY, curveOver]

theorem curveOver_addX (p a b : Nat) (x1 x2 l : ZMod p) : (curveOver p a b).addX x1 x2 l = l * l - x1 - x2 := by
  simp [WeierstrassCurve.Affine.addX, curveOver, pow_two]

theorem curveOver_addY (p a b : Nat) (x1 x2 y1 l : ZMod p) :
    (curveOver p a b).addY x1 x2 y1 l = l * (x1 - (l * l - x1 - x2)) - y1 := by
  rw [WeierstrassCurve.Affine.addY, WeierstrassCurve.Affine.negAddY, curveOver_negY, curveOver_addX]
  ring

theorem curveOver_equation (p a b : Nat) (x y : ZMod p) :
    (curveOver p a b).Equation x y ↔ y ^ 2 = x ^ 3 + a * x + b := by
  simp [WeierstrassCurve.Affine.equation_iff, curveOver]

/-- The third point of the line has the coordinates of the library's sum. -/
theorem chord_cast {p lam x1 y1 x2 : Nat} (hp : 0 < p) (a b : Nat) :
    ∃ x3 y3, chord p lam x1 y1 x2 = .pt x3 y3 ∧ x3 < p ∧ y3 < p ∧ (x3 : ZMod p) = (curveOver p a b).addX x1 x2 lam ∧
      (y3 : ZMod p) = (curveOver p a b).addY x1 x2 y1 lam := by
  obtain ⟨x3, y3, h, hx, hy, h1, h2⟩ := chord_spec p lam x1 y1 x2 hp
  have e1 := zmod_eq_of_modEq h1
  have e2 := zmod_eq_of_modEq h2
  push_cast at e1 e2
  refine ⟨x3, y3, h, hx, hy, ?_, ?_⟩
  · rw [curveOver_addX, e1]
  · rw [curveOver_addY, e2, e1]

variable {p a b : Nat} [Fact p.Prime]

/-- The tangent: the double of a represented point represents twice the point (R161). -/
theorem represents_dbl (h3 : 3 ≤ p) (hb : p ≤ 2 ^ 256) {r : Affine} {q : (curveOver p a b).Point} (h : Represents r q) :
    ∃ t, affineDbl p a r = some t ∧ Represents t (q + q) := by
  have hp : p.Prime := Fact.out
  cases r with
  | inf => exact ⟨.inf, rfl, by cases (h : q = .zero); exact add_zero (0 : (curveOver p a b).Point)⟩
  | pt x y =>
    obtain ⟨hx, hy, hn, rfl⟩ := h
    by_cases h0 : y = 0
    · refine ⟨.inf, by simp [affineDbl, h0], ?_⟩
      exact WeierstrassCurve.Affine.Point.add_self_of_Y_eq (by rw [curveOver_negY, h0]; simp)
    · have hg := gcd_two_mul hp h3 hy h0
      have h2y : (2 : ZMod p) * (y : ZMod p) ≠ 0 := by
        have : ((2 * y : Nat) : ZMod p) ≠ 0 := by
          rw [Ne, ZMod.natCast_eq_zero_iff]
          intro hd
          have := Nat.gcd_eq_right hd
          omega
        simpa using this
      have hne : (y : ZMod p) ≠ (curveOver p a b).negY x y := by
        rw [curveOver_negY]
        intro e
        exact h2y (by rw [two_mul]; nth_rewrite 2 [e]; simp)
      obtain ⟨lam, x3, y3, he, hx3, hy3, hl, h1, h2⟩ := affineDbl_spec (a := a) (x := x) hp.one_lt hb h0 hg
      refine ⟨_, he, ?_⟩
      rw [WeierstrassCurve.Affine.Point.add_self_of_Y_ne hne]
      have el := zmod_eq_of_modEq hl
      have e1 := zmod_eq_of_modEq h1
      have e2 := zmod_eq_of_modEq h2
      push_cast at el e1 e2
      have hs : (curveOver p a b).slope (x : ZMod p) x y y = lam := by
        rw [WeierstrassCurve.Affine.slope_of_Y_ne rfl hne, curveOver_negY, div_eq_iff (by rwa [sub_neg_eq_add, ← two_mul])]
        simp only [curveOver]
        linear_combination -el
      have ex : (x3 : ZMod p) = (curveOver p a b).addX x x ((curveOver p a b).slope x x y y) := by
        rw [hs, curveOver_addX, e1]; ring
      have ey : (y3 : ZMod p) = (curveOver p a b).addY x x y ((curveOver p a b).slope x x y y) := by
        rw [hs, curveOver_addY, e2, e1]; ring
      have hns := WeierstrassCurve.Affine.nonsingular_add hn hn (fun hxy => hne hxy.2)
      refine ⟨hx3, hy3, by rw [ex, ey]; exact hns, ?_⟩
      rw [WeierstrassCurve.Affine.Point.some.injEq]
      exact ⟨ex.symm, ey.symm⟩

/-- The chord: the sum of two represented points represents the sum (R161). -/
theorem represents_add (h3 : 3 ≤ p) (hb : p ≤ 2 ^ 256) {r r' : Affine} {q q' : (curveOver p a b).Point} (h : Represents r q)
    (h' : Represents r' q') : ∃ t, affineAdd p a r r' = some t ∧ Represents t (q + q') := by
  have hp : p.Prime := Fact.out
  cases r with
  | inf =>
    cases (h : q = .zero)
    refine ⟨r', by cases r' <;> rfl, ?_⟩
    have : (WeierstrassCurve.Affine.Point.zero : (curveOver p a b).Point) + q' = q' := zero_add q'
    rwa [this]
  | pt x1 y1 =>
    cases r' with
    | inf =>
      cases (h' : q' = .zero)
      refine ⟨_, rfl, ?_⟩
      have : q + (WeierstrassCurve.Affine.Point.zero : (curveOver p a b).Point) = q := add_zero q
      rwa [this]
    | pt x2 y2 =>
      by_cases hxe : x1 = x2
      · subst hxe
        by_cases hye : y1 = y2
        · subst hye
          have hq : q' = q := by
            obtain ⟨_, _, _, rfl⟩ := h
            obtain ⟨_, _, _, rfl⟩ := h'
            rfl
          subst hq
          obtain ⟨t, ht, hr⟩ := represents_dbl h3 hb h
          exact ⟨t, by simpa [affineAdd] using ht, hr⟩
        · obtain ⟨hx1, hy1, hn1, rfl⟩ := h
          obtain ⟨hx2, hy2, hn2, rfl⟩ := h'
          refine ⟨.inf, by simp [affineAdd, hye], ?_⟩
          refine WeierstrassCurve.Affine.Point.add_of_Y_eq rfl ?_
          have hne : (y1 : ZMod p) ≠ (y2 : ZMod p) := fun e => hye ((natCast_inj hy1 hy2).1 e)
          exact (WeierstrassCurve.Affine.Y_eq_of_X_eq hn1.1 hn2.1 rfl).resolve_left hne
      · obtain ⟨hx1, hy1, hn1, rfl⟩ := h
        obtain ⟨hx2, hy2, hn2, rfl⟩ := h'
        have hne : (x1 : ZMod p) ≠ (x2 : ZMod p) := fun e => hxe ((natCast_inj hx1 hx2).1 e)
        obtain ⟨lam, x3, y3, he, hx3, hy3, hl, h1, h2⟩ :=
          affineAdd_spec (a := a) (y1 := y1) (y2 := y2) hp.one_lt hb hxe (gcd_sub hp hx1 hx2 hxe)
        refine ⟨_, he, ?_⟩
        rw [WeierstrassCurve.Affine.Point.add_of_X_ne hne]
        have el := zmod_eq_of_modEq hl
        have e1 := zmod_eq_of_modEq h1
        have e2 := zmod_eq_of_modEq h2
        push_cast at el e1 e2
        have hs : (curveOver p a b).slope (x1 : ZMod p) x2 y1 y2 = lam := by
          rw [WeierstrassCurve.Affine.slope_of_X_ne hne, div_eq_iff (sub_ne_zero.2 hne)]
          linear_combination el
        have ex : (x3 : ZMod p) = (curveOver p a b).addX x1 x2 ((curveOver p a b).slope x1 x2 y1 y2) := by
          rw [hs, curveOver_addX, e1]
        have ey : (y3 : ZMod p) = (curveOver p a b).addY x1 x2 y1 ((curveOver p a b).slope x1 x2 y1 y2) := by
          rw [hs, curveOver_addY, e2, e1]
        have hns := WeierstrassCurve.Affine.nonsingular_add hn1 hn2 (fun hxy => hne hxy.1)
        refine ⟨hx3, hy3, by rw [ex, ey]; exact hns, ?_⟩
        rw [WeierstrassCurve.Affine.Point.some.injEq]
        exact ⟨ex.symm, ey.symm⟩

/-- The scan of the low bits of a scalar represents the multiple by them (R174, R176). -/
theorem represents_scan (h3 : 3 ≤ p) (hb : p ≤ 2 ^ 256) {r : Affine} {q : (curveOver p a b).Point} (h : Represents r q) :
    ∀ bits k, k < 2 ^ bits → ∃ t, scalarScan p a r bits k = some t ∧ Represents t (k • q) := by
  intro bits
  induction bits with
  | zero =>
    intro k hk
    obtain rfl : k = 0 := by omega
    exact ⟨.inf, rfl, zero_nsmul q⟩
  | succ n ih =>
    intro k hk
    obtain ⟨acc, h1, hacc⟩ := ih (k / 2) (by rw [pow_succ] at hk; omega)
    obtain ⟨tw, h2, htw⟩ := represents_dbl h3 hb hacc
    by_cases hk2 : k % 2 = 1
    · obtain ⟨t, h3', ht⟩ := represents_add h3 hb htw h
      refine ⟨t, by simp [scalarScan, h1, h2, hk2, h3'], ?_⟩
      have : k • q = (k / 2) • q + (k / 2) • q + q := by
        conv_lhs => rw [show k = k / 2 + k / 2 + 1 by omega]
        rw [add_nsmul, add_nsmul, one_nsmul]
      rwa [this]
    · refine ⟨tw, by simp [scalarScan, h1, h2, hk2], ?_⟩
      have : k • q = (k / 2) • q + (k / 2) • q := by
        conv_lhs => rw [show k = k / 2 + k / 2 by omega]
        rw [add_nsmul]
      rwa [this]

/-- A register that holds a point of the curve represents a point of its group (R176). -/
theorem represents_register (h3 : 3 ≤ p) {r : Point} (hs : (4 * a ^ 3 + 27 * b ^ 2) % p ≠ 0) (hi : r.inf = false)
    (hc : pointOnCurve p a b r = true) : ∃ q : (curveOver p a b).Point, Represents (affineOf r) q := by
  simp only [pointOnCurve, Bool.and_eq_true, decide_eq_true_eq] at hc
  obtain ⟨⟨hx, hy⟩, hc⟩ := hc
  rw [onCurve_iff] at hc
  have he : (curveOver p a b).Equation (r.x.toNat : ZMod p) (r.y.toNat : ZMod p) := by
    rw [curveOver_equation]
    have := (ZMod.natCast_eq_natCast_iff _ _ p).2 hc
    push_cast at this
    exact this
  have hd : (4 * (a : ZMod p) ^ 3 + 27 * (b : ZMod p) ^ 2) ≠ 0 := by
    have : ((4 * a ^ 3 + 27 * b ^ 2 : Nat) : ZMod p) ≠ 0 := by
      rw [Ne, ZMod.natCast_eq_zero_iff, Nat.dvd_iff_mod_eq_zero]
      exact hs
    simpa using this
  have hp : p.Prime := Fact.out
  have h2 : (2 : ZMod p) ≠ 0 := by
    have : ((2 : Nat) : ZMod p) ≠ 0 := by
      rw [Ne, ZMod.natCast_eq_zero_iff]
      intro h
      have := Nat.le_of_dvd (by decide) h
      omega
    simpa using this
  have hn : (curveOver p a b).Nonsingular (r.x.toNat : ZMod p) (r.y.toNat : ZMod p) := by
    rw [WeierstrassCurve.Affine.nonsingular_iff]
    refine ⟨he, ?_⟩
    by_contra hcon
    push Not at hcon
    obtain ⟨c1, c2⟩ := hcon
    rw [curveOver_equation] at he
    simp only [curveOver, zero_mul, mul_zero, add_zero, sub_zero] at c1 c2
    generalize (r.x.toNat : ZMod p) = x at *
    generalize (r.y.toNat : ZMod p) = y at *
    have hy0 : y = 0 := by
      have : 2 * y = 0 := by linear_combination c2
      exact (mul_eq_zero.1 this).resolve_left h2
    apply hd
    have e1 : (a : ZMod p) = -3 * x ^ 2 := by linear_combination -c1
    have e2 : (b : ZMod p) = 2 * x ^ 3 := by
      rw [hy0] at he
      linear_combination -he - x * e1
    rw [e1, e2]; ring
  exact ⟨.some _ _ hn, by rw [affineOf_finite hi]; exact ⟨hx, hy, hn, rfl⟩⟩

end Sys2Proof.Machine
end

