-- ==== Sys2Proof/Laws/PerInstr.lean ====
section
/-! SUPPORT. Per-instruction facts about the encoding, as syntax: the word of a command carries the command's opcode and
operands in the fields of R90 and 0 in the two must-be-zero fields. -/

namespace Sys2Proof.Laws.Encoding

/-- What the word of a command says of the command. -/
def Statement (i : Instr) : Prop :=
  fieldsOf (encode i) = fieldsOfInstr i ∧ (fieldsOfInstr i).z1 = 0#7 ∧ (fieldsOfInstr i).z2 = 0#4 ∧
    (opcodeOf (fieldsOfInstr i).opc).isSome

theorem modadd (m : Modulus) (rd ra rb : RegNum) : Statement (.modadd m rd ra rb) := ⟨fieldsOf_wordOf _, rfl, rfl, rfl⟩
theorem modsub (m : Modulus) (rd ra rb : RegNum) : Statement (.modsub m rd ra rb) := ⟨fieldsOf_wordOf _, rfl, rfl, rfl⟩
theorem modmul (m : Modulus) (rd ra rb : RegNum) : Statement (.modmul m rd ra rb) := ⟨fieldsOf_wordOf _, rfl, rfl, rfl⟩
theorem montmul (m : Modulus) (rd ra rb : RegNum) : Statement (.montmul m rd ra rb) := ⟨fieldsOf_wordOf _, rfl, rfl, rfl⟩
theorem modinv (m : Modulus) (rd ra : RegNum) : Statement (.modinv m rd ra) := ⟨fieldsOf_wordOf _, rfl, rfl, rfl⟩
theorem modexp (m : Modulus) (rd ra rb : RegNum) : Statement (.modexp m rd ra rb) := ⟨fieldsOf_wordOf _, rfl, rfl, rfl⟩
theorem modsqrt (rd ra : RegNum) : Statement (.modsqrt rd ra) := ⟨fieldsOf_wordOf _, rfl, rfl, rfl⟩
theorem modred (m : Modulus) (rd ra : RegNum) : Statement (.modred m rd ra) := ⟨fieldsOf_wordOf _, rfl, rfl, rfl⟩
theorem padd (pd pa pb : RegNum) : Statement (.padd pd pa pb) := ⟨fieldsOf_wordOf _, rfl, rfl, rfl⟩
theorem pdbl (pd pa : RegNum) : Statement (.pdbl pd pa) := ⟨fieldsOf_wordOf _, rfl, rfl, rfl⟩
theorem pneg (pd pa : RegNum) : Statement (.pneg pd pa) := ⟨fieldsOf_wordOf _, rfl, rfl, rfl⟩
theorem peq (pa pb : RegNum) : Statement (.peq pa pb) := ⟨fieldsOf_wordOf _, rfl, rfl, rfl⟩
theorem pchk (pa : RegNum) : Statement (.pchk pa) := ⟨fieldsOf_wordOf _, rfl, rfl, rfl⟩
theorem pmul (pd rb pa : RegNum) : Statement (.pmul pd rb pa) := ⟨fieldsOf_wordOf _, rfl, rfl, rfl⟩
theorem pencu (pa : RegNum) : Statement (.pencu pa) := ⟨fieldsOf_wordOf _, rfl, rfl, rfl⟩
theorem pencc (pa : RegNum) : Statement (.pencc pa) := ⟨fieldsOf_wordOf _, rfl, rfl, rfl⟩
theorem pdec (pd : RegNum) : Statement (.pdec pd) := ⟨fieldsOf_wordOf _, rfl, rfl, rfl⟩

end Sys2Proof.Laws.Encoding
end

