-- ==== Sys2Proof/Laws/Window.lean ====
section
/-! SUPPORT. The images of the registers in the window: a limb written reads back and leaves the other seven (R64), a word of
ENCBUF replaces its four bytes (R66). -/

namespace Sys2Proof.Machine

theorem limbOf_toNat (v : Word) (k : Nat) : (limbOf v k).toNat = v.toNat / 2 ^ (32 * k) % 2 ^ 32 := by
  simp [limbOf, BitVec.extractLsb'_toNat, Nat.shiftRight_eq_div_pow]

/-- A limb as a quotient (R10). -/
theorem limbOf_eq (v : Word) (k : Nat) : limbOf v k = BitVec.ofNat 32 (v.toNat / 2 ^ (32 * k)) := by
  apply BitVec.eq_of_toNat_eq
  simp [limbOf_toNat]

/-- A digit below `b` above a remainder below `a` makes a number below `a * b`. -/
theorem digit_lt {a b r l : Nat} (hr : r < a) (hl : l < b) : r + a * l < a * b :=
  calc r + a * l < a + a * l := by omega
    _ = a * (l + 1) := by ring
    _ ≤ a * b := Nat.mul_le_mul_left a hl

/-- A digit written at place `a` reads back. -/
theorem digit_same {a b r l q : Nat} (hr : r < a) (hl : l < b) : (r + a * l + a * b * q) / a % b = l := by
  rw [show r + a * l + a * b * q = r + a * (l + b * q) by ring, Nat.add_mul_div_left _ _ (by omega), Nat.div_eq_of_lt hr, Nat.zero_add,
    Nat.add_mul_mod_self_left, Nat.mod_eq_of_lt hl]

/-- Digits below the one written keep their value. -/
theorem digit_below {a b d v l q : Nat} (ha : 0 < a) :
    (v % (a * (b * d)) + a * (b * d) * l + a * (b * d) * b * q) / a % b = v / a % b := by
  rw [show v % (a * (b * d)) + a * (b * d) * l + a * (b * d) * b * q = v % (a * (b * d)) + a * (b * (d * (l + b * q))) by ring,
    Nat.add_mul_div_left _ _ ha, Nat.add_mul_mod_self_left, Nat.mod_mul_right_div_self, Nat.mod_mul_right_mod]

/-- Digits above the one written keep their value. -/
theorem digit_above {a d r v : Nat} (hr : r < a) : (r + a * (v / a)) / (a * d) = v / (a * d) := by
  rw [← Nat.div_div_eq_div_mul, ← Nat.div_div_eq_div_mul, Nat.add_mul_div_left _ _ (by omega), Nat.div_eq_of_lt hr, Nat.zero_add]

/-- The value with one limb replaced stays below 2^256, so nothing is cut off. -/
theorem withLimb_toNat (v : Word) {k : Nat} (hk : k < 8) (l : Limb) :
    (withLimb v k l).toNat = v.toNat % 2 ^ (32 * k) + 2 ^ (32 * k) * l.toNat + 2 ^ (32 * k + 32) * (v.toNat / 2 ^ (32 * k + 32)) := by
  have h1 : v.toNat % 2 ^ (32 * k) < 2 ^ (32 * k) := Nat.mod_lt _ (Nat.two_pow_pos _)
  have h2 : (2 : Nat) ^ (32 * k + 32) * 2 ^ (256 - (32 * k + 32)) = 2 ^ 256 := by rw [← pow_add]; congr 1; omega
  have h3 : v.toNat / 2 ^ (32 * k + 32) < 2 ^ (256 - (32 * k + 32)) := by
    rw [Nat.div_lt_iff_lt_mul (Nat.two_pow_pos _), Nat.mul_comm, h2]; exact v.isLt
  have h5 := digit_lt h1 l.isLt
  rw [← pow_add] at h5
  have h6 := digit_lt h5 h3
  rw [h2] at h6
  unfold withLimb
  rw [BitVec.toNat_ofNat, Nat.mod_eq_of_lt h6]

/-- One limb written, read back or read beside it (R64). -/
theorem limbOf_withLimb (v : Word) {k j : Nat} (hk : k < 8) (l : Limb) : limbOf (withLimb v k l) j = if j = k then l else limbOf v j := by
  have h1 : v.toNat % 2 ^ (32 * k) < 2 ^ (32 * k) := Nat.mod_lt _ (Nat.two_pow_pos _)
  apply BitVec.eq_of_toNat_eq
  rw [limbOf_toNat, withLimb_toNat v hk]
  rcases Nat.lt_trichotomy j k with h | h | h
  · rw [if_neg (by omega), limbOf_toNat]
    have e : (2 : Nat) ^ (32 * k) = 2 ^ (32 * j) * (2 ^ 32 * 2 ^ (32 * (k - j - 1))) := by
      rw [← pow_add, ← pow_add]; congr 1; omega
    rw [pow_add 2 (32 * k) 32, e]
    exact digit_below (Nat.two_pow_pos _)
  · subst h
    rw [if_pos rfl, pow_add]
    exact digit_same h1 l.isLt
  · rw [if_neg (by omega), limbOf_toNat]
    have e : (2 : Nat) ^ (32 * j) = 2 ^ (32 * k + 32) * 2 ^ (32 * (j - k - 1)) := by rw [← pow_add]; congr 1; omega
    have h5 := digit_lt h1 l.isLt
    rw [← pow_add] at h5
    rw [e, digit_above h5]

/-- A byte of the buffer after one word of its image is written (R66). -/
theorem withEncWord_get (buf : Vector Byte 65) (w : Fin 17) (v : Limb) (k : Fin 65) :
    (withEncWord buf w v)[k] = if k.val / 4 = w.val then v.extractLsb' (8 * (k.val % 4)) 8 else buf[k] := by
  simp [withEncWord]

end Sys2Proof.Machine
end

