-- ==== Sys2Proof/Tests/Slice0.lean ====
section
/-! SUPPORT. Tests of the model: refused ill-formed terms, command words written out from the spec's encoding, one or two vectors
of the spec for each command (file 95, or the worked examples of the rules), the window, and a witness for the hypotheses of each
obligation. Expected values are the spec's; the field of 11 elements of file 95 (p = 11, a = 1, b = 0, G = (5, 3), n = 3) is
small enough to check by hand. -/

namespace Sys2Proof.Tests

open Sys2Proof.Machine

/-! ### Well-formedness: a point operand above 3 -/

theorem test_ill_padd_pd : Instr.wellFormed (.padd 4 0 0) = false := by decide
theorem test_ill_padd_pa : Instr.wellFormed (.padd 0 4 0) = false := by decide
theorem test_ill_padd_pb : Instr.wellFormed (.padd 0 0 4) = false := by decide
theorem test_ill_pdbl : Instr.wellFormed (.pdbl 4 0) = false ∧ Instr.wellFormed (.pdbl 0 15) = false := by decide
theorem test_ill_pneg : Instr.wellFormed (.pneg 4 0) = false ∧ Instr.wellFormed (.pneg 0 8) = false := by decide
theorem test_ill_peq : Instr.wellFormed (.peq 4 0) = false ∧ Instr.wellFormed (.peq 0 4) = false := by decide
theorem test_ill_pchk : Instr.wellFormed (.pchk 4) = false := by decide
theorem test_ill_pmul : Instr.wellFormed (.pmul 4 0 0) = false ∧ Instr.wellFormed (.pmul 0 0 4) = false := by decide
theorem test_ill_pencu : Instr.wellFormed (.pencu 4) = false := by decide
theorem test_ill_pencc : Instr.wellFormed (.pencc 4) = false := by decide
theorem test_ill_pdec : Instr.wellFormed (.pdec 4) = false := by decide
/-- The scalar of PMUL and the operands of the field family are field registers: every number is well formed. -/
theorem test_well_formed : Instr.wellFormed (.pmul 3 15 3) = true ∧ Instr.wellFormed (.modadd .n 15 15 15) = true := by decide

/-! ### Command words, written out bit by bit from R90 and R91: Z2, RB, RA, RD, Z1, M, OPC -/

theorem test_word_modadd : decode 0b0000_0001_0000_0010_0000000_1_00000001#32 = .ok (.modadd .n 2 0 1) := by decide
theorem test_word_modsub : decode 0b0000_0110_0001_0110_0000000_1_00000010#32 = .ok (.modsub .n 6 1 6) := by decide
theorem test_word_modmul : decode 0b0000_0010_0001_0011_0000000_0_00000011#32 = .ok (.modmul .p 3 1 2) := by decide
theorem test_word_montmul : decode 0b0000_1110_0101_0110_0000000_0_00000100#32 = .ok (.montmul .p 6 5 14) := by decide
theorem test_word_modinv : decode 0b0000_0000_0101_0100_0000000_1_00000101#32 = .ok (.modinv .n 4 5) := by decide
theorem test_word_modexp : decode 0b0000_1111_0111_1100_0000000_1_00000110#32 = .ok (.modexp .n 12 7 15) := by decide
theorem test_word_modsqrt : decode 0b0000_0000_1000_0001_0000000_0_00000111#32 = .ok (.modsqrt 1 8) := by decide
theorem test_word_modred : decode 0b0000_0000_0011_1010_0000000_1_00001000#32 = .ok (.modred .n 10 3) := by decide
theorem test_word_padd : decode 0b0000_0011_0010_0001_0000000_0_00010000#32 = .ok (.padd 1 2 3) := by decide
theorem test_word_pdbl : decode 0b0000_0000_0001_0010_0000000_0_00010001#32 = .ok (.pdbl 2 1) := by decide
theorem test_word_pneg : decode 0b0000_0000_0010_0011_0000000_0_00010010#32 = .ok (.pneg 3 2) := by decide
theorem test_word_peq : decode 0b0000_0001_0010_0000_0000000_0_00010011#32 = .ok (.peq 2 1) := by decide
theorem test_word_pchk : decode 0b0000_0000_0011_0000_0000000_0_00010100#32 = .ok (.pchk 3) := by decide
theorem test_word_pmul : decode 0b0000_1111_0011_0010_0000000_0_00010101#32 = .ok (.pmul 2 15 3) := by decide
theorem test_word_pencu : decode 0b0000_0000_0011_0000_0000000_0_00100000#32 = .ok (.pencu 3) := by decide
theorem test_word_pencc : decode 0b0000_0000_0001_0000_0000000_0_00100001#32 = .ok (.pencc 1) := by decide
theorem test_word_pdec : decode 0b0000_0000_0000_0011_0000000_0_00100010#32 = .ok (.pdec 3) := by decide

/-- The illegal words of file 95, each with its reason (R100). -/
theorem test_word_unknown :
    decode 0x00000009#32 = .error .unknownOpcode ∧ decode 0x000000FF#32 = .error .unknownOpcode := by decide
theorem test_word_modulus_bit : decode 0x00000122#32 = .error .modulusBitNotZero := by decide
theorem test_word_point_above_three :
    decode 0x04000010#32 = .error .pointRegisterAboveThree ∧ decode 0x00040022#32 = .error .pointRegisterAboveThree := by decide
theorem test_word_zero_field :
    decode 0x00010013#32 = .error .registerFieldNotZero ∧ decode 0x00310020#32 = .error .registerFieldNotZero := by decide
theorem test_word_reserved :
    decode 0x00000201#32 = .error .reservedFieldNotZero ∧ decode 0x00008003#32 = .error .reservedFieldNotZero := by decide
theorem test_table_word : decodeTableWord 32 0x00300014 = some (.pchk 3) ∧ decodeTableWord 32 0 = none := by decide

/-! ### One command on a small state

`ran s w status ok`: one step completes the command word `w` launched in `s`, STATUS reads `status`, and `ok` holds of the
state after it. -/

def ran (s : State) (w status : Nat) (ok : State → Bool) : Bool :=
  match step (s.withFetchWord 32 w) with
  | .next t => t.status.word == BitVec.ofNat 32 status && ok t
  | .fault _ => false
  | .refused _ => false

/-- The reset state with two field registers loaded. -/
def start2 (r0 r1 : Word) : State := (State.reset.setReg 0 r0).setReg 1 r1

def pVal : Word := 0xFFFFFFFEFFFFFFFFFFFFFFFFFFFFFFFFFFFFFFFF00000000FFFFFFFFFFFFFFFF#256
def nVal : Word := 0xFFFFFFFEFFFFFFFFFFFFFFFFFFFFFFFF7203DF6B21C6052B53BBF40939D54123#256
def gxVal : Word := 0x32C4AE2C1F1981195F9904466A39C9948FE30BBFF2660BE1715A4589334C74C7#256
def gyVal : Word := 0xBC3736A2F4F6779C59BDCEE36B692153D0A9877CC62A474002DF32E52139F0A0#256
def gPoint : Point := ⟨gxVal, gyVal, false⟩
def gNeg : Point := ⟨gxVal, 0x43C8C95C0B098863A642311C9496DEAC2F56788239D5B8C0FD20CD1ADEC60F5F#256, false⟩
def g2Point : Point :=
  ⟨0x56CEFD60D7C87C000D58EF57FA73BA4D9C0DFA08C08A7331495C2E1DA3F2BD52#256,
   0x31B7E7E6CC8189F668535CE0F8EAF1BD6DE84C182F6C8E716F780D3A970A23C3#256, false⟩
def g3Point : Point :=
  ⟨0xA97F7CD4B3C993B4BE2DAA8CDB41E24CA13F6BD945302244E26918F1D0509EBF#256,
   0x530B5DD88C688EF5CCC5CEC08A72150F7C400EE5CD045292AAACDD037458F6E6#256, false⟩

/-- 95 §2.2, "add to exactly m" and "operand between n and p, M = 1". -/
theorem test_modadd : ran (start2 (pVal - 5#256) 5#256) 0x01020001 0x2 (fun t => t.regs[2] == 0#256) = true := by decide
theorem test_modadd_range : ran ((start2 nVal 0#256).setReg 2 9#256) 0x01020101 0x32 (fun t => t.regs[2] == 9#256) = true := by
  decide

/-- 95 §2.2, "sub, a < b" and "negate 1 modulo n". -/
theorem test_modsub : ran (start2 gxVal gyVal) 0x01020002 0x2 (fun t =>
    t.regs[2] == 0x768D77882A23097D05DB3562FED0A840BF3984422C3BC4A26E7B12A412128426#256) = true := by decide
theorem test_modsub_negate : ran (start2 0#256 1#256) 0x01020102 0x2 (fun t =>
    t.regs[2] == 0xFFFFFFFEFFFFFFFFFFFFFFFFFFFFFFFF7203DF6B21C6052B53BBF40939D54122#256) = true := by decide

/-- 95 §2.2, "mul modulo n" and "square in place". -/
theorem test_modmul : ran (start2 gxVal gyVal) 0x01020103 0x2 (fun t =>
    t.regs[2] == 0xCF7296D5CBF0B64BB5E9A11B294962E9C779B41C038E9C8D815234A0DF9D6623#256) = true := by decide
theorem test_modmul_in_place : ran (start2 (pVal - 1#256) 0#256) 0x00000003 0x2 (fun t => t.regs[0] == 1#256) = true := by
  decide

/-- 95 §2.2, "Montgomery product of gx and gy" and "even modulus". -/
theorem test_montmul : ran (start2 gxVal gyVal) 0x01020004 0x2 (fun t =>
    t.regs[2] == 0xF58B289869DD81686166EED2669FD7425E5BB90A194718A3C5B648D36C14C3FE#256) = true := by decide
theorem test_montmul_even_modulus :
    ran { start2 1#256 1#256 with prm := { Config.defaultParams with p := pVal - 1#256 } } 0x01020004 0x22
      (fun t => t.regs[2] == 0#256) = true := by decide

/-- 95 §2.2, "inverse of gx" and "composite modulus, common factor". -/
theorem test_modinv : ran (start2 gxVal 0#256) 0x00010005 0x2 (fun t =>
    t.regs[1] == 0x053B878FB82E213C17E554B9A574B7BD31775222704B7FD9C7D6F8441026CD80#256) = true := by decide +kernel
theorem test_modinv_none :
    ran { start2 6#256 0x77#256 with prm := { Config.defaultParams with n := 0xF#256 } } 0x00010105 0x42
      (fun t => t.regs[1] == 0x77#256) = true := by decide

/-- 95 §2.2, "exponent above the modulus, M = 1" and "0^0". -/
theorem test_modexp : ran (start2 2#256 0xFFFFFFFFFFFFFFFFFFFFFFFFFFFFFFFFFFFFFFFFFFFFFFFFFFFFFFFFFFFFFFFF#256) 0x01020106 0x2 (fun t =>
    t.regs[2] == 0xB83A7FCD0D3B0F3EF462B5189552625E25A62C8604B798B4655C44437C4F4D6F#256) = true := by decide +kernel
theorem test_modexp_zero : ran (start2 0#256 0#256) 0x01020006 0x2 (fun t => t.regs[2] == 1#256) = true := by decide +kernel

/-- 95 §2.2, "root of 2" and "non-residue −1". -/
theorem test_modsqrt : ran (start2 2#256 0#256) 0x00010007 0x2 (fun t =>
    t.regs[1] == 0x41ED9AB234DD73A6F5F7960816B15AAD6E13F7163A595ED5913C00ABECF73FBA#256) = true := by decide +kernel
theorem test_modsqrt_none : ran (start2 (pVal - 1#256) 9#256) 0x00010007 0x52 (fun t => t.regs[1] == 9#256) = true := by decide +kernel

/-- 95 §2.2, "reduce p modulo n" and "reduce the modulus itself". -/
theorem test_modred : ran (start2 pVal 0#256) 0x00010108 0x2 (fun t => t.regs[1] == 0x8DFC2093DE39FAD5AC440BF6C62ABEDC#256) = true := by
  decide
theorem test_modred_self : ran (start2 pVal 7#256) 0x00010008 0x2 (fun t => t.regs[1] == 0#256) = true := by decide

/-- 95 §2.3, row 6 (G + 2G) and row 5 (G + (−G)). -/
theorem test_padd : ran ((State.reset.setPoint 0 gPoint).setPoint 1 g2Point) 0x01020010 0x2 (fun t => t.points[2] == g3Point) = true := by
  decide +kernel
theorem test_padd_negation :
    ran ((State.reset.setPoint 1 gPoint).setPoint 2 gNeg) 0x02100010 0x202 (fun t => t.points[0] == ⟨0#256, 0#256, true⟩) = true := by
  decide

/-- 95 §2.3, rows 11 and 12. -/
theorem test_pdbl : ran (State.reset.setPoint 0 gPoint) 0x00010011 0x2 (fun t => t.points[1] == g2Point) = true := by decide +kernel
theorem test_pdbl_zero_y :
    ran (State.reset.setPoint 1 ⟨5#256, 0#256, false⟩) 0x00100011 0x202 (fun t => t.points[0] == ⟨0#256, 0#256, true⟩) = true := by
  decide

/-- 95 §2.3, rows 13 and 16 (PRM.A is not read). -/
theorem test_pneg : ran (State.reset.setPoint 0 gPoint) 0x00010012 0x2 (fun t => t.points[1] == gNeg) = true := by decide
theorem test_pneg_reads_no_a :
    ran { State.reset.setPoint 1 gPoint with prm := { Config.defaultParams with a := pVal } } 0x00100012 0x2
      (fun t => t.points[0] == gNeg) = true := by decide

/-- 95 §2.3, rows 19 and 20. -/
theorem test_peq : ran (State.reset.setPoint 1 ⟨5#256, 6#256, true⟩) 0x01000013 0x102 (fun t => t.points[1].x == 5#256) = true := by
  decide
theorem test_peq_finite : ran (State.reset.setPoint 1 ⟨0#256, 0#256, false⟩) 0x01000013 0x2 (fun _ => true) = true := by decide

/-- 95 §2.3, rows 23 and 27 (a coordinate equal to p is off the curve, no error). -/
theorem test_pchk : ran (State.reset.setPoint 0 gPoint) 0x00000014 0x402 (fun _ => true) = true := by decide
theorem test_pchk_range : ran (State.reset.setPoint 1 ⟨pVal, gyVal, false⟩) 0x00100014 0x2 (fun _ => true) = true := by decide

/-- 95 §2.3, k = 3, and row 41 (a point off the curve). -/
theorem test_pmul : ran ((State.reset.setPoint 1 gPoint).setReg 0 3#256) 0x00100015 0x2 (fun t => t.points[0] == g3Point) = true := by
  decide +kernel
theorem test_pmul_off_curve : ran ((State.reset.setPoint 1 ⟨1#256, 1#256, false⟩).setReg 0 3#256) 0x00100015 0x2 (fun t =>
    t.points[0].x == 0x71C71C7155555555555555555555555555555554E38E38E40000000000000001#256) = true := by decide +kernel

/-- 95 §2.4, "encode G uncompressed" and "encode infinity with an even PRM.P". -/
theorem test_pencu : ran (State.reset.setPoint 0 gPoint) 0x00000020 0x2 (fun t =>
    hostRead t 0x008 == .value 0x41#32 && hostRead t 0x040 == .value 0xAEC43204#32 && hostRead t 0x080 == .value 0xA0#32) = true := by
  decide
theorem test_pencu_even_modulus :
    ran { State.reset with prm := { Config.defaultParams with p := pVal - 1#256 } } 0x00000020 0x22 (fun t => t.enclen == 0#7) = true := by
  decide

/-- 95 §2.4, "encode −G compressed" and "encode infinity whose stale X is out of range". -/
theorem test_pencc : ran (State.reset.setPoint 0 gNeg) 0x00000021 0x2 (fun t =>
    t.enclen == 33#7 && hostRead t 0x040 == .value 0xAEC43203#32 && hostRead t 0x080 == .value 0#32) = true := by decide
theorem test_pencc_infinity : ran (State.reset.setPoint 0 ⟨pVal, 0#256, true⟩) 0x00000021 0x72 (fun t => t.enclen == 0#7) = true := by
  decide

/-- 95 §2.4, "decode the other root" and "uncompressed, off the curve". -/
theorem test_pdec : ran (State.reset.setEncoding ((encodeShort gxVal 1#256)) 33#7) 0x00010022 0x2 (fun t => t.points[1] == gNeg) = true := by
  decide +kernel
theorem test_pdec_off_curve :
    ran (State.reset.setEncoding (encodeFull gxVal (gyVal + 1#256)) 65#7) 0x00010022 0x72 (fun t => t.points[1].inf) = true := by
  decide

/-! ### The window, the gating and the events (95 §2.5, §3.5) -/

theorem test_reset_reads : hostRead State.reset 0x11C = .value 0xFFFFFFFE#32 ∧ hostRead State.reset 0x140 = .value 0x4D940E93#32 ∧
    hostRead State.reset 0x1A0 = .value 0x39D54123#32 ∧ hostRead State.reset 0x440 = .value 1#32 := by decide
theorem test_slots : slotAt 0x2AC = some (.reg 5 3) ∧ slotAt 0x53C = some (.pointY 2 7) ∧ slotAt 0x5C0 = some (.pointInf 3) := by decide
theorem test_bus_errors : hostRead State.reset 0x00C = .busError ∧ hostRead State.reset 0x084 = .busError ∧
    hostRead State.reset 0x5C4 = .busError ∧ hostRead State.reset 0x600 = .busError ∧ hostRead State.reset 0x002 = .busError ∧
    (hostAccess State.reset (.read .byte 0x040)).2 = .busError := by decide
theorem test_enclen_bits : hostRead (hostWrite State.reset 0x008 0xFFFFFFFF#32).1 0x008 = .value 0x7F#32 := by decide
theorem test_inf_bit : hostRead (hostWrite State.reset 0x440 0xFFFFFFFE#32).1 0x440 = .value 0#32 := by decide
theorem test_last_enc_word : hostRead (hostWrite State.reset 0x080 0x12345678#32).1 0x080 = .value 0x78#32 := by decide
theorem test_enc_lanes : ((hostWrite State.reset 0x040 0x44332211#32).1.encbuf.toList.take 4) = [0x11#8, 0x22#8, 0x33#8, 0x44#8] := by
  decide

/-- A block running `modmul.p r2, r0, r1` on 5 and 7, as in program E. -/
def running : State := (start2 5#256 7#256).accept 0x01020003#32

theorem test_gated_write : hostWrite running 0x200 9#32 = (running.setStatus running.status.overrun, .ok) := by decide
theorem test_gated_read : hostRead running 0x200 = .value 0#32 ∧ hostRead running 0x000 = .value 0x01020003#32 ∧
    hostRead running 0x004 = .value 1#32 ∧ hostRead running 0x1C0 = .value 1#32 := by decide
/-- OVR stays through the completion: STATUS reads 0x802 (program E). -/
theorem test_overrun_stays : ran { start2 5#256 7#256 with status := Status.idle.overrun } 0x01020003 0x802 (fun t => t.regs[2] == 35#256) = true := by
  decide
/-- The reset input abandons the command. -/
theorem test_reset_input : step { running with events := [.rst] } = .next State.reset := rfl
/-- The idle block waits. -/
theorem test_idle : step State.reset = .next State.reset := rfl

/-! ### The datapath (95 §2.6) -/

theorem test_montgomery_constants : montPrime nVal.toNat = 0x72350975 ∧ montPrime 11 = 0x45D1745D := by decide
theorem test_montgomery_loop : (List.range 9).map (montAcc 3 4 11) = [0, 3, 9, 5, 4, 1, 3, 9, 5] := by decide
theorem test_jacobian : jacDbl 11 1 ⟨5, 3, 1⟩ = ⟨4, 1, 6⟩ ∧ jacAdd 11 1 ⟨9, 2, 2⟩ ⟨7, 3, 1⟩ = ⟨8, 10, 5⟩ ∧
    jacExit 11 ⟨4, 1, 6⟩ = some (.pt 5 8) := by decide
/-- The same on images (R214): JDBL((5, 3, 1)) = (4, 1, 6), which leaves as (5, 8). -/
theorem test_image_double : tripleImage 11 ⟨4, 1, 6⟩ = imageDbl 11 (toImage 1 11) (tripleImage 11 ⟨5, 3, 1⟩) ∧
    pointDblUnit 11 1 (.pt 5 3) = some (.pt 5 8) := by decide +kernel
/-- JADD((9, 2, 2), (7, 3, 1)) = (8, 10, 5), and (5, 3) + (7, 3) leaves as (10, 8). -/
theorem test_image_add : imageAdd 11 (toImage 1 11) (tripleImage 11 ⟨9, 2, 2⟩) (tripleImage 11 ⟨7, 3, 1⟩) = tripleImage 11 ⟨8, 10, 5⟩ ∧
    pointAddUnit 11 1 (.pt 5 3) (.pt 7 3) = some (.pt 10 8) := by decide +kernel
theorem test_euclid : invMod 3 11 = some 4 ∧ invMod 0 11 = none ∧ invMod 6 15 = none := by decide

/-! ### Witnesses: for each obligation with hypotheses, states and operands that meet them, clause by clause -/

/-- A block with the field of 11 elements. The field registers hold boundary values, the point registers a point of order 3, its
negation, an infinity with stale coordinates, and the point of order 2. -/
def toy : State :=
  { State.reset with
    regs := #v[11#256, 10#256, 0#256, 1#256, 2#256, 3#256, 0#256, 0#256, 0#256, 0#256, 0#256, 0#256, 0#256, 0#256, 0#256, 0#256]
    points := #v[⟨5#256, 3#256, false⟩, ⟨5#256, 8#256, false⟩, ⟨77#256, 77#256, true⟩, ⟨0#256, 0#256, false⟩]
    prm := ⟨11#256, 1#256, 0#256, 5#256, 3#256, 3#256⟩ }

def toyP (p : Word) : State := { toy with prm := { toy.prm with p := p } }
def toyA (a : Word) : State := { toy with prm := { toy.prm with a := a } }
def toyN (n : Word) : State := { toy with prm := { toy.prm with n := n } }
def toyEnc (buf : Vector Byte 65) (len : BitVec 7) : State := toy.setEncoding buf len
def withEvents (s : State) (es : List Event) : State := { s with events := es }
def busyWith (w : BitVec 32) (es : List Event) : State := withEvents (toy.accept w) es

theorem test_witness_EncodeOfDecode : decode 0x02130003#32 = .ok (.modmul .p 3 1 2) := by decide
theorem test_witness_DecodeMatchesMask : (0x0F330015#32 &&& Opcode.pmul.format.mask) = Opcode.pmul.code.setWidth 32 ∧
    (0x0F730015#32 &&& Opcode.pmul.format.mask) ≠ Opcode.pmul.code.setWidth 32 := by decide
theorem test_witness_StepRunsDecodedCommand :
    (busyWith 0x02010015#32 [.engine, .rst]).status.busy = true ∧ (busyWith 0x02010015#32 []).status.busy = true ∧
    decode (busyWith 0x02010015#32 []).cmd = .ok (.pmul 1 2 0) ∧ (busyWith 0x02010015#32 [.engine, .rst]).events = .engine :: [.rst] ∧
    (busyWith 0x02010015#32 []).events = [] := by decide
theorem test_witness_IllegalWord : (busyWith 0#32 []).status.busy = true ∧ (busyWith 0#32 []).events = [] ∧
    (busyWith 0#32 [.engine, .rst]).status.busy = true ∧ (busyWith 0#32 [.engine, .rst]).events = .engine :: [.rst] ∧
    (busyWith 0#32 [.engine, .rst]).cmd = (busyWith 0#32 []).cmd ∧
    ∀ o : Opcode, ((busyWith 0#32 []).cmd &&& o.format.mask) ≠ o.code.setWidth 32 :=
  ⟨rfl, rfl, rfl, rfl, rfl, fun o => by cases o <;> decide⟩
theorem test_witness_WriteToCmd : (withEvents toy [.host (.write .word 0x000 0xFFFFFFFF#32)]).status.busy = false ∧
    (withEvents toy [.host (.write .word 0x000 0xFFFFFFFF#32)]).events = .host (.write .word 0x000 0xFFFFFFFF#32) :: [] := by decide
theorem test_witness_ResetInput : (busyWith 0x02130003#32 [.rst, .engine]).events = .rst :: [.engine] := rfl

/-- The field rules: a modulus that is even or below 3, an operand equal to the modulus, both operands one below it; the two
moduli. -/
theorem test_witness_field_clauses :
    ¬ GoodModulus (modulusValue (toyP 10#256) .p) ∧ ¬ GoodModulus (modulusValue (toyN 1#256) .n) ∧
    GoodModulus (modulusValue toy .p) ∧ GoodModulus (modulusValue toy .n) ∧ ¬ toy.regs[0].toNat < modulusValue toy .p ∧
    (toy.regs[1].toNat < modulusValue toy .p ∧ toy.regs[2].toNat < modulusValue toy .p) ∧
    (toy.regs[4].toNat < modulusValue toy .n ∧ ¬ toy.regs[5].toNat < modulusValue toy .n) := by decide
theorem test_witness_ModinvRule : GoodModulus (modulusValue toy .p) ∧ toy.regs[1].toNat < modulusValue toy .p ∧
    Nat.gcd toy.regs[1].toNat (modulusValue toy .p) = 1 ∧ Nat.gcd toy.regs[2].toNat (modulusValue toy .p) ≠ 1 ∧
    GoodModulus (modulusValue (toyN 15#256) .n) ∧ toy.regs[5].toNat < modulusValue (toyN 15#256) .n ∧
    Nat.gcd toy.regs[5].toNat (modulusValue (toyN 15#256) .n) ≠ 1 := by decide
theorem test_witness_ModsqrtRule : (GoodModulus (toyP 13#256).prm.p.toNat ∧ (toyP 13#256).prm.p.toNat % 4 ≠ 3) ∧
    GoodModulus toy.prm.p.toNat ∧ toy.prm.p.toNat % 4 = 3 ∧ ¬ toy.regs[0].toNat < toy.prm.p.toNat ∧
    (toy.regs[4].toNat < 11 ∧ (toy.regs[4].toNat ^ ((11 + 1) / 4) % 11) ^ 2 % 11 ≠ toy.regs[4].toNat) ∧
    (toy.regs[5].toNat < 11 ∧ (toy.regs[5].toNat ^ ((11 + 1) / 4) % 11) ^ 2 % 11 = toy.regs[5].toNat) := by decide
theorem test_witness_toy_p : toy.prm.p.toNat = 11 := by decide
theorem test_witness_toy_prime : toy.prm.p.toNat.Prime := by rw [test_witness_toy_p]; norm_num
theorem test_witness_ModsqrtFindsEveryRoot : toy.prm.p.toNat.Prime ∧
    toy.prm.p.toNat % 4 = 3 ∧ toy.regs[5].toNat < toy.prm.p.toNat ∧ toy.regs[4].toNat < toy.prm.p.toNat ∧
    (∃ x : Nat, x * x % toy.prm.p.toNat = toy.regs[5].toNat) ∧ ¬ ∃ x : Nat, x * x % toy.prm.p.toNat = toy.regs[4].toNat := by
  refine ⟨test_witness_toy_prime, by decide, by decide, by decide, ⟨5, by decide⟩, ?_⟩
  have h4 : toy.regs[4].toNat = 2 := by decide
  rintro ⟨x, h⟩
  rw [test_witness_toy_p, h4, Nat.mul_mod] at h
  exact absurd h (by have := Nat.mod_lt x (by norm_num : 11 > 0); interval_cases x % 11 <;> decide)
theorem test_witness_MontgomeryProductRelation : GoodModulus 11 ∧ 11 < 2 ^ 256 ∧ 10 < 11 ∧ 0 < 11 := by decide

/-- The point rules: the checks in their order, then each case of R161. -/
theorem test_witness_point_checks :
    ¬ GoodModulus (toyP 10#256).prm.p.toNat ∧ GoodModulus toy.prm.p.toNat ∧ ¬ (toyA 11#256).prm.a.toNat < (toyA 11#256).prm.p.toNat ∧
    toy.prm.a.toNat < toy.prm.p.toNat ∧ ¬ InRange toy.prm.p.toNat ⟨11#256, 3#256, false⟩ ∧
    ¬ InRange toy.prm.p.toNat ⟨5#256, 11#256, false⟩ ∧
    InRange toy.prm.p.toNat toy.points[0] ∧ InRange toy.prm.p.toNat toy.points[2] := by decide
theorem test_witness_PaddRule :
    (toy.points[2].inf = true ∧ toy.points[0].inf = false ∧ toy.points[1].inf = false ∧ toy.points[3].inf = false) ∧
    (toy.points[0].x = toy.points[1].x ∧ toy.points[0] ≠ toy.points[1]) ∧ toy.points[0].x ≠ toy.points[3].x ∧
    toy.prm.p.toNat.Prime := ⟨by decide, by decide +kernel, by decide +kernel, test_witness_toy_prime⟩
/-- The double inside PADD and PMUL: an inverse of 2y that exists, a y that needs none, and one that does not exist (p = 15). -/
theorem test_witness_double_guard : Nat.gcd (2 * toy.points[0].y.toNat) toy.prm.p.toNat = 1 ∧ toy.points[3].y = 0#256 ∧
    toy.points[3].inf = false ∧ Nat.gcd (2 * toy.points[0].y.toNat) (toyP 15#256).prm.p.toNat ≠ 1 := by decide
theorem test_witness_PdblRule : toy.points[2].inf = true ∧ (toy.points[3].inf = false ∧ toy.points[3].y = 0#256) ∧
    (toy.points[0].inf = false ∧ toy.points[0].y ≠ 0#256) ∧ toy.prm.p.toNat.Prime :=
  ⟨by decide, by decide +kernel, by decide +kernel, test_witness_toy_prime⟩
theorem test_witness_PchkRule : ¬ (toyA 11#256).prm.a.toNat < 11 ∧ toy.prm.b.toNat < toy.prm.p.toNat := by decide
theorem test_witness_PmulSmallScalars : GoodModulus toy.prm.p.toNat ∧ toy.prm.a.toNat < toy.prm.p.toNat ∧
    InRange toy.prm.p.toNat toy.points[0] ∧ toy.regs[2] = 0#256 ∧ toy.regs[3] = 1#256 ∧ toy.regs[4] = 2#256 ∧
    toy.points[0].inf = false ∧ (InRange toy.prm.p.toNat toy.points[2] ∧ toy.points[2].inf = true) := by decide
theorem test_witness_ParamsValid : ParamsValid toy.prm where
  prime := test_witness_toy_prime
  root := by decide
  three := by decide
  a_lt := by decide
  b_lt := by decide
  gx_lt := by decide
  gy_lt := by decide
  base := by decide
  order := by rw [show toy.prm.n.toNat = 3 from by decide]; norm_num
  order3 := by decide
  smooth := by decide
theorem test_witness_PmulIsGroupMultiple : Nat.Prime 11 ∧ toy.prm.p.toNat = 11 ∧ ParamsValid toy.prm ∧ toy.points[0].inf = false ∧
    pointOnCurve 11 toy.prm.a.toNat toy.prm.b.toNat toy.points[0] = true := ⟨by norm_num, rfl, test_witness_ParamsValid, rfl, by decide⟩
theorem test_witness_MissingInverse : GoodModulus (toyP 15#256).prm.p.toNat ∧ (toyP 15#256).prm.a.toNat < (toyP 15#256).prm.p.toNat ∧
    InRange (toyP 15#256).prm.p.toNat toy.points[0] ∧ InRange (toyP 15#256).prm.p.toNat toy.points[3] ∧
    toy.points[0].inf = false ∧ toy.points[3].inf = false ∧ toy.points[0].x ≠ toy.points[3].x ∧
    Int.gcd ((toy.points[3].x.toNat : Int) - toy.points[0].x.toNat) (toyP 15#256).prm.p.toNat ≠ 1 ∧
    toy.points[0].y ≠ 0#256 ∧ Nat.gcd (2 * toy.points[0].y.toNat) (toyP 15#256).prm.p.toNat ≠ 1 ∧ 2 ≤ toy.regs[4].toNat := by decide
/-- A scan that comes upon a missing inverse: the scalar 2 and 2y = 6 modulo 15. -/
theorem test_witness_MissingInverse_scan : scalarScan (toyP 15#256).prm.p.toNat (toyP 15#256).prm.a.toNat
    (affineOf (toyP 15#256).points[0]) 256 (toyP 15#256).regs[4].toNat = none := by decide +kernel
theorem test_witness_PrimeModulusUsesNoFreeValue : toy.prm.p.toNat.Prime ∧ ∃ t, exec (.padd 2 0 1) toy = .next t :=
  ⟨test_witness_toy_prime, _, rfl⟩

/-- The uncompressed form: a point on the curve, one off it, a coordinate equal to p. -/
theorem test_witness_PdecUncompressed :
    (toyEnc (encodeFull 5#256 3#256) 65#7).enclen = 65#7 ∧ (toyEnc (encodeFull 5#256 3#256) 65#7).encbuf[0] = 0x04#8 ∧
    Spells (toyEnc (encodeFull 5#256 3#256) 65#7).encbuf 1 5 ∧ Spells (toyEnc (encodeFull 5#256 3#256) 65#7).encbuf 33 3 ∧
    3 ^ 2 % 11 = (5 ^ 3 + 1 * 5 + 0) % 11 := by
  unfold Spells; decide
theorem test_witness_PdecUncompressed_off :
    (toyEnc (encodeFull 5#256 4#256) 65#7).encbuf[0] = 0x04#8 ∧ Spells (toyEnc (encodeFull 5#256 4#256) 65#7).encbuf 1 5 ∧
    Spells (toyEnc (encodeFull 5#256 4#256) 65#7).encbuf 33 4 ∧ 4 ^ 2 % 11 ≠ (5 ^ 3 + 1 * 5 + 0) % 11 := by
  unfold Spells; decide
theorem test_witness_PdecUncompressed_range :
    (toyEnc (encodeFull 11#256 0#256) 65#7).encbuf[0] = 0x04#8 ∧ Spells (toyEnc (encodeFull 11#256 0#256) 65#7).encbuf 1 11 ∧
    Spells (toyEnc (encodeFull 11#256 0#256) 65#7).encbuf 33 0 := by
  unfold Spells; decide
/-- The compressed form, w = 9 and c = 3 at x = 5; no root at x = 1; the zero root with an odd prefix at x = 0; x equal to p; and
p mod 4 = 1. -/
theorem test_witness_PdecCompressed :
    (toyEnc (encodeShort 5#256 1#256) 33#7).enclen = 33#7 ∧ (toyEnc (encodeShort 5#256 1#256) 33#7).encbuf[0] = 0x03#8 ∧
    Spells (toyEnc (encodeShort 5#256 1#256) 33#7).encbuf 1 5 ∧ 9 = (5 ^ 3 + toy.prm.a.toNat * 5 + toy.prm.b.toNat) % toy.prm.p.toNat ∧
    3 = 9 ^ ((toy.prm.p.toNat + 1) / 4) % toy.prm.p.toNat ∧ 3 ^ 2 % toy.prm.p.toNat = 9 := by
  unfold Spells; decide
theorem test_witness_PdecCompressed_no_root : (toyEnc (encodeShort 1#256 0#256) 33#7).encbuf[0] = 0x02#8 ∧
    Spells (toyEnc (encodeShort 1#256 0#256) 33#7).encbuf 1 1 ∧ 2 = (1 ^ 3 + 1 * 1 + 0) % 11 ∧ 8 = 2 ^ ((11 + 1) / 4) % 11 ∧
    8 ^ 2 % 11 ≠ 2 := by
  unfold Spells; decide
theorem test_witness_PdecCompressed_zero_root : (toyEnc (encodeShort 0#256 1#256) 33#7).encbuf[0] = 0x03#8 ∧
    Spells (toyEnc (encodeShort 0#256 1#256) 33#7).encbuf 1 0 ∧ 0 = (0 ^ 3 + 1 * 0 + 0) % 11 ∧ 0 = 0 ^ ((11 + 1) / 4) % 11 := by
  unfold Spells; decide
theorem test_witness_PdecCompressed_range : (toyEnc (encodeShort 11#256 0#256) 33#7).encbuf[0] = 0x02#8 ∧
    Spells (toyEnc (encodeShort 11#256 0#256) 33#7).encbuf 1 11 ∧ (toyP 13#256).prm.p.toNat % 4 ≠ 3 := by
  unfold Spells; decide
theorem test_witness_PdecRefuses :
    ¬ (toy.enclen = 65#7 ∧ toy.encbuf[0] = 0x04#8) ∧ ¬ (toy.enclen = 33#7 ∧ (toy.encbuf[0] = 0x02#8 ∨ toy.encbuf[0] = 0x03#8)) ∧
    ¬ ((toyEnc (encodeFull 5#256 3#256) 33#7).enclen = 65#7) ∧
    ¬ ((toyEnc (encodeFull 5#256 3#256) 33#7).encbuf[0] = 0x02#8 ∨ (toyEnc (encodeFull 5#256 3#256) 33#7).encbuf[0] = 0x03#8) := by
  decide
/-- What the statements about an outcome assume: a command that succeeds, one that fails, and each flag. -/
def answers (i : Instr) (s : State) (ok : State → Bool) : Bool :=
  match exec i s with
  | .next t => ok t
  | .fault _ => false
  | .refused _ => false

theorem answers_next {i : Instr} {s : State} {ok : State → Bool} (h : answers i s ok = true) :
    ∃ t, exec i s = .next t ∧ ok t = true := by
  unfold answers at h
  split at h
  · exact ⟨_, by assumption, h⟩
  · simp at h
  · simp at h

theorem test_witness_field_next : ∃ t, exec (.modadd .p 2 1 1) toy = .next t ∧ (t.status.err == none) = true :=
  answers_next (by decide)
theorem test_witness_sqrt_next : ∃ t, exec (.modsqrt 2 5) toy = .next t ∧ (t.status.err == none) = true :=
  answers_next (by decide +kernel)
theorem test_witness_point_next : ∃ t, exec (.pneg (pointReg 3) (pointReg 0)) toy = .next t ∧ (t.status.err == none) = true :=
  answers_next (by decide)
theorem test_witness_encoder_next : ∃ t, exec (.pencc (pointReg 0)) toy = .next t ∧ (t.status.err == none) = true :=
  answers_next (by decide)
theorem test_witness_error_next : ∃ t, exec (.modadd .p 2 0 1) toy = .next t ∧ (t.status.err == some .operandRange) = true :=
  answers_next (by decide)
theorem test_witness_eq_flag : ∃ t, exec (.peq 0 0) toy = .next t ∧ t.status.flags.eq = true := answers_next (by decide)
theorem test_witness_onCurve_flag : ∃ t, exec (.pchk 0) toy = .next t ∧ t.status.flags.onCurve = true :=
  answers_next (by decide)
theorem test_witness_inf_flag : ∃ t, exec (.pdbl 1 3) toy = .next t ∧ t.status.flags.inf = true := answers_next (by decide)
theorem test_witness_EncodeThenDecode : ParamsValid toy.prm ∧ toy.points[0].inf = false ∧
    ∃ c, exec (.pchk (pointReg 0)) toy = .next c ∧ c.status.flags.onCurve = true :=
  ⟨test_witness_ParamsValid, rfl, answers_next (by decide)⟩
/-- Two states of different history that agree in all a command may read, and a command with a missing inverse (R48). -/
theorem test_witness_same_input (s u : State) (hs : s = toyP 15#256)
    (hu : u = { toyP 15#256 with cmd := 7#32, answers := [.ok], draws := 3, status := Status.idle.overrun }) :
    s ≠ u ∧ s.regs = u.regs ∧ s.points = u.points ∧ s.prm = u.prm ∧ s.encbuf = u.encbuf ∧ s.enclen = u.enclen ∧
    ∃ t, exec (.padd 1 0 3) s = .next t := by
  subst hs; subst hu
  exact ⟨fun h => absurd (congrArg State.draws h) (by decide), rfl, rfl, rfl, rfl, rfl, (exec_next _ _)⟩
theorem test_witness_status : (toy.status.overrun).ovr = ({ toy with status := toy.status.overrun }).status.ovr := rfl

theorem test_witness_StatusInvariantKept : (busyWith 0x02130003#32 [.engine]).Inv = true ∧
    ∃ t, step (busyWith 0x02130003#32 [.engine]) = .next t := ⟨by decide, _, rfl⟩
theorem test_witness_OvrClearedOnlyByReset : (running.setStatus running.status.overrun).status.ovr = true ∧
    ∃ t, step (withEvents (running.setStatus running.status.overrun) [.rst]) = .next t := ⟨rfl, _, rfl⟩
theorem test_witness_gating : running.status.busy = true ∧ Slot.cmd ≠ .status ∧ Slot.cmd ≠ .prmH := by decide
/-- Two busy blocks with different registers and the same accesses to come. -/
theorem test_witness_BusyBlockRevealsNothing (es : List Event) (h : es = [HostAccess.read .word 0x200].map .host) :
    (withEvents running es).status.busy = true ∧ (withEvents running es).cmd = (withEvents (running.setReg 0 9#256) es).cmd ∧
    (withEvents running es).status = (withEvents (running.setReg 0 9#256) es).status ∧
    (withEvents running es).answers = (withEvents (running.setReg 0 9#256) es).answers ∧
    (withEvents running es).events = [HostAccess.read .word 0x200].map .host ∧
    (withEvents (running.setReg 0 9#256) es).events = [HostAccess.read .word 0x200].map .host := ⟨rfl, rfl, rfl, rfl, h, h⟩
theorem test_witness_registers_differ : running.regs[0] ≠ (running.setReg 0 9#256).regs[0] := by decide
theorem test_witness_CommandIsAtomic :
    (withEvents running ([HostAccess.write .word 0x200 9#32].map .host ++ [.engine])).status.busy = true ∧
    (withEvents running ([HostAccess.write .word 0x200 9#32].map .host ++ [.engine])).events =
      [HostAccess.write .word 0x200 9#32].map .host ++ [.engine] := ⟨rfl, rfl⟩
theorem test_witness_EveryCommandCompletes : (busyWith 0#32 [.host (.read .word 4), .engine]).status.busy = true ∧ Event.rst ∉ (busyWith 0#32 [.host (.read .word 4), .engine]).events := by decide
/-- A run that has ended although turns of the idle engine and a reset are still to come (R16), and two that have not. -/
theorem test_witness_runEnded : runEnded (withEvents toy [.engine, .rst]) = true ∧ runEnded (busyWith 0#32 []) = false ∧
    runEnded (withEvents toy [.engine, .host (.read .word 4)]) = false ∧ ∃ t, step (withEvents toy [.engine, .rst]) = .next t :=
  ⟨by decide, by decide, by decide, _, rfl⟩
theorem test_witness_window : toy.status.busy = false ∧ Slot.enclen ≠ .cmd ∧ Slot.enclen ≠ .status ∧ Slot.enclen ≠ .prmH ∧
    Slot.encbuf 16 ≠ Slot.encbuf 15 := by decide
theorem test_witness_bus : AccessSize.byte ≠ .word ∧ 0x202 % 4 ≠ 0 ∧ slotAt 0x00C = none := by decide
/-- The largest odd modulus and operands one below it, and the smallest modulus. -/
theorem test_witness_units : (GoodModulus (2 ^ 256 - 1) ∧ 2 ^ 256 - 1 < 2 ^ 256 ∧ 2 ^ 256 - 2 < 2 ^ 256 - 1) ∧
    (GoodModulus 3 ∧ 3 < 2 ^ 256 ∧ 2 < 3) ∧ 31 < 32 := by decide
theorem test_witness_Jacobian : Nat.Prime 11 ∧ 3 ≤ 11 ∧ 11 < 2 ^ 256 ∧ Jacobian.Below 11 ⟨9, 2, 2⟩ ∧ Jacobian.Below 11 ⟨1, 1, 0⟩ :=
  ⟨by norm_num, by norm_num, by norm_num, by unfold Jacobian.Below; decide, by unfold Jacobian.Below; decide⟩
theorem test_witness_Scanner : Affine.Below 11 (.pt 5 3) ∧ Affine.Below 11 .inf ∧ 1 < 11 := ⟨⟨by decide, by decide⟩, trivial, by decide⟩
theorem test_witness_Decompressor : GoodModulus 11 ∧ 11 % 4 = 3 ∧ 1 < 11 ∧ 0 < 11 ∧ 10 < 11 := by decide

end Sys2Proof.Tests
end

/-! ## The state: the invariant of STATUS, acceptance, reset, and what each command leaves unchanged

`exec_leaves` says what a command can do; `step_statusChange` says the same of a step, for STATUS and CMD. The statements about the
state follow from these two. -/

namespace Sys2Proof.Machine

/-! ### What a command and a step do to STATUS and CMD -/

/-! A write to one destination keeps what is no destination (R36). -/

@[simp] theorem State.write_prm (s : State) (d : Dest) : (s.write d).prm = s.prm := by cases d <;> rfl
@[simp] theorem State.write_cmd (s : State) (d : Dest) : (s.write d).cmd = s.cmd := by cases d <;> rfl
@[simp] theorem State.write_status (s : State) (d : Dest) : (s.write d).status = s.status := by cases d <;> rfl
@[simp] theorem State.write_events (s : State) (d : Dest) : (s.write d).events = s.events := by cases d <;> rfl
@[simp] theorem State.write_answers (s : State) (d : Dest) : (s.write d).answers = s.answers := by cases d <;> rfl
@[simp] theorem State.write_draws (s : State) (d : Dest) : (s.write d).draws = s.draws := by cases d <;> rfl

/-- The state a command completes from: with an outcome that U1 leaves unspecified counted, or not. -/
def State.drawIf (s : State) (drawn : Bool) : State := if drawn then s.draw else s

@[simp] theorem State.drawIf_false (s : State) : s.drawIf false = s := rfl
@[simp] theorem State.drawIf_true (s : State) : s.drawIf true = s.draw := rfl
@[simp] theorem State.drawIf_regs (s : State) (b : Bool) : (s.drawIf b).regs = s.regs := by cases b <;> rfl
@[simp] theorem State.drawIf_points (s : State) (b : Bool) : (s.drawIf b).points = s.points := by cases b <;> rfl
@[simp] theorem State.drawIf_prm (s : State) (b : Bool) : (s.drawIf b).prm = s.prm := by cases b <;> rfl
@[simp] theorem State.drawIf_encbuf (s : State) (b : Bool) : (s.drawIf b).encbuf = s.encbuf := by cases b <;> rfl
@[simp] theorem State.drawIf_enclen (s : State) (b : Bool) : (s.drawIf b).enclen = s.enclen := by cases b <;> rfl
@[simp] theorem State.drawIf_cmd (s : State) (b : Bool) : (s.drawIf b).cmd = s.cmd := by cases b <;> rfl
@[simp] theorem State.drawIf_status (s : State) (b : Bool) : (s.drawIf b).status = s.status := by cases b <;> rfl
@[simp] theorem State.drawIf_events (s : State) (b : Bool) : (s.drawIf b).events = s.events := by cases b <;> rfl
@[simp] theorem State.drawIf_answers (s : State) (b : Bool) : (s.drawIf b).answers = s.answers := by cases b <;> rfl

/-- `exec_leaves` in one form for a counted outcome and any other: an error code with nothing written, or the destination and
flags of the command's rule. -/
theorem exec_cases {i : Instr} {s t : State} (h : exec i s = .next t) :
    ∃ drawn, (drawn = true → usesInverse i = true) ∧
      ((∃ e, t = (s.drawIf drawn).setStatus (s.status.completed (some e) Flags.none)) ∨
        ∃ d fl, MayLeave i d fl ∧ t = ((s.drawIf drawn).write d).setStatus (s.status.completed none fl)) := by
  rcases exec_leaves h with hl | ⟨hl, hu⟩
  · exact ⟨false, nofun, hl⟩
  · exact ⟨true, fun _ => hu, hl⟩

/-- Every completion leaves CMD and rewrites STATUS; an error leaves the flags 0 (R25, R29). -/
theorem exec_status {i : Instr} {s t : State} (h : exec i s = .next t) :
    ∃ err fl, (err = none ∨ fl = Flags.none) ∧ t.status = s.status.completed err fl ∧ t.cmd = s.cmd := by
  obtain ⟨drawn, -, ⟨e, rfl⟩ | ⟨d, fl, -, rfl⟩⟩ := exec_cases h
  · exact ⟨some e, Flags.none, .inr rfl, rfl, by simp⟩
  · exact ⟨none, fl, .inl rfl, rfl, by simp⟩

/-- What a step without reset can do to STATUS `st` and CMD `w` (R27, R28, R29, R276). -/
inductive StatusChange (st : Status) (w : BitVec 32) (st' : Status) (w' : BitVec 32) : Prop where
  | kept (status : st' = st) (cmd : w' = w)
  | overrun (busy : st.busy = true) (status : st' = st.overrun) (cmd : w' = w)
  | accepted (idle : st.busy = false) (status : st' = st.accepted)
  | completed (err : Option CmdError) (fl : Flags) (flags : err = none ∨ fl = Flags.none)
      (status : st' = st.completed err fl) (cmd : w' = w)

theorem complete_statusChange {s t : State} (h : complete s = .next t) : StatusChange s.status s.cmd t.status t.cmd := by
  unfold complete at h
  split at h
  · obtain ⟨err, fl, hf, hst, hcmd⟩ := exec_status h
    exact .completed err fl hf hst hcmd
  · cases h
    exact .completed _ _ (.inr rfl) rfl rfl

theorem engineTurn_statusChange {s t : State} (h : engineTurn s = .next t) : StatusChange s.status s.cmd t.status t.cmd := by
  unfold engineTurn at h
  split at h
  · exact complete_statusChange h
  · cases h
    exact .kept rfl rfl

/-- Of the slots of the window only CMD reaches STATUS or CMD (R27, R63). -/
theorem writeSlot_status_cmd (s : State) {sl : Slot} (v : Limb) (h : sl ≠ .cmd) :
    (writeSlot s sl v).status = s.status ∧ (writeSlot s sl v).cmd = s.cmd := by
  cases sl with
  | cmd => exact absurd rfl h
  | _ => simp [writeSlot]

theorem hostWrite_statusChange (s : State) (off : Nat) (v : Limb) :
    StatusChange s.status s.cmd (hostWrite s off v).1.status (hostWrite s off v).1.cmd := by
  unfold hostWrite
  split
  case h_1 => exact .kept rfl rfl
  case h_2 sl _ =>
    split
    case isTrue hg => exact .overrun (Bool.and_eq_true_iff.1 hg).1 rfl rfl
    case isFalse hg =>
      by_cases hc : sl = .cmd
      · subst hc
        exact .accepted (by simpa [Slot.writeGated] using hg) rfl
      · obtain ⟨hst, hcmd⟩ := writeSlot_status_cmd s v hc
        exact .kept hst hcmd

theorem hostAccess_statusChange (s : State) (a : HostAccess) :
    StatusChange s.status s.cmd (hostAccess s a).1.status (hostAccess s a).1.cmd := by
  rcases a with ⟨size, off⟩ | ⟨size, off, v⟩
  · cases size <;> exact .kept rfl rfl
  · cases size with
    | word => exact hostWrite_statusChange s off v
    | _ => exact .kept rfl rfl

/-- Every step but the reset input changes STATUS and CMD in one of these ways; the reset input gives both their reset values
(R270). -/
theorem step_statusChange {s t : State} (h : step s = .next t) :
    StatusChange s.status s.cmd t.status t.cmd ∨
      (∃ rest, s.events = .rst :: rest) ∧ t.status = State.reset.status ∧ t.cmd = State.reset.cmd := by
  unfold step nextEvent at h
  split at h
  case h_1 => exact .inl (engineTurn_statusChange h)
  case h_2 e rest he =>
    cases e with
    | host a =>
      cases h
      exact .inl (hostAccess_statusChange { s with events := rest } a)
    | engine => exact .inl (engineTurn_statusChange (s := { s with events := rest }) h)
    | rst =>
      cases h
      exact .inr ⟨⟨rest, he⟩, rfl, rfl⟩

/-! ### The invariant of STATUS and CMD -/

theorem State.inv_iff (s : State) :
    s.Inv = true ↔ s.status.legal = true ∧ (s.status.busy = true ∨ s.status.done = true ∨ s.cmd = 0#32) := by
  simp [State.Inv, or_assoc]

theorem Status.accepted_legal (st : Status) : st.accepted.legal = true := rfl

/-- A write lost while BUSY leaves STATUS legal: OVR is free there. -/
theorem Status.overrun_legal {st : Status} (hb : st.busy = true) (h : st.legal = true) : st.overrun.legal = true := by
  cases hd : st.done with
  | true => simp [Status.legal, hb, hd] at h
  | false => simpa [Status.legal, hb, hd] using h

theorem Status.completed_legal (st : Status) {err : Option CmdError} {fl : Flags} (h : err = none ∨ fl = Flags.none) :
    (st.completed err fl).legal = true := by
  simpa [Status.legal] using h

theorem reset_inv : State.reset.Inv = true := by decide

/-- Every change of STATUS keeps the invariant: an acceptance leaves BUSY, a completion leaves DONE, and the rest keeps both and
CMD. -/
theorem StatusChange.inv {s t : State} (hc : StatusChange s.status s.cmd t.status t.cmd) (h : s.Inv = true) : t.Inv = true := by
  obtain ⟨hl, hw⟩ := s.inv_iff.1 h
  rw [State.inv_iff]
  cases hc with
  | kept hst hcmd => rw [hst, hcmd]; exact ⟨hl, hw⟩
  | overrun hb hst hcmd => rw [hst]; exact ⟨Status.overrun_legal hb hl, .inl hb⟩
  | accepted hb hst => rw [hst]; exact ⟨Status.accepted_legal _, .inl rfl⟩
  | completed err fl hf hst hcmd => rw [hst]; exact ⟨Status.completed_legal _ hf, .inr (.inl rfl)⟩

/-- Settles O43: every step is a change of STATUS that keeps the invariant, or the reset input. -/
theorem statusInvariantKept : Obligations.StatusInvariantKept := by
  intro s t hi h
  rcases step_statusChange h with hc | ⟨-, hst, hcmd⟩
  · exact hc.inv hi
  · rw [State.inv_iff, hst, hcmd, ← State.inv_iff]
    exact reset_inv

/-- Settles O44: at reset STATUS and CMD are 0. -/
theorem statusInvariantAtReset : Obligations.StatusInvariantAtReset := reset_inv

/-- No change of STATUS clears OVR (R28). -/
theorem StatusChange.ovr {st st' : Status} {w w' : BitVec 32} (hc : StatusChange st w st' w') (h : st.ovr = true) :
    st'.ovr = true := by
  cases hc with
  | kept hst => rw [hst]; exact h
  | overrun _ hst => rw [hst]; rfl
  | accepted _ hst => rw [hst]; exact h
  | completed _ _ _ hst => rw [hst]; exact h

/-- Settles O45: only the reset input is no such change. -/
theorem ovrClearedOnlyByReset : Obligations.OvrClearedOnlyByReset := by
  intro s t ho h
  rcases step_statusChange h with hc | ⟨hrst, -⟩
  · exact .inl (hc.ovr ho)
  · exact .inr hrst


/-! ### Acceptance and reset -/

/-- Settles O9: offset 0 is CMD, and an idle block gates no write. -/
theorem writeToCmdLaunches : Obligations.WriteToCmdLaunches := by
  intro s v rest hb he
  have hslot : slotAt 0x000 = some .cmd := rfl
  unfold step nextEvent
  rw [he]
  simp only [takeEvent, answerAccess, hostAccess, hostWrite, hslot, hb]
  rfl

/-- Settles O10: every register is an entry of a constant vector, and the window shows PRM.H and STATUS as their constants. -/
theorem resetValues : Obligations.ResetValues := by
  refine ⟨fun i => ?_, fun j => ?_, rfl, by decide, fun k => ?_, rfl, rfl, by decide⟩
  · exact Vector.getElem_replicate i.isLt
  · exact Vector.getElem_replicate j.isLt
  · exact Vector.getElem_replicate k.isLt

/-- Settles O11: one parameter register after the other, read through the window. -/
theorem defaultParameters : Obligations.DefaultParameters := by
  refine ⟨?_, ?_, ?_, ?_, ?_, ?_⟩ <;> decide

/-! ### What each command leaves unchanged -/

/-- Besides STATUS a command writes the destination of its rule, or on an error none. -/
theorem exec_write {i : Instr} {s t : State} (h : exec i s = .next t) :
    ∃ drawn d st, (drawn = true → usesInverse i = true) ∧ (d = .none ∨ ∃ fl, MayLeave i d fl) ∧
      t = ((s.drawIf drawn).write d).setStatus st := by
  obtain ⟨drawn, hu, ⟨e, ht⟩ | ⟨d, fl, hm, ht⟩⟩ := exec_cases h
  · exact ⟨drawn, .none, _, hu, .inl rfl, ht⟩
  · exact ⟨drawn, d, _, hu, .inr ⟨fl, hm⟩, ht⟩

/-- A command that needs no inverse has no outcome that U1 leaves unspecified. -/
theorem exec_write_of_no_inverse {i : Instr} {s t : State} (hi : usesInverse i = false) (h : exec i s = .next t) :
    ∃ d st, (d = .none ∨ ∃ fl, MayLeave i d fl) ∧ t = (s.write d).setStatus st := by
  obtain ⟨drawn, d, st, hu, hd, ht⟩ := exec_write h
  cases drawn with
  | false => exact ⟨d, st, hd, ht⟩
  | true => simp [hi] at hu

/-- The commands of the field family (R120). -/
def fieldCommands (m : Modulus) (rd ra rb : RegNum) : List Instr :=
  [.modadd m rd ra rb, .modsub m rd ra rb, .modmul m rd ra rb, .montmul m rd ra rb, .modinv m rd ra, .modexp m rd ra rb,
    .modsqrt rd ra, .modred m rd ra]

/-- The commands that write the point register `d` (R160, R196). -/
def pointCommands (d : Fin 4) (pa pb rb : RegNum) : List Instr :=
  [.padd (pointReg d) pa pb, .pdbl (pointReg d) pa, .pneg (pointReg d) pa, .pmul (pointReg d) rb pa, .pdec (pointReg d)]

theorem fieldCommands_mayLeave {m : Modulus} {rd ra rb : RegNum} {i : Instr} (hi : i ∈ fieldCommands m rd ra rb) :
    usesInverse i = false ∧ ∀ d fl, MayLeave i d fl → ∃ v, d = .reg rd v := by
  simp only [fieldCommands, List.mem_cons, List.not_mem_nil, or_false] at hi
  rcases hi with rfl | rfl | rfl | rfl | rfl | rfl | rfl | rfl <;> exact ⟨rfl, fun d fl ⟨v, hd, _⟩ => ⟨v, hd⟩⟩

theorem pointCommands_mayLeave {d : Fin 4} {pa pb rb : RegNum} {i : Instr} (hi : i ∈ pointCommands d pa pb rb) {dest : Dest}
    {fl : Flags} (h : MayLeave i dest fl) : ∃ q, dest = .point d q ∧ fl = pointFlags q := by
  have named {j : Fin 4} (q : Point) (hj : j.val = (pointReg d).val) : Dest.point j q = .point d q := by rw [Fin.ext hj]
  simp only [pointCommands, List.mem_cons, List.not_mem_nil, or_false] at hi
  rcases hi with rfl | rfl | rfl | rfl | rfl
  iterate 4
    · obtain ⟨j, q, hj, rfl, hfl⟩ := h
      exact ⟨q, named q hj, hfl⟩
  · obtain ⟨j, q, hj, -, rfl, hfl⟩ := h
    exact ⟨q, named q hj, hfl⟩

/-- R29, R32: no command touches the parameter block, CMD, OVR or the environment, and every command ends with DONE. -/
theorem exec_frame {i : Instr} {s t : State} (h : exec i s = .next t) :
    t.prm = s.prm ∧ t.cmd = s.cmd ∧ t.status.ovr = s.status.ovr ∧ t.status.busy = false ∧ t.status.done = true ∧
      t.events = s.events ∧ t.answers = s.answers := by
  obtain ⟨drawn, -, ⟨e, rfl⟩ | ⟨d, fl, -, rfl⟩⟩ := exec_cases h <;> simp

theorem fieldCommand_frame {m : Modulus} {rd ra rb : RegNum} {i : Instr} {s t : State} (hi : i ∈ fieldCommands m rd ra rb)
    (h : exec i s = .next t) : (∀ r : RegNum, r ≠ rd → t.regs[r] = s.regs[r]) ∧ t.points = s.points ∧ t.encbuf = s.encbuf ∧
      t.enclen = s.enclen ∧ t.draws = s.draws := by
  obtain ⟨hu, hm⟩ := fieldCommands_mayLeave hi
  obtain ⟨d, st, rfl | ⟨fl, hd⟩, rfl⟩ := exec_write_of_no_inverse hu h
  · exact ⟨fun _ _ => rfl, rfl, rfl, rfl, rfl⟩
  · obtain ⟨v, rfl⟩ := hm d fl hd
    exact ⟨fun r hr => (s.setReg_get rd r v).trans (if_neg hr.symm), rfl, rfl, rfl, rfl⟩

theorem pointCommand_frame {d : Fin 4} {pa pb rb : RegNum} {i : Instr} {s t : State} (hi : i ∈ pointCommands d pa pb rb)
    (h : exec i s = .next t) : (∀ j : Fin 4, j ≠ d → t.points[j] = s.points[j]) ∧ t.regs = s.regs ∧ t.encbuf = s.encbuf ∧
      t.enclen = s.enclen := by
  obtain ⟨drawn, dest, st, -, rfl | ⟨fl, hd⟩, rfl⟩ := exec_write h
  · simp [State.write]
  · obtain ⟨q, rfl, -⟩ := pointCommands_mayLeave hi hd
    refine ⟨fun j hj => ?_, by simp [State.write], by simp [State.write], by simp [State.write]⟩
    calc ((s.drawIf drawn).setPoint d q).points[j] = (s.drawIf drawn).points[j] :=
          (State.setPoint_get _ d j q).trans (if_neg hj.symm)
      _ = s.points[j] := by rw [State.drawIf_points]

theorem encoder_frame {pa : RegNum} {i : Instr} {s t : State} (hi : i ∈ [Instr.pencu pa, .pencc pa]) (h : exec i s = .next t) :
    t.regs = s.regs ∧ t.points = s.points ∧ t.draws = s.draws := by
  obtain ⟨hu, hm⟩ : usesInverse i = false ∧ ∀ d fl, MayLeave i d fl → ∃ buf len, d = .encoding buf len := by
    simp only [List.mem_cons, List.not_mem_nil, or_false] at hi
    rcases hi with rfl | rfl <;> exact ⟨rfl, fun d fl ⟨buf, len, hd, _⟩ => ⟨buf, len, hd⟩⟩
  obtain ⟨d, st, rfl | ⟨fl, hd⟩, rfl⟩ := exec_write_of_no_inverse hu h
  · exact ⟨rfl, rfl, rfl⟩
  · obtain ⟨buf, len, rfl⟩ := hm d fl hd
    exact ⟨rfl, rfl, rfl⟩

theorem pointTest_frame {pa pb : RegNum} {i : Instr} {s t : State} (hi : i ∈ [Instr.peq pa pb, .pchk pa]) (h : exec i s = .next t) :
    t.regs = s.regs ∧ t.points = s.points ∧ t.encbuf = s.encbuf ∧ t.enclen = s.enclen ∧ t.draws = s.draws := by
  obtain ⟨hu, hm⟩ : usesInverse i = false ∧ ∀ d fl, MayLeave i d fl → d = .none := by
    simp only [List.mem_cons, List.not_mem_nil, or_false] at hi
    rcases hi with rfl | rfl <;> exact ⟨rfl, fun d fl hd => hd.1⟩
  obtain ⟨d, st, hd, rfl⟩ := exec_write_of_no_inverse hu h
  obtain rfl : d = .none := hd.elim id fun ⟨fl, hd⟩ => hm d fl hd
  exact ⟨rfl, rfl, rfl, rfl, rfl⟩

/-- Settles O41, family by family. -/
theorem commandFrame : Obligations.CommandFrame :=
  ⟨fun _ _ _ => exec_frame, fun _ _ _ _ _ _ _ hi => fieldCommand_frame hi, fun _ _ _ _ _ _ _ hi => pointCommand_frame hi,
    fun _ _ _ _ _ hi => encoder_frame hi, fun _ _ _ _ _ hi => pointTest_frame hi⟩

/-! ### The flags, and what a command depends on -/

theorem exec_error_flags {i : Instr} {s t : State} (h : exec i s = .next t) (he : t.status.err ≠ none) :
    t.status.flags = Flags.none := by
  obtain ⟨err, fl, hf, hst, -⟩ := exec_status h
  rw [hst] at he ⊢
  exact hf.resolve_left he

/-- A flag that is 1 was left by the command's rule. -/
theorem exec_flags_mayLeave {i : Instr} {s t : State} (h : exec i s = .next t) (hf : t.status.flags ≠ Flags.none) :
    ∃ d, MayLeave i d t.status.flags := by
  obtain ⟨drawn, -, ⟨e, rfl⟩ | ⟨d, fl, hm, rfl⟩⟩ := exec_cases h
  · exact absurd rfl hf
  · exact ⟨d, hm⟩

/-- The commands that write a point which may be infinite (R162, R164, R168, R174). -/
def MayWriteInfinity (i : Instr) : Prop :=
  (∃ pd pa pb, i = .padd pd pa pb) ∨ (∃ pd pa, i = .pdbl pd pa) ∨ (∃ pd pa, i = .pneg pd pa) ∨ ∃ pd rb pa, i = .pmul pd rb pa

/-- R25: the flags are 0 but after PEQ, after PCHK and after a command that may write infinity. -/
theorem MayLeave.flags_cases {i : Instr} {d : Dest} {fl : Flags} (h : MayLeave i d fl) :
    fl = Flags.none ∨ (∃ b, fl = eqFlags b ∧ ∃ pa pb, i = .peq pa pb) ∨ (∃ b c, fl = checkFlags b c ∧ ∃ pa, i = .pchk pa) ∨
      ∃ q, fl = pointFlags q ∧ MayWriteInfinity i := by
  cases i with
  | modadd | modsub | modmul | montmul | modinv | modexp | modsqrt | modred =>
    obtain ⟨v, -, rfl⟩ := h
    exact .inl rfl
  | pencu | pencc =>
    obtain ⟨buf, len, -, rfl⟩ := h
    exact .inl rfl
  | pdec pd =>
    obtain ⟨j, q, -, hq, -, rfl⟩ := h
    exact .inl (by rw [pointFlags, hq]; rfl)
  | peq pa pb =>
    obtain ⟨-, b, rfl⟩ := h
    exact .inr (.inl ⟨b, rfl, pa, pb, rfl⟩)
  | pchk pa =>
    obtain ⟨-, b, c, rfl⟩ := h
    exact .inr (.inr (.inl ⟨b, c, rfl, pa, rfl⟩))
  | padd | pdbl | pneg | pmul =>
    obtain ⟨j, q, -, -, rfl⟩ := h
    exact .inr (.inr (.inr ⟨q, rfl, by simp [MayWriteInfinity]⟩))

/-- The flags a command leaves, on an error too (R25, R246). -/
theorem exec_flags_cases {i : Instr} {s t : State} (h : exec i s = .next t) :
    t.status.flags = Flags.none ∨ (∃ b, t.status.flags = eqFlags b ∧ ∃ pa pb, i = .peq pa pb) ∨
      (∃ b c, t.status.flags = checkFlags b c ∧ ∃ pa, i = .pchk pa) ∨ ∃ q, t.status.flags = pointFlags q ∧ MayWriteInfinity i := by
  obtain ⟨drawn, -, ⟨e, rfl⟩ | ⟨d, fl, hm, rfl⟩⟩ := exec_cases h
  · exact .inl rfl
  · exact hm.flags_cases

theorem exec_eq_flag {i : Instr} {s t : State} (h : exec i s = .next t) (hf : t.status.flags.eq = true) :
    ∃ pa pb, i = .peq pa pb := by
  rcases exec_flags_cases h with hn | ⟨b, hn, hi⟩ | ⟨b, c, hn, -⟩ | ⟨q, hn, -⟩ <;> rw [hn] at hf
  · cases hf
  · exact hi
  · cases hf
  · cases hf

theorem exec_onCurve_flag {i : Instr} {s t : State} (h : exec i s = .next t) (hf : t.status.flags.onCurve = true) :
    ∃ pa, i = .pchk pa := by
  rcases exec_flags_cases h with hn | ⟨b, hn, -⟩ | ⟨b, c, hn, hi⟩ | ⟨q, hn, -⟩ <;> rw [hn] at hf
  · cases hf
  · cases hf
  · exact hi
  · cases hf

theorem exec_inf_flag {i : Instr} {s t : State} (h : exec i s = .next t) (hf : t.status.flags.inf = true) :
    MayWriteInfinity i ∨ ∃ pa, i = .pchk pa := by
  rcases exec_flags_cases h with hn | ⟨b, hn, -⟩ | ⟨b, c, hn, hi⟩ | ⟨q, hn, hi⟩ <;> rw [hn] at hf
  · cases hf
  · cases hf
  · exact .inr hi
  · exact .inl hi

/-- R25: INF is the INF bit of the point written. -/
theorem pointCommand_inf_flag {d : Fin 4} {pa pb rb : RegNum} {i : Instr} {s t : State} (hi : i ∈ pointCommands d pa pb rb)
    (h : exec i s = .next t) (he : t.status.err = none) : t.status.flags.inf = t.points[d].inf := by
  obtain ⟨drawn, -, ⟨e, rfl⟩ | ⟨dest, fl, hm, rfl⟩⟩ := exec_cases h
  · cases he
  · obtain ⟨q, rfl, rfl⟩ := pointCommands_mayLeave hi hm
    have hq : ((s.drawIf drawn).setPoint d q).points[d] = q := (State.setPoint_get _ d d q).trans (if_pos rfl)
    exact (congrArg Point.inf hq).symm

/-- Two states agree in all that a command may read (R48). -/
structure SameInput (s u : State) : Prop where
  regs   : s.regs = u.regs
  points : s.points = u.points
  prm    : s.prm = u.prm
  encbuf : s.encbuf = u.encbuf
  enclen : s.enclen = u.enclen

/-- A completion that divides is a plain one, of the state itself or of the state with a free outcome counted. -/
theorem finishPoint_eq_finish (r : Except CmdError PointResult) :
    ∃ drawn r', ∀ s, finishPoint s r = finish (s.drawIf drawn) r' := by
  rcases r with e | ⟨j, _ | q, input⟩
  · exact ⟨false, .error e, fun _ => rfl⟩
  · cases he : Config.missingInverseError input with
    | some e => exact ⟨true, .error e, fun s => by rw [finishPoint, missingInverse, he]; rfl⟩
    | none => exact ⟨true, .ok _, fun s => by rw [finishPoint, missingInverse, he]; rfl⟩
  · exact ⟨false, .ok _, fun _ => rfl⟩

/-- R48: what a command comes to depends on what it may read alone, so two states that agree in it complete alike. -/
theorem exec_eq_finish (i : Instr) {s u : State} (h : SameInput s u) :
    ∃ drawn r, exec i s = finish (s.drawIf drawn) r ∧ exec i u = finish (u.drawIf drawn) r := by
  obtain ⟨regs, points, prm, encbuf, enclen, _, _, _, _, _⟩ := s
  obtain ⟨rfl, rfl, rfl, rfl, rfl⟩ := h
  cases i with
  | padd | pdbl | pmul =>
    obtain ⟨drawn, r, hr⟩ := finishPoint_eq_finish _
    exact ⟨drawn, r, hr _, hr _⟩
  | _ => exact ⟨false, _, rfl, rfl⟩

/-- No completion reads STATUS but the OVR it keeps. -/
theorem finish_setStatus {s : State} {st : Status} (h : st.ovr = s.status.ovr) (drawn : Bool) (r : Except CmdError Success) :
    finish ((s.setStatus st).drawIf drawn) r = finish (s.drawIf drawn) r := by
  have hc (err : Option CmdError) (fl : Flags) : st.completed err fl = s.status.completed err fl :=
    congrArg (Status.mk false true err fl) h
  cases r with
  | error e =>
    simp only [finish, raise, State.drawIf_status, State.setStatus_status, hc]
    cases drawn <;> rfl
  | ok q =>
    simp only [finish, succeed, State.drawIf_status, State.setStatus_status, hc]
    obtain ⟨d, fl⟩ := q
    cases drawn <;> cases d <;> rfl

/-- A destination is written alike in two states that agree in what a command may read. -/
theorem SameInput.write {s u : State} (h : SameInput s u) (d : Dest) : SameInput (s.write d) (u.write d) := by
  obtain ⟨hregs, hpoints, hprm, hbuf, hlen⟩ := h
  cases d with
  | none => exact ⟨hregs, hpoints, hprm, hbuf, hlen⟩
  | reg i v => exact ⟨congrArg (·.set i.val v i.isLt) hregs, hpoints, hprm, hbuf, hlen⟩
  | point j q => exact ⟨hregs, congrArg (·.set j.val q j.isLt) hpoints, hprm, hbuf, hlen⟩
  | encoding buf len => exact ⟨hregs, hpoints, hprm, rfl, rfl⟩

theorem SameInput.drawIf {s u : State} (h : SameInput s u) (drawn : Bool) : SameInput (s.drawIf drawn) (u.drawIf drawn) := by
  cases drawn
  · exact h
  · exact ⟨h.regs, h.points, h.prm, h.encbuf, h.enclen⟩

/-- Two states that agree in what a command may read agree in it after the same completion, and in the error and the flags. -/
theorem finish_sameInput {s u t : State} (h : SameInput s u) {r : Except CmdError Success} (ht : finish s r = .next t) :
    ∃ v, finish u r = .next v ∧ SameInput t v ∧ t.status.err = v.status.err ∧ t.status.flags = v.status.flags := by
  cases r with
  | error e =>
    cases ht
    exact ⟨_, rfl, ⟨h.regs, h.points, h.prm, h.encbuf, h.enclen⟩, rfl, rfl⟩
  | ok q =>
    cases ht
    have hw := h.write q.dest
    exact ⟨_, rfl, ⟨hw.regs, hw.points, hw.prm, hw.encbuf, hw.enclen⟩, rfl, rfl⟩

theorem exec_setStatus (i : Instr) {s : State} {st : Status} (h : st.ovr = s.status.ovr) : exec i (s.setStatus st) = exec i s := by
  obtain ⟨drawn, r, hu, hs⟩ := exec_eq_finish i (s := s.setStatus st) (u := s) ⟨rfl, rfl, rfl, rfl, rfl⟩
  rw [hu, hs, finish_setStatus h]

theorem exec_sameInput (i : Instr) {s u t : State} (h : SameInput s u) (ht : exec i s = .next t) :
    ∃ v, exec i u = .next v ∧ SameInput t v ∧ t.status.err = v.status.err ∧ t.status.flags = v.status.flags := by
  obtain ⟨drawn, r, hs, hu⟩ := exec_eq_finish i h
  rw [hs] at ht
  rw [hu]
  exact finish_sameInput (h.drawIf drawn) ht

/-- Settles O42: the flags by the commands' rules, the dependence by the completion two like states share. -/
theorem flagsFollowTheCommand : Obligations.FlagsFollowTheCommand := by
  refine ⟨fun _ _ _ => exec_error_flags, fun _ _ _ => exec_eq_flag, fun _ _ _ => exec_onCurve_flag, fun i s t h hf => ?_,
    fun _ _ _ _ _ _ _ hi => pointCommand_inf_flag hi, rfl, fun i _ _ => exec_setStatus i,
    fun i s u t hregs hpoints hprm hbuf hlen h => ?_⟩
  · simpa only [MayWriteInfinity, or_assoc] using exec_inf_flag h hf
  · obtain ⟨v, hv, same, herr, hflags⟩ := exec_sameInput i ⟨hregs, hpoints, hprm, hbuf, hlen⟩ h
    exact ⟨v, hv, same.regs, same.points, same.prm, same.encbuf, same.enclen, herr, hflags⟩

end Sys2Proof.Machine

/-! ## The register window: the address map, the images, reads and writes, and a command among host accesses

`slotAt_iff` says which word an offset reaches. `hostRead_slot` and `hostWrite_slot` say what an access of a word comes to, so that
the statements about the window speak of `readSlot` and `writeSlot` alone. -/

namespace Sys2Proof.Machine

/-! ### The address map (R61) -/

theorem paramOffset_paramAt (i : Fin 6) : paramOffset (paramAt i) = 0x100 + 0x20 * i.val := by revert i; decide

theorem paramAt_surjective (name : ParamName) : ∃ i, paramAt i = name := by cases name <;> decide

/-- The word `k` of a block of eight has limb index `k` (R64). -/
theorem limbIndex_add {base : Nat} (k : Fin 8) (hb : base % 32 = 0) : limbIndex (base + 4 * k.val) = k := by
  simp only [limbIndex, Fin.ext_iff]
  omega

theorem slotAt_control {off : Nat} (h4 : off % 4 = 0) (h : off < 0x200) : slotAt off = controlSlot off := by
  rw [slotAt, if_neg (not_not.2 h4), if_pos h]

theorem slotAt_point {off : Nat} (h4 : off % 4 = 0) (h1 : 0x400 ≤ off) (h : off < 0x600) : slotAt off = pointSlot off h := by
  rw [slotAt, if_neg (not_not.2 h4), if_neg (by omega), dif_neg (by omega), dif_pos h]

/-- The offset of each word reaches that word. -/
theorem slotAt_slotOffset (sl : Slot) : slotAt (slotOffset sl) = some sl := by
  cases sl with
  | cmd | status | enclen | prmH => rfl
  | encbuf w =>
    simp only [slotOffset]
    rw [slotAt_control (by omega) (by omega), controlSlot, if_neg (by omega), if_neg (by omega), if_neg (by omega),
      dif_pos (by omega)]
    simp only [Option.some.injEq, Slot.encbuf.injEq, Fin.ext_iff]
    omega
  | prm name k =>
    obtain ⟨i, rfl⟩ := paramAt_surjective name
    simp only [slotOffset, paramOffset_paramAt]
    rw [slotAt_control (by omega) (by omega), controlSlot, if_neg (by omega), if_neg (by omega), if_neg (by omega),
      dif_neg (by omega), dif_pos (by omega), limbIndex_add k (by omega)]
    congr
    omega
  | reg i k =>
    simp only [slotOffset]
    rw [slotAt, if_neg (by omega), if_neg (by omega), dif_pos (by omega), limbIndex_add k (by omega)]
    simp only [Option.some.injEq, Slot.reg.injEq, Fin.ext_iff, and_true]
    omega
  | pointX j k =>
    simp only [slotOffset]
    rw [slotAt_point (by omega) (by omega) (by omega), pointSlot, if_pos (by omega), limbIndex_add k (by omega)]
    simp only [Option.some.injEq, Slot.pointX.injEq, Fin.ext_iff, and_true]
    omega
  | pointY j k =>
    simp only [slotOffset]
    rw [slotAt_point (by omega) (by omega) (by omega), pointSlot, if_neg (by omega), if_pos (by omega),
      limbIndex_add k (by omega)]
    simp only [Option.some.injEq, Slot.pointY.injEq, Fin.ext_iff, and_true]
    omega
  | pointInf j =>
    simp only [slotOffset]
    rw [slotAt_point (by omega) (by omega) (by omega), pointSlot, if_neg (by omega), if_neg (by omega), if_pos (by omega)]
    simp only [Option.some.injEq, Slot.pointInf.injEq, Fin.ext_iff]
    omega

theorem slotOffset_of_controlSlot {off : Nat} {sl : Slot} (h4 : off % 4 = 0) (h : controlSlot off = some sl) :
    slotOffset sl = off := by
  unfold controlSlot at h
  split_ifs at h with h1 h2 h3 henc hprm h6 <;> cases h
  · exact h1.symm
  · exact h2.symm
  · exact h3.symm
  · simp only [slotOffset]
    omega
  · simp only [slotOffset, paramOffset_paramAt, limbIndex]
    omega
  · exact h6.symm

theorem slotOffset_of_pointSlot {off : Nat} {sl : Slot} (h4 : off % 4 = 0) (h1 : 0x400 ≤ off) (h2 : off < 0x600)
    (h : pointSlot off h2 = some sl) : slotOffset sl = off := by
  unfold pointSlot at h
  split_ifs at h <;> cases h <;> simp only [slotOffset, limbIndex] <;> omega

/-- A word is reached at no other offset than its own. -/
theorem slotOffset_of_slotAt {off : Nat} {sl : Slot} (h : slotAt off = some sl) : slotOffset sl = off := by
  unfold slotAt at h
  split_ifs at h with h4 hc hr hp
  · exact slotOffset_of_controlSlot (not_not.1 h4) h
  · cases h
    simp only [slotOffset, limbIndex]
    omega
  · exact slotOffset_of_pointSlot (not_not.1 h4) (not_lt.1 hr) hp h

theorem slotAt_iff {off : Nat} {sl : Slot} : slotAt off = some sl ↔ slotOffset sl = off :=
  ⟨slotOffset_of_slotAt, fun h => h ▸ slotAt_slotOffset sl⟩

/-- Settles O51: each word is reached at its offset, and what is reached at an offset has that offset. -/
theorem addressMapIsExact : Obligations.AddressMapIsExact := fun _ _ => slotAt_iff

/-- An offset of no register reaches nothing (R63). -/
theorem slotAt_eq_none {off : Nat} (h : ∀ sl, slotOffset sl ≠ off) : slotAt off = none :=
  Option.eq_none_iff_forall_ne_some.2 fun sl hs => h sl (slotOffset_of_slotAt hs)

/-! ### An access of one word (R60, R62, R63, R276, R277) -/

/-- What stands behind no write gate is not written at all: STATUS and PRM.H (R63). -/
theorem writeSlot_of_not_gated (s : State) {sl : Slot} (v : Limb) (h : sl.writeGated = false) : writeSlot s sl v = s := by
  cases sl with
  | status | prmH => rfl
  | _ => cases h

/-- A read of a word that no gate holds back returns its image. -/
theorem hostRead_slot {s : State} {sl : Slot} (h : s.status.busy = false ∨ sl.readGated = false) :
    hostRead s (slotOffset sl) = .value (readSlot s sl) := by
  simp only [hostRead, slotAt_slotOffset]
  rcases h with h | h <;> simp [h]

/-- A write of a word that no gate holds back is made. -/
theorem hostWrite_slot {s : State} {sl : Slot} (v : Limb) (h : s.status.busy = false ∨ sl.writeGated = false) :
    hostWrite s (slotOffset sl) v = (writeSlot s sl v, .ok) := by
  simp only [hostWrite, slotAt_slotOffset]
  rcases h with h | h <;> simp [h]

/-- An access that is not of one word answers BusError (R62). -/
theorem hostAccess_of_size {s : State} {size : AccessSize} (h : size ≠ .word) (off : Nat) (v : Limb) :
    hostAccess s (.read size off) = (s, .busError) ∧ hostAccess s (.write size off v) = (s, .busError) := by
  cases size with
  | word => exact absurd rfl h
  | _ => exact ⟨rfl, rfl⟩

/-- So does one at an offset that reaches nothing (R62, R63). -/
theorem hostAccess_of_slotAt {s : State} {off : Nat} (h : slotAt off = none) (size : AccessSize) (v : Limb) :
    hostAccess s (.read size off) = (s, .busError) ∧ hostAccess s (.write size off v) = (s, .busError) := by
  by_cases hs : size = .word
  · subst hs
    simp [hostAccess, hostRead, hostWrite, h]
  · exact hostAccess_of_size hs off v

/-- No read changes anything (R69). -/
theorem hostAccess_read (s : State) (size : AccessSize) (off : Nat) : (hostAccess s (.read size off)).1 = s := by
  cases size <;> rfl

/-- Settles O54: the offsets that reach nothing by the address map, STATUS and PRM.H by what their writes do. -/
theorem busErrorsChangeNothing : Obligations.BusErrorsChangeNothing := by
  refine ⟨fun s size off v h => ?_, fun s v => ⟨?_, ?_⟩, hostAccess_read⟩
  · rcases h with hsize | hoff | hnone
    · exact hostAccess_of_size hsize off v
    · exact hostAccess_of_slotAt (if_pos hoff) size v
    · exact hostAccess_of_slotAt (slotAt_eq_none hnone) size v
  · exact hostWrite_slot (sl := .status) v (.inr rfl)
  · exact hostWrite_slot (sl := .prmH) v (.inr rfl)

/-! ### The images of the registers (R28, R30, R64 to R66) -/

/-- A field of `w` bits put above the `n` bits of a word is added at its place, and the word then has `n + w` bits. -/
theorem or_field_toNat {n w : Nat} {x : Limb} (y : BitVec w) (hx : x.toNat < 2 ^ n) (hw : n + w ≤ 32) :
    (x ||| y.setWidth 32 <<< n).toNat = x.toNat + 2 ^ n * y.toNat ∧ (x ||| y.setWidth 32 <<< n).toNat < 2 ^ (n + w) := by
  have hlt : x.toNat + 2 ^ n * y.toNat < 2 ^ (n + w) := by
    rw [pow_add]
    exact digit_lt hx y.isLt
  have hy : (y.setWidth 32).toNat = y.toNat := by
    rw [BitVec.toNat_setWidth, Nat.mod_eq_of_lt (y.isLt.trans_le (Nat.pow_le_pow_right (by omega) (by omega)))]
  have hplace : (y.setWidth 32 <<< n).toNat = y.toNat <<< n := by
    rw [BitVec.toNat_shiftLeft, hy, Nat.mod_eq_of_lt]
    calc y.toNat <<< n = 2 ^ n * y.toNat := by rw [Nat.shiftLeft_eq, Nat.mul_comm]
      _ < 2 ^ (n + w) := by omega
      _ ≤ 2 ^ 32 := Nat.pow_le_pow_right (by omega) hw
  have heq : (x ||| y.setWidth 32 <<< n).toNat = x.toNat + 2 ^ n * y.toNat := by
    rw [BitVec.toNat_or, hplace, Nat.or_comm, ← Nat.shiftLeft_add_eq_or_of_lt hx, Nat.shiftLeft_eq, Nat.mul_comm, Nat.add_comm]
  exact ⟨heq, heq ▸ hlt⟩

/-- STATUS is the sum of its fields, each at its bit (R28). -/
theorem Status.word_toNat (st : Status) : st.word.toNat = st.busy.toNat + 2 * st.done.toNat + 2 ^ 4 * (errCode st.err).toNat +
    2 ^ 8 * st.flags.eq.toNat + 2 ^ 9 * st.flags.inf.toNat + 2 ^ 10 * st.flags.onCurve.toNat + 2 ^ 11 * st.ovr.toNat := by
  have e0 : ((BitVec.ofBool st.busy).setWidth 32).toNat = st.busy.toNat := by cases st.busy <;> rfl
  obtain ⟨e1, b1⟩ := or_field_toNat (n := 1) (BitVec.ofBool st.done) (e0.trans_lt st.busy.toNat_lt) (by omega)
  obtain ⟨e2, b2⟩ := or_field_toNat (n := 4) (errCode st.err) (b1.trans (by decide)) (by omega)
  obtain ⟨e3, b3⟩ := or_field_toNat (BitVec.ofBool st.flags.eq) b2 (by omega)
  obtain ⟨e4, b4⟩ := or_field_toNat (BitVec.ofBool st.flags.inf) b3 (by omega)
  obtain ⟨e5, b5⟩ := or_field_toNat (BitVec.ofBool st.flags.onCurve) b4 (by omega)
  obtain ⟨e6, -⟩ := or_field_toNat (BitVec.ofBool st.ovr) b5 (by omega)
  rw [BitVec.toNat_ofBool] at e1 e3 e4 e5 e6
  exact e6.trans (by rw [e5, e4, e3, e2, e1, e0]; norm_num)

/-- A word of ENCBUF's image is the sum of its four bytes, the byte of lowest index lowest (R66). -/
theorem encWord_toNat (buf : Vector Byte 65) (w : Fin 17) : (encWord buf w).toNat = (encByte buf (4 * w.val)).toNat +
    2 ^ 8 * (encByte buf (4 * w.val + 1)).toNat + 2 ^ 16 * (encByte buf (4 * w.val + 2)).toNat +
    2 ^ 24 * (encByte buf (4 * w.val + 3)).toNat := by
  have e0 : ((encByte buf (4 * w.val)).setWidth 32).toNat = (encByte buf (4 * w.val)).toNat := by
    rw [BitVec.toNat_setWidth, Nat.mod_eq_of_lt ((BitVec.isLt _).trans (by decide))]
  obtain ⟨e1, b1⟩ := or_field_toNat (n := 8) (encByte buf (4 * w.val + 1)) (e0.trans_lt (BitVec.isLt _)) (by omega)
  obtain ⟨e2, b2⟩ := or_field_toNat (encByte buf (4 * w.val + 2)) b1 (by omega)
  obtain ⟨e3, -⟩ := or_field_toNat (encByte buf (4 * w.val + 3)) b2 (by omega)
  exact e3.trans (by rw [e2, e1, e0])

theorem encByte_of_lt (buf : Vector Byte 65) {k : Nat} (h : k < 65) : encByte buf k = buf[k] := dif_pos h

theorem encByte_of_ge (buf : Vector Byte 65) {k : Nat} (h : 65 ≤ k) : encByte buf k = 0#8 := dif_neg (not_lt.2 h)

/-- The last word of the image shows ENCBUF[64] alone. -/
theorem encWord_last_toNat (buf : Vector Byte 65) : (encWord buf 16).toNat = buf[64].toNat := by
  rw [encWord_toNat, encByte_of_lt buf (by decide), encByte_of_ge buf (by decide), encByte_of_ge buf (by decide),
    encByte_of_ge buf (by decide)]
  simp

/-- A read of a word that no gate holds back, by the number its image is. -/
theorem hostRead_eq_ofNat {s : State} {sl : Slot} {n : Nat} (h : s.status.busy = false ∨ sl.readGated = false)
    (hn : (readSlot s sl).toNat = n) : hostRead s (slotOffset sl) = .value (BitVec.ofNat 32 n) := by
  rw [hostRead_slot h, ← hn, BitVec.ofNat_toNat, BitVec.setWidth_eq]

/-- A limb of a 256-bit register of an idle block (R64). -/
theorem hostRead_limb {s : State} {sl : Slot} {v : Word} {k : Nat} (h : s.status.busy = false) (hsl : readSlot s sl = limbOf v k) :
    hostRead s (slotOffset sl) = .value (BitVec.ofNat 32 (v.toNat / 2 ^ (32 * k))) := by
  rw [hostRead_slot (.inl h), hsl, limbOf_eq]

/-- Settles O52: each word reads as its image, which is a limb, a bit or a sum of fields. -/
theorem windowImages : Obligations.WindowImages := by
  refine ⟨fun s => ?_, fun s hb => ⟨fun i k => ?_, fun j k => ?_, fun j k => ?_, fun j => ?_, fun k => ?_, fun w => ?_, ?_, ?_⟩⟩
  · refine ⟨hostRead_slot (sl := .cmd) (.inr rfl), hostRead_slot (sl := .prmH) (.inr rfl),
      hostRead_eq_ofNat (sl := .status) (.inr rfl) ((Status.word_toNat s.status).trans ?_)⟩
    rcases s.status.err with _ | e
    · rfl
    · cases e <;> rfl
  · exact hostRead_limb (sl := .reg i k) hb rfl
  · exact hostRead_limb (sl := .pointX j k) hb rfl
  · exact hostRead_limb (sl := .pointY j k) hb rfl
  · refine (hostRead_slot (sl := .pointInf j) (.inl hb)).trans (congrArg Answer.value ?_)
    change (BitVec.ofBool s.points[j].inf).setWidth 32 = _
    cases s.points[j].inf <;> rfl
  · exact ⟨hostRead_limb (sl := .prm .p k) hb rfl, hostRead_limb (sl := .prm .a k) hb rfl, hostRead_limb (sl := .prm .b k) hb rfl,
      hostRead_limb (sl := .prm .gx k) hb rfl, hostRead_limb (sl := .prm .gy k) hb rfl, hostRead_limb (sl := .prm .n k) hb rfl⟩
  · refine hostRead_eq_ofNat (sl := .encbuf w.castSucc) (.inl hb) ((encWord_toNat s.encbuf w.castSucc).trans ?_)
    simp only [Fin.val_castSucc]
    rw [encByte_of_lt _ (by omega), encByte_of_lt _ (by omega), encByte_of_lt _ (by omega), encByte_of_lt _ (by omega)]
  · exact hostRead_eq_ofNat (sl := .encbuf 16) (.inl hb) (encWord_last_toNat s.encbuf)
  · refine hostRead_eq_ofNat (sl := .enclen) (.inl hb) ?_
    change (s.enclen.setWidth 32).toNat = _
    rw [BitVec.toNat_setWidth, Nat.mod_eq_of_lt (s.enclen.isLt.trans (by decide))]

/-! ### What a write leaves in the window (R63 to R66) -/

/-- The mask of the low `n` bits. -/
theorem and_lowMask_toNat (v : Limb) {n : Nat} (hn : n ≤ 32) : (v &&& BitVec.ofNat 32 (2 ^ n - 1)).toNat = v.toNat % 2 ^ n := by
  have hle : 2 ^ n ≤ 2 ^ 32 := Nat.pow_le_pow_right (by omega) hn
  rw [BitVec.toNat_and, BitVec.toNat_ofNat, Nat.mod_eq_of_lt (by omega), Nat.and_two_pow_sub_one_eq_mod]

/-- A byte of the buffer's image after one word of it is written (R66). -/
theorem encByte_withEncWord (buf : Vector Byte 65) (w : Fin 17) (v : Limb) (k : Nat) : encByte (withEncWord buf w v) k =
    if k < 65 ∧ k / 4 = w.val then v.extractLsb' (8 * (k % 4)) 8 else encByte buf k := by
  by_cases hk : k < 65
  · simpa [encByte, hk] using withEncWord_get buf w v ⟨k, hk⟩
  · simp [encByte, hk]

/-- The other words of ENCBUF stay. -/
theorem encWord_withEncWord_ne (buf : Vector Byte 65) {w w' : Fin 17} (h : w' ≠ w) (v : Limb) :
    encWord (withEncWord buf w v) w' = encWord buf w' := by
  have hw : w'.val ≠ w.val := Fin.val_ne_of_ne h
  have hbyte (i : Nat) (hi : i < 4) : encByte (withEncWord buf w v) (4 * w'.val + i) = encByte buf (4 * w'.val + i) := by
    rw [encByte_withEncWord, if_neg (by omega)]
  have hbyte0 : encByte (withEncWord buf w v) (4 * w'.val) = encByte buf (4 * w'.val) := hbyte 0 (by decide)
  rw [encWord, encWord, hbyte0, hbyte 1 (by decide), hbyte 2 (by decide), hbyte 3 (by decide)]

/-- Byte `i` of the word written is digit `i` of the value. -/
theorem encByte_withEncWord_toNat (buf : Vector Byte 65) (w : Fin 17) (v : Limb) {i : Nat} (hi : i < 4) (h : 4 * w.val + i < 65) :
    (encByte (withEncWord buf w v) (4 * w.val + i)).toNat = v.toNat / 2 ^ (8 * i) % 2 ^ 8 := by
  rw [encByte_withEncWord, if_pos (by omega), show (4 * w.val + i) % 4 = i by omega]
  simp [BitVec.extractLsb'_toNat, Nat.shiftRight_eq_div_pow]

/-- A word of ENCBUF reads back in the bytes that exist (R66). -/
theorem encWord_withEncWord (buf : Vector Byte 65) (w : Fin 17) (v : Limb) :
    encWord (withEncWord buf w v) w = v &&& implementedBits (.encbuf w) := by
  apply BitVec.eq_of_toNat_eq
  have h0 := encByte_withEncWord_toNat buf w v (i := 0) (by decide) (by omega)
  by_cases hw : w = 16
  · subst hw
    rw [encWord_last_toNat, ← encByte_of_lt _ (by decide)]
    exact h0.trans ((and_lowMask_toNat v (n := 8) (by decide)).trans (by norm_num)).symm
  · have hlt : w.val < 16 := by omega
    have h1 := encByte_withEncWord_toNat buf w v (i := 1) (by decide) (by omega)
    have h2 := encByte_withEncWord_toNat buf w v (i := 2) (by decide) (by omega)
    have h3 := encByte_withEncWord_toNat buf w v (i := 3) (by decide) (by omega)
    have hv := v.isLt
    rw [Nat.add_zero] at h0
    rw [encWord_toNat, h0, h1, h2, h3, implementedBits, if_neg hw]
    refine Eq.trans ?_ (and_lowMask_toNat v (n := 32) (by decide)).symm
    omega

theorem paramValue_withParam (q : Params) (name name' : ParamName) (v : Word) :
    paramValue (withParam q name v) name' = if name = name' then v else paramValue q name' := by
  cases name <;> cases name' <;> rfl

/-- A part of the point registers after one of them is written. -/
theorem State.setPoint_part {α : Type} (part : Point → α) (s : State) (i j : Fin 4) (q : Point) :
    part (s.setPoint i q).points[j] = if i = j then part q else part s.points[j] := by
  rw [State.setPoint_get, apply_ite part]

/-- A part of the point registers that the write keeps. -/
theorem State.setPoint_part_same {α : Type} (part : Point → α) (s : State) {i : Fin 4} (j : Fin 4) {q : Point}
    (h : part q = part s.points[i]) : part (s.setPoint i q).points[j] = part s.points[j] := by
  rw [State.setPoint_part part, h, ite_eq_right_iff]
  rintro rfl
  rfl

/-- One limb written in a bank of registers leaves every other limb of the bank (R64). -/
theorem limbOf_bank_ne {ι : Type} [DecidableEq ι] (bank : ι → Word) {i i' : ι} {k k' : Fin 8} (l : Limb) (h : i = i' → k' ≠ k) :
    limbOf (if i = i' then withLimb (bank i) k l else bank i') k' = limbOf (bank i') k' := by
  split
  · next hi =>
    subst hi
    rw [limbOf_withLimb _ k.isLt, if_neg (Fin.val_ne_of_ne (h rfl))]
  · rfl

/-- A word written reads back in its implemented bits (R63 to R66). -/
theorem readSlot_writeSlot_self (s : State) {sl : Slot} (v : Limb) (h : sl.readGated = true) :
    readSlot (writeSlot s sl v) sl = v &&& implementedBits sl := by
  have hall : v &&& 0xFFFFFFFF#32 = v := BitVec.and_allOnes
  cases sl with
  | cmd | status | prmH => cases h
  | enclen =>
    apply BitVec.eq_of_toNat_eq
    refine Eq.trans ?_ (and_lowMask_toNat v (n := 7) (by decide)).symm
    simp only [readSlot, writeSlot, BitVec.toNat_setWidth]
    omega
  | encbuf w => exact encWord_withEncWord s.encbuf w v
  | prm name k =>
    simp only [readSlot, writeSlot, paramValue_withParam, if_true, limbOf_withLimb _ k.isLt]
    exact hall.symm
  | reg i k =>
    simp only [readSlot, writeSlot, State.setReg_get, if_true, limbOf_withLimb _ k.isLt]
    exact hall.symm
  | pointX j k | pointY j k =>
    simp only [readSlot, writeSlot, State.setPoint_get, if_true, limbOf_withLimb _ k.isLt]
    exact hall.symm
  | pointInf j =>
    simp only [readSlot, writeSlot, State.setPoint_get, if_true]
    apply BitVec.eq_of_toNat_eq
    refine Eq.trans ?_ (and_lowMask_toNat v (n := 1) (by decide)).symm
    rw [BitVec.getLsbD, Nat.testBit_zero]
    rcases Nat.mod_two_eq_zero_or_one v.toNat with hv | hv <;> rw [pow_one, hv] <;> rfl

/-- No other word of the window changes (R63 to R66). -/
theorem readSlot_writeSlot_ne (s : State) {sl other : Slot} (v : Limb) (h : sl.readGated = true) (hne : other ≠ sl) :
    readSlot (writeSlot s sl v) other = readSlot s other := by
  cases sl with
  | cmd | status | prmH => cases h
  | enclen =>
    cases other with
    | enclen => exact absurd rfl hne
    | _ => simp [readSlot, writeSlot]
  | encbuf w =>
    cases other with
    | encbuf w' => exact encWord_withEncWord_ne s.encbuf (fun hw => hne (congrArg _ hw)) v
    | _ => simp [readSlot, writeSlot]
  | prm name k =>
    cases other with
    | prm name' k' =>
      simp only [readSlot, writeSlot, paramValue_withParam]
      exact limbOf_bank_ne (paramValue s.prm) v fun hi hk => hne (by rw [hi, hk])
    | _ => simp [readSlot, writeSlot]
  | reg i k =>
    cases other with
    | reg i' k' =>
      simp only [readSlot, writeSlot, State.setReg_get]
      exact limbOf_bank_ne (fun i : Fin 16 => s.regs[i]) v fun hi hk => hne (by rw [hi, hk])
    | _ => simp [readSlot, writeSlot]
  | pointX j k =>
    cases other with
    | pointX j' k' =>
      simp only [readSlot, writeSlot, State.setPoint_part Point.x]
      exact limbOf_bank_ne (fun j : Fin 4 => s.points[j].x) v fun hj hk => hne (by rw [hj, hk])
    | pointY j' k' => exact State.setPoint_part_same (fun q => limbOf q.y k') s j' rfl
    | pointInf j' => exact State.setPoint_part_same (fun q => (BitVec.ofBool q.inf).setWidth 32) s j' rfl
    | _ => simp [readSlot, writeSlot]
  | pointY j k =>
    cases other with
    | pointX j' k' => exact State.setPoint_part_same (fun q => limbOf q.x k') s j' rfl
    | pointY j' k' =>
      simp only [readSlot, writeSlot, State.setPoint_part Point.y]
      exact limbOf_bank_ne (fun j : Fin 4 => s.points[j].y) v fun hj hk => hne (by rw [hj, hk])
    | pointInf j' => exact State.setPoint_part_same (fun q => (BitVec.ofBool q.inf).setWidth 32) s j' rfl
    | _ => simp [readSlot, writeSlot]
  | pointInf j =>
    cases other with
    | pointX j' k' => exact State.setPoint_part_same (fun q => limbOf q.x k') s j' rfl
    | pointY j' k' => exact State.setPoint_part_same (fun q => limbOf q.y k') s j' rfl
    | pointInf j' =>
      simp only [readSlot, writeSlot, State.setPoint_part Point.inf]
      rw [if_neg fun hj => hne (by rw [hj])]
    | _ => simp [readSlot, writeSlot]

/-- The words that are neither CMD nor STATUS nor PRM.H are those that no read shows while BUSY (R277). -/
theorem readGated_of_ne {sl : Slot} (hcmd : sl ≠ .cmd) (hst : sl ≠ .status) (hprmH : sl ≠ .prmH) : sl.readGated = true := by
  cases sl with
  | cmd => exact absurd rfl hcmd
  | status => exact absurd rfl hst
  | prmH => exact absurd rfl hprmH
  | _ => rfl

/-- Settles O53: an idle block gates nothing before the write and after it. -/
theorem writeThenReadBack : Obligations.WriteThenReadBack := by
  intro s sl v hb hcmd hst hprmH
  have hg := readGated_of_ne hcmd hst hprmH
  have hidle : (writeSlot s sl v).status.busy = false := by rw [(writeSlot_status_cmd s v hcmd).1, hb]
  rw [hostWrite_slot v (.inl hb)]
  refine ⟨rfl, ?_, fun other hne => ?_⟩
  · rw [hostRead_slot (.inl hidle), readSlot_writeSlot_self s v hg]
  · rw [hostRead_slot (.inl hidle), hostRead_slot (.inl hb), readSlot_writeSlot_ne s v hg hne]

/-! ### A command among host accesses (R70, R276, R279) -/

/-- While BUSY no access changes more than OVR (R276, R277). -/
theorem hostWrite_busy {s : State} (hb : s.status.busy = true) (off : Nat) (v : Limb) :
    ∃ ovr, (hostWrite s off v).1 = s.setStatus { s.status with ovr := ovr } := by
  unfold hostWrite
  split
  · exact ⟨s.status.ovr, rfl⟩
  · split
    · exact ⟨true, rfl⟩
    · next sl _ hg => exact ⟨s.status.ovr, writeSlot_of_not_gated s v (by simpa [hb] using hg)⟩

theorem hostAccess_busy {s : State} (hb : s.status.busy = true) (a : HostAccess) :
    ∃ ovr, (hostAccess s a).1 = s.setStatus { s.status with ovr := ovr } := by
  cases a with
  | read size off => exact ⟨s.status.ovr, hostAccess_read s size off⟩
  | write size off v =>
    cases size with
    | word => exact hostWrite_busy hb off v
    | _ => exact ⟨s.status.ovr, rfl⟩

/-- Two states agree in every register, and in STATUS but for OVR. -/
structure SameButOvr (s u : State) : Prop extends SameInput s u where
  cmd   : s.cmd = u.cmd
  busy  : s.status.busy = u.status.busy
  done  : s.status.done = u.status.done
  err   : s.status.err = u.status.err
  flags : s.status.flags = u.status.flags

/-- The events are no part of the agreement. -/
theorem SameButOvr.withEvents {s u : State} (h : SameButOvr s u) (es : List Event) : SameButOvr { s with events := es } u :=
  ⟨⟨h.regs, h.points, h.prm, h.encbuf, h.enclen⟩, h.cmd, h.busy, h.done, h.err, h.flags⟩

theorem SameButOvr.arch_eq {s u : State} (h : SameButOvr s u) :
    s.arch = { u.arch with status := { u.status with ovr := s.status.ovr } } := by
  simp only [State.arch, Arch.mk.injEq]
  exact ⟨h.regs, h.points, h.prm, h.encbuf, h.enclen, h.cmd, by rw [← h.busy, ← h.done, ← h.err, ← h.flags]⟩

/-- An access that comes while BUSY keeps the agreement (R276, R277), and the events still to come. -/
theorem SameButOvr.afterAccess {s u : State} (h : SameButOvr s u) (hb : s.status.busy = true) (a : HostAccess) :
    SameButOvr (answerAccess s a) u ∧ (answerAccess s a).events = s.events := by
  obtain ⟨ovr, ho⟩ := hostAccess_busy hb a
  unfold answerAccess
  rw [ho]
  exact ⟨⟨⟨h.regs, h.points, h.prm, h.encbuf, h.enclen⟩, h.cmd, h.busy, h.done, h.err, h.flags⟩, rfl⟩

/-- A command reads STATUS nowhere and keeps OVR, so it leaves two such states in the same agreement (R48, R29). -/
theorem exec_sameButOvr (i : Instr) {s u t : State} (h : SameButOvr s u) (ht : exec i s = .next t) :
    ∃ v, exec i u = .next v ∧ SameButOvr t v := by
  obtain ⟨v, hv, same, herr, hflags⟩ := exec_sameInput i h.toSameInput ht
  obtain ⟨-, htcmd, -, htb, htd, -⟩ := exec_frame ht
  obtain ⟨-, hvcmd, -, hvb, hvd, -⟩ := exec_frame hv
  exact ⟨v, hv, same, by rw [htcmd, hvcmd, h.cmd], htb.trans hvb.symm, htd.trans hvd.symm, herr, hflags⟩

/-- The engine's turn leaves two busy states that differ in OVR alone in that agreement (R279). -/
theorem engineTurn_sameButOvr {s u : State} (h : SameButOvr s u) (hb : u.status.busy = true) :
    ∃ t v, engineTurn s = .next t ∧ engineTurn u = .next v ∧ SameButOvr t v := by
  rw [engineTurn, engineTurn, if_pos (h.busy.trans hb), if_pos hb, complete, complete, h.cmd]
  cases decode u.cmd with
  | ok i =>
    obtain ⟨t, ht⟩ := exec_next i s
    obtain ⟨v, hv, hsame⟩ := exec_sameButOvr i h ht
    exact ⟨t, v, ht, hv, hsame⟩
  | error _ => exact ⟨_, _, rfl, rfl, ⟨h.regs, h.points, h.prm, h.encbuf, h.enclen⟩, h.cmd, rfl, rfl, rfl, rfl⟩

/-- A run goes on from where its first step leads. -/
theorem run_succ {M : Host.Core} {s t : M.State} (k : Nat) (h : M.step s = .next t) : M.run (k + 1) s = M.run k t := by
  simp only [Host.Core.run, h]

theorem step_of_host {s : State} {a : HostAccess} {es : List Event} (h : s.events = .host a :: es) :
    step s = .next (answerAccess { s with events := es } a) := by
  rw [step, nextEvent, h]
  rfl

theorem step_of_engine {s : State} {es : List Event} (h : s.events = .engine :: es) :
    step s = engineTurn { s with events := es } := by
  rw [step, nextEvent, h]
  rfl

/-- However many accesses come before the engine's turn, the command ends as it would have from `u`, but for OVR. -/
theorem run_accesses_engine {u : State} (hb : u.status.busy = true) (accesses : List HostAccess) :
    ∀ s : State, SameButOvr s u → s.events = accesses.map .host ++ [.engine] →
      ∃ t v, Host.Core.run Sys2Proof.core (accesses.length + 1) s = .next t ∧ engineTurn u = .next v ∧ SameButOvr t v := by
  induction accesses with
  | nil =>
    intro s h he
    obtain ⟨t, v, ht, hv, hsame⟩ := engineTurn_sameButOvr (h.withEvents []) hb
    exact ⟨t, v, run_succ (M := core) 0 ((step_of_engine he).trans ht), hv, hsame⟩
  | cons a accesses ih =>
    intro s h he
    obtain ⟨hsame, hevents⟩ := (h.withEvents (accesses.map .host ++ [.engine])).afterAccess (h.busy.trans hb) a
    obtain ⟨t, v, ht, hv, htv⟩ := ih _ hsame hevents
    exact ⟨t, v, (run_succ (M := core) _ (step_of_host he)).trans ht, hv, htv⟩

/-- Settles O49: the step on the empty list is the engine's turn from a state like the one the accesses came to. -/
theorem commandIsAtomic : Obligations.CommandIsAtomic := by
  intro accesses s hb he
  have hu : SameButOvr s { s with events := [] } := ⟨⟨rfl, rfl, rfl, rfl, rfl⟩, rfl, rfl, rfl, rfl, rfl⟩
  obtain ⟨t, u, ht, hu, hsame⟩ := run_accesses_engine (u := { s with events := [] }) hb accesses s hu he
  exact ⟨t, u, ht, hu, hsame.arch_eq⟩

end Sys2Proof.Machine

/-! ## The command word: decoder, encoder and masks

`decode_eq_ok_iff` says once which words decode, and `Format.Admits` says field by field what a format asks of a word; the masks ask
the same field by field (`and_mask_eq_code_iff`). -/

namespace Sys2Proof

/-! ### What a format asks of a word (R91) -/

/-- The values a register field may have under its rule (R91). -/
def FieldRule.Admits : FieldRule → BitVec 4 → Prop
  | .reg, _ => True
  | .point, f => f.extractLsb' 2 2 = 0#2
  | .zero, f => f = 0#4

/-- The words a format has room for, but for the opcode (R91). -/
structure Format.Admits (fmt : Format) (c : CommandWord) : Prop where
  z1 : c.z1 = 0#7
  z2 : c.z2 = 0#4
  m  : fmt.mFree = false → c.m = 0#1
  rd : fmt.rd.Admits c.rd
  ra : fmt.ra.Admits c.ra
  rb : fmt.rb.Admits c.rb

theorem checkField_eq_ok {rule : FieldRule} {f : BitVec 4} : checkField rule f = .ok () ↔ rule.Admits f := by
  cases rule <;> simp [checkField, FieldRule.Admits]

/-- Two checks in a row succeed when both do. -/
theorem bind_unit_eq_ok {ε α : Type} {x : Except ε Unit} {y : Except ε α} {a : α} :
    (x >>= fun _ => y) = .ok a ↔ x = .ok () ∧ y = .ok a := by
  cases x with
  | error e => exact ⟨nofun, nofun⟩
  | ok u => exact ⟨fun h => ⟨rfl, h⟩, fun h => h.2⟩

theorem checkFields_eq_ok {fmt : Format} {c : CommandWord} : checkFields fmt c = .ok () ↔ fmt.Admits c := by
  unfold checkFields
  split_ifs with hz hm
  · exact ⟨nofun, fun h => (hz.elim (· h.z1) (· h.z2)).elim⟩
  · exact ⟨nofun, fun h => (hm.2 (h.m hm.1)).elim⟩
  · simp only [bind_unit_eq_ok, checkField_eq_ok]
    simp only [not_or, not_not, not_and] at hz hm
    exact ⟨fun ⟨hrd, hra, hrb⟩ => ⟨hz.1, hz.2, hm, hrd, hra, hrb⟩, fun h => ⟨h.rd, h.ra, h.rb⟩⟩

/-- A word decodes to what its fields build under the opcode they name, when the format of that opcode admits them (R91, R95). -/
theorem decode_eq_ok_iff {w : BitVec 32} {i : Instr} :
    decode w = .ok i ↔ ∃ o : Opcode, o.code = (fieldsOf w).opc ∧ o.format.Admits (fieldsOf w) ∧ build o (fieldsOf w) = i := by
  simp only [← checkFields_eq_ok]
  constructor
  · intro h
    unfold decode at h
    split at h
    · cases h
    · next o ho =>
      split at h
      · cases h
      · next hc => exact ⟨o, code_of_opcodeOf ho, hc, by cases h; rfl⟩
  · rintro ⟨o, ho, hc, rfl⟩
    simp only [decode, ← ho, opcodeOf_code, hc]

/-! ### A command and its fields -/

/-- The row of R95 a command belongs to. -/
def Instr.opcode : Instr → Opcode
  | .modadd _ _ _ _ => .modadd
  | .modsub _ _ _ _ => .modsub
  | .modmul _ _ _ _ => .modmul
  | .montmul _ _ _ _ => .montmul
  | .modinv _ _ _ => .modinv
  | .modexp _ _ _ _ => .modexp
  | .modsqrt _ _ => .modsqrt
  | .modred _ _ _ => .modred
  | .padd _ _ _ => .padd
  | .pdbl _ _ => .pdbl
  | .pneg _ _ => .pneg
  | .peq _ _ => .peq
  | .pchk _ => .pchk
  | .pmul _ _ _ => .pmul
  | .pencu _ => .pencu
  | .pencc _ => .pencc
  | .pdec _ => .pdec

theorem fieldsOfInstr_opc (i : Instr) : (fieldsOfInstr i).opc = i.opcode.code := by cases i <;> rfl

theorem opcode_build (o : Opcode) (c : CommandWord) : (build o c).opcode = o := by cases o <;> rfl

/-- The fields of a command build it again: each operand stands in the field it is read from (R91, R92). -/
theorem build_fieldsOfInstr (i : Instr) : build i.opcode (fieldsOfInstr i) = i := by
  cases i <;> simp only [Instr.opcode, build, fieldsOfInstr, regOf_fieldOfReg, modulusOf_bitOfModulus]

/-- What a command built from the fields keeps of a register field: all of it, or nothing where its format says 0. -/
def FieldRule.kept : FieldRule → BitVec 4 → BitVec 4
  | .reg, f => f
  | .point, f => f
  | .zero, _ => 0#4

theorem FieldRule.Admits.kept_eq {rule : FieldRule} {f : BitVec 4} (h : rule.Admits f) : rule.kept f = f := by
  cases rule with
  | reg => rfl
  | point => rfl
  | zero => exact h.symm

/-- The command built from some fields has its opcode, the fields its format does not call 0, and 0 elsewhere (R91). -/
theorem fieldsOfInstr_build (o : Opcode) (c : CommandWord) : fieldsOfInstr (build o c) =
    ⟨o.code, if o.format.mFree then c.m else 0#1, 0#7, o.format.rd.kept c.rd, o.format.ra.kept c.ra, o.format.rb.kept c.rb, 0#4⟩ := by
  cases o <;> simp only [build, fieldsOfInstr, bitOfModulus_modulusOf, fieldOfReg_regOf] <;> rfl

/-- Fields that their opcode's format admits are all the built command's own. -/
theorem fieldsOfInstr_build_of_admits {o : Opcode} {c : CommandWord} (ho : o.code = c.opc) (h : o.format.Admits c) :
    fieldsOfInstr (build o c) = c := by
  have hm : (if o.format.mFree then c.m else 0#1) = c.m := by
    split
    · rfl
    · next hfree => exact (h.m (by simpa using hfree)).symm
  rw [fieldsOfInstr_build, hm, h.rd.kept_eq, h.ra.kept_eq, h.rb.kept_eq, ho, ← h.z1, ← h.z2]

/-! ### The round trips (R90, R91, R100) -/

/-- The outcome of a check that only a point register above 3 can fail (R100). -/
def pointCheck (passes : Bool) : Except DecodeError Unit := if passes then .ok () else .error .pointRegisterAboveThree

theorem pointCheck_bind (a b : Bool) : (pointCheck a >>= fun _ => pointCheck b) = pointCheck (a && b) := by cases a <;> rfl

theorem checkField_point (n : RegNum) : checkField .point (fieldOfReg n) = pointCheck n.isPoint := by revert n; decide

theorem checkField_reg (f : BitVec 4) : checkField .reg f = pointCheck true := rfl

theorem checkField_zero : checkField .zero 0 = pointCheck true := rfl

/-- A command's word keeps 0 in Z1 and Z2, and in M where its format asks for it (R90, R91). -/
theorem fieldsOfInstr_zero (i : Instr) : (fieldsOfInstr i).z1 = 0#7 ∧ (fieldsOfInstr i).z2 = 0#4 ∧
    (i.opcode.format.mFree = false → (fieldsOfInstr i).m = 0#1) := by
  have h := fieldsOfInstr_build i.opcode (fieldsOfInstr i)
  rw [build_fieldsOfInstr] at h
  exact ⟨congrArg CommandWord.z1 h, congrArg CommandWord.z2 h, fun hfree => (congrArg CommandWord.m h).trans (by simp [hfree])⟩

/-- With nothing amiss in Z1, Z2 and M the three register fields are left to check (R91). -/
theorem checkFields_of_zero {fmt : Format} {c : CommandWord} (h : c.z1 = 0#7 ∧ c.z2 = 0#4 ∧ (fmt.mFree = false → c.m = 0#1)) :
    checkFields fmt c = (checkField fmt.rd c.rd >>= fun _ => checkField fmt.ra c.ra >>= fun _ => checkField fmt.rb c.rb) := by
  obtain ⟨hz1, hz2, hm⟩ := h
  rw [checkFields, if_neg (not_or.2 ⟨not_not.2 hz1, not_not.2 hz2⟩), if_neg fun h => h.2 (hm h.1)]

/-- Of the fields of a command only the point operands can fail their format, and they fail where it is ill formed (R91, R100). -/
theorem checkFields_fieldsOfInstr (i : Instr) : checkFields i.opcode.format (fieldsOfInstr i) = pointCheck i.wellFormed := by
  rw [checkFields_of_zero (fieldsOfInstr_zero i)]
  cases i <;> simp only [Instr.opcode, Opcode.format, formatF3, formatF2, formatF2S, formatP3, formatP2, formatPC, formatP1, formatPD,
    formatPM, fieldsOfInstr, checkField_reg, checkField_zero, checkField_point, pointCheck_bind, Bool.true_and, Bool.and_true,
    Bool.and_assoc, Instr.wellFormed]

/-- Settles O1: the command's own opcode is found, its format admits its fields but for a point register above 3, and they build it. -/
theorem decodeOfEncode : Obligations.DecodeOfEncode := by
  intro i
  have hfields : fieldsOf (encode i) = fieldsOfInstr i := fieldsOf_wordOf _
  simp only [decode, hfields, fieldsOfInstr_opc, opcodeOf_code, checkFields_fieldsOfInstr, build_fieldsOfInstr]
  cases i.wellFormed <;> rfl

/-- Settles O2: the fields that decode are the command's own, and the other round trip says that it is well formed. -/
theorem encodeOfDecode : Obligations.EncodeOfDecode := by
  intro w i h
  have henc : encode i = w := by
    obtain ⟨o, ho, hc, rfl⟩ := decode_eq_ok_iff.1 h
    rw [encode, fieldsOfInstr_build_of_admits ho hc, wordOf_fieldsOf]
  refine ⟨?_, henc⟩
  have hdec := decodeOfEncode i
  rw [henc, h] at hdec
  by_contra hwf
  rw [if_neg hwf] at hdec
  cases hdec

/-! ### The masks (R91) -/

/-- The bits of a register field that its rule asks to be 0 (R91). -/
def FieldRule.mask : FieldRule → BitVec 4
  | .reg => 0b0000#4
  | .point => 0b1100#4
  | .zero => 0b1111#4

theorem FieldRule.and_mask_eq_zero {rule : FieldRule} {f : BitVec 4} : f &&& rule.mask = 0#4 ↔ rule.Admits f := by
  cases rule with
  | reg => simp [mask, Admits]
  | point => revert f; simp only [mask, Admits]; decide
  | zero => revert f; simp only [mask, Admits]; decide

/-- The printed mask of each format asks for the opcode and for 0 in the bits its fields call 0 (R91). -/
theorem fieldsOf_mask (o : Opcode) : fieldsOf o.format.mask =
    ⟨0xFF#8, if o.format.mFree then 0#1 else 1#1, 0x7F#7, o.format.rd.mask, o.format.ra.mask, o.format.rb.mask, 0xF#4⟩ := by
  cases o <;> decide

/-- Two words are the same when their fields are (R90). -/
theorem fieldsOf_inj {w v : BitVec 32} : fieldsOf w = fieldsOf v ↔ w = v :=
  ⟨fun h => by rw [← wordOf_fieldsOf w, h, wordOf_fieldsOf], congrArg fieldsOf⟩

theorem fieldsOf_and (w v : BitVec 32) : fieldsOf (w &&& v) =
    ⟨(fieldsOf w).opc &&& (fieldsOf v).opc, (fieldsOf w).m &&& (fieldsOf v).m, (fieldsOf w).z1 &&& (fieldsOf v).z1,
      (fieldsOf w).rd &&& (fieldsOf v).rd, (fieldsOf w).ra &&& (fieldsOf v).ra, (fieldsOf w).rb &&& (fieldsOf v).rb,
      (fieldsOf w).z2 &&& (fieldsOf v).z2⟩ := by
  simp only [fieldsOf, BitVec.extractLsb'_and]

theorem fieldsOf_code (o : Opcode) : fieldsOf (o.code.setWidth 32) = ⟨o.code, 0#1, 0#7, 0#4, 0#4, 0#4, 0#4⟩ := by
  cases o <;> decide

theorem and_mFree_eq_zero {free : Bool} {m : BitVec 1} : m &&& (if free then 0#1 else 1#1) = 0#1 ↔ (free = false → m = 0#1) := by
  revert free m; decide

/-- The mask and the format ask the same of a word (R91). -/
theorem and_mask_eq_code_iff {w : BitVec 32} {o : Opcode} :
    w &&& o.format.mask = o.code.setWidth 32 ↔ o.code = (fieldsOf w).opc ∧ o.format.Admits (fieldsOf w) := by
  have hopc : (fieldsOf w).opc &&& 0xFF#8 = (fieldsOf w).opc := BitVec.and_allOnes
  have hz1 : (fieldsOf w).z1 &&& 0x7F#7 = (fieldsOf w).z1 := BitVec.and_allOnes
  have hz2 : (fieldsOf w).z2 &&& 0xF#4 = (fieldsOf w).z2 := BitVec.and_allOnes
  rw [← fieldsOf_inj, fieldsOf_and, fieldsOf_mask, fieldsOf_code]
  simp only [CommandWord.mk.injEq, hopc, hz1, hz2, and_mFree_eq_zero, FieldRule.and_mask_eq_zero]
  constructor
  · rintro ⟨ho, hm, hz1, hrd, hra, hrb, hz2⟩
    exact ⟨ho.symm, hz1, hz2, hm, hrd, hra, hrb⟩
  · rintro ⟨ho, hz1, hz2, hm, hrd, hra, hrb⟩
    exact ⟨ho.symm, hm, hz1, hrd, hra, hrb, hz2⟩

/-- Distinct commands have distinct opcode bytes (R95). -/
theorem code_inj {o o' : Opcode} (h : o.code = o'.code) : o = o' := by
  rw [← Option.some_inj, ← opcodeOf_code o, h, opcodeOf_code]

/-- Settles O3: the mask asks for the opcode byte and for what the format admits, which is what the decoder asks for. -/
theorem decodeMatchesMask : Obligations.DecodeMatchesMask := by
  intro w o
  rw [and_mask_eq_code_iff]
  constructor
  · rintro ⟨ho, hc⟩
    exact ⟨build o (fieldsOf w), decode_eq_ok_iff.2 ⟨o, ho, hc, rfl⟩, by rw [fieldsOfInstr_opc, opcode_build]⟩
  · rintro ⟨i, hi, hcode⟩
    obtain ⟨o', ho, hc, rfl⟩ := decode_eq_ok_iff.1 hi
    rw [fieldsOfInstr_opc, opcode_build] at hcode
    obtain rfl := code_inj hcode
    exact ⟨ho, hc⟩

/-- Settles O4: the decoder evaluated on each word. -/
theorem specWordsDecode : Obligations.SpecWordsDecode := by
  unfold Obligations.SpecWordsDecode
  decide

end Sys2Proof

/-! ### Terms no word spells (R91, R100) -/

namespace Sys2Proof.Machine

/-- A command ends in ILLEGAL_CMD where its first point operand is above 3, or where `rest` fails and what follows ends so. -/
theorem pointIndex_bind_illegal {α : Type} {n : RegNum} {rest : Bool} {k : Fin 4 → Except CmdError α}
    (h : (n.isPoint && rest) = false) (hk : rest = false → ∀ j, k j = .error .illegalCmd) :
    (pointIndex n >>= k) = .error .illegalCmd := by
  by_cases hn : n.val < 4
  · rw [pointIndex_ok hn]
    exact hk (by simpa [RegNum.isPoint, hn] using h) _
  · rw [pointIndex_error hn]
    rfl

/-- An operand above 3 ends the command whatever the rest of it does. -/
theorem pointIndex_bind_last {α : Type} {n : RegNum} {k : Fin 4 → Except CmdError α} (h : n.isPoint = false) :
    (pointIndex n >>= k) = .error .illegalCmd :=
  pointIndex_bind_illegal (rest := true) (by rw [h, Bool.false_and]) nofun

/-- Either of two point operands above 3 ends the command. -/
theorem pointIndex_bind_two {α : Type} {n n' : RegNum} {k : Fin 4 → Fin 4 → Except CmdError α}
    (h : (n.isPoint && n'.isPoint) = false) : (pointIndex n >>= fun j => pointIndex n' >>= k j) = .error .illegalCmd :=
  pointIndex_bind_illegal h fun h _ => pointIndex_bind_last h

/-- Settles O7: the operands are checked before all else, and one of them fails. -/
theorem illFormedCommandRaisesIllegalCmd : Obligations.IllFormedCommandRaisesIllegalCmd := by
  intro i s h
  cases i with
  | padd pd pa pb =>
    rw [Instr.wellFormed, Bool.and_assoc] at h
    exact congrArg (finishPoint s) (pointIndex_bind_illegal h fun h _ => pointIndex_bind_two h)
  | pdbl pd pa => exact congrArg (finishPoint s) (pointIndex_bind_two h)
  | pneg pd pa => exact congrArg (finish s) (pointIndex_bind_two h)
  | peq pa pb => exact congrArg (finish s) (pointIndex_bind_two h)
  | pchk pa => exact congrArg (finish s) (pointIndex_bind_last h)
  | pmul pd rb pa => exact congrArg (finishPoint s) (pointIndex_bind_two h)
  | pencu pa => exact congrArg (finish s) (pointIndex_bind_last h)
  | pencc pa => exact congrArg (finish s) (pointIndex_bind_last h)
  | pdec pd => exact congrArg (finish s) (pointIndex_bind_last h)
  | _ => cases h

end Sys2Proof.Machine

/-! ## The field family (R120 to R135)

`finish_check` resolves one check of a command; each field command is a chain of checks that ends in `fieldSuccess`, and the rule of
the command is that chain with the value its formula has. -/

namespace Sys2Proof.Machine

/-! ### The checks of a command (R120, R240) -/

/-- One check in front of the rest of a command: where it fails the command ends in its error, where it passes in what the rest
leaves. -/
theorem finish_check {α : Type} {s t : State} {x : Except CmdError α} {c : Prop} [Decidable c] {a : α} {e : CmdError}
    {k : α → Except CmdError Success} (hx : x = if c then .ok a else .error e) (hk : c → finish s (k a) = .next t) :
    finish s (x >>= k) = .next (if ¬ c then s.failed e else t) := by
  subst hx
  by_cases hc : c
  · rw [if_pos hc, if_neg (not_not.2 hc)]
    exact hk hc
  · rw [if_neg hc, if_pos hc]
    rfl

theorem finish_fieldSuccess (s : State) (rd : RegNum) (v : Nat) :
    finish s (.ok (fieldSuccess rd v)) = .next (s.fieldDone rd v) := rfl

theorem modulusValue_lt (s : State) (m : Modulus) : modulusValue s m < 2 ^ 256 := by
  cases m
  · exact s.prm.p.isLt
  · exact s.prm.n.isLt

/-- A command with two residue operands, whose formula has the value `v` where the checks pass (R120). -/
theorem finish_binaryRule {s : State} {m : Modulus} {rd ra rb : RegNum} {f : Nat → Nat → Nat → Nat} {v : Nat}
    (hv : s.regs[ra].toNat < modulusValue s m → s.regs[rb].toNat < modulusValue s m →
      f s.regs[ra].toNat s.regs[rb].toNat (modulusValue s m) = v) :
    finish s (binaryRule s m rd ra rb f) = .next (
      if ¬ GoodModulus (modulusValue s m) then s.failed .badModulus
      else if ¬ (s.regs[ra].toNat < modulusValue s m ∧ s.regs[rb].toNat < modulusValue s m) then s.failed .operandRange
      else s.fieldDone rd v) := by
  simp only [not_and_or (a := s.regs[ra].toNat < modulusValue s m), ite_or]
  exact finish_check rfl fun _ => finish_check rfl fun ha => finish_check rfl fun hb =>
    congrArg (fun v => finish s (.ok (fieldSuccess rd v))) (hv ha hb)

/-! ### Addition, subtraction, multiplication, power and remainder (R121, R123, R125, R131, R135) -/

/-- Settles O13: for residues the conditional subtraction is the remainder of the sum. -/
theorem modaddRule : Obligations.ModaddRule := fun _ _ _ _ _ => finish_binaryRule addMod_eq

/-- Settles O14: for residues the case split on the borrow is the remainder of `a + (m - b)`. -/
theorem modsubRule : Obligations.ModsubRule := fun _ _ _ _ _ => finish_binaryRule fun ha hb => subMod_eq ha hb.le

/-- Settles O15: the model computes the remainder of the exact product. -/
theorem modmulRule : Obligations.ModmulRule := fun _ _ _ _ _ => finish_binaryRule fun _ _ => rfl

/-- Settles O18: the checks are those of the modulus and of the base, and squaring uses all 256 bits of the exponent. -/
theorem modexpRule : Obligations.ModexpRule := by
  intro s m rd ra rb
  refine finish_check rfl fun _ => finish_check rfl fun _ => ?_
  rw [powMod_word _ _ s.regs[rb].isLt, finish_fieldSuccess]

/-- Settles O20: the one check is that of the modulus. -/
theorem modredRule : Obligations.ModredRule := fun s _ rd _ => finish_check rfl fun _ => finish_fieldSuccess s rd _

/-! ### The Montgomery product (R126, R127) -/

theorem montMod_lt {a b m : Nat} (hm : GoodModulus m) : montMod a b m < m := Nat.mod_lt _ (by omega)

/-- The Montgomery product is what 2^256 multiplies to the product (R127). -/
theorem montMod_modEq {m : Nat} (hm : GoodModulus m) (hb : m ≤ 2 ^ 256) (a b : Nat) : 2 ^ 256 * montMod a b m ≡ a * b [MOD m] := by
  have hinv : 2 ^ 256 * rInv m ≡ 1 [MOD m] := (rInv_spec hm.1 hm.2 hb).2.trans (Nat.mod_eq_of_lt (by omega)).symm
  calc 2 ^ 256 * montMod a b m
      ≡ 2 ^ 256 * (a * b * rInv m) [MOD m] := (Nat.mod_modEq _ m).mul_left _
    _ = 2 ^ 256 * rInv m * (a * b) := by ring
    _ ≡ 1 * (a * b) [MOD m] := hinv.mul_right _
    _ = a * b := one_mul _

theorem coprime_two_pow {m : Nat} (hm : GoodModulus m) (n : Nat) : Nat.gcd m (2 ^ n) = 1 :=
  Nat.Coprime.pow_right n (Nat.coprime_two_right.2 (Nat.odd_iff.2 hm.1))

/-- Settles O16: the residue is the Montgomery product. -/
theorem montmulRule : Obligations.MontmulRule := fun s m _ ra rb =>
  ⟨montMod s.regs[ra].toNat s.regs[rb].toNat (modulusValue s m),
    fun hm => ⟨montMod_lt hm, montMod_modEq hm (modulusValue_lt s m).le _ _⟩, finish_binaryRule fun _ _ => rfl⟩

/-- Settles O22: both sides are residues, and 2^256, which is coprime to m, multiplies them to congruent numbers. -/
theorem montgomeryProductRelation : Obligations.MontgomeryProductRelation := by
  intro a b m hm hb _ _
  have hscaled : 2 ^ 256 * montMod (montMod a b m) ((2 ^ 256) ^ 2 % m) m ≡ 2 ^ 256 * (a * b) [MOD m] :=
    calc 2 ^ 256 * montMod (montMod a b m) ((2 ^ 256) ^ 2 % m) m
        ≡ montMod a b m * ((2 ^ 256) ^ 2 % m) [MOD m] := montMod_modEq hm hb.le _ _
      _ ≡ montMod a b m * (2 ^ 256) ^ 2 [MOD m] := (Nat.mod_modEq _ m).mul_left _
      _ = 2 ^ 256 * (2 ^ 256 * montMod a b m) := by ring
      _ ≡ 2 ^ 256 * (a * b) [MOD m] := (montMod_modEq hm hb.le a b).mul_left _
  have hcancelled : montMod (montMod a b m) ((2 ^ 256) ^ 2 % m) m ≡ a * b [MOD m] :=
    hscaled.cancel_left_of_coprime (coprime_two_pow hm 256)
  exact (Nat.mod_eq_of_lt (montMod_lt hm)).symm.trans hcancelled

/-! ### The inverse (R129) -/

/-- Settles O17: the inverse is the one Euclid's algorithm finds, which it does for a coprime operand and no other. -/
theorem modinvRule : Obligations.ModinvRule := by
  intro s m rd ra
  have hlt := (modulusValue_lt s m).le
  refine ⟨(invMod s.regs[ra].toNat (modulusValue s m)).getD 0, fun hm ha hg => ?_,
    finish_check rfl fun hm => finish_check rfl fun ha => ?_⟩
  · obtain ⟨r, hr, h0, hrm, hone⟩ := invMod_eq_some (by omega) ha hlt hg
    rw [hr]
    exact ⟨h0, hrm, hone⟩
  · by_cases hg : Nat.gcd s.regs[ra].toNat (modulusValue s m) = 1
    · obtain ⟨r, hr, -⟩ := invMod_eq_some (by omega) ha hlt hg
      rw [hr, if_neg (not_not.2 hg)]
      rfl
    · rw [invMod_eq_none (by omega) ha hlt hg, if_pos hg]
      rfl

/-! ### The square root (R133, R134) -/

/-- Settles O19: three checks, then the test of the candidate. -/
theorem modsqrtRule : Obligations.ModsqrtRule := by
  intro s rd ra
  rw [ite_or]
  refine finish_check rfl fun _ => finish_check rfl fun _ => finish_check rfl fun _ => ?_
  rw [rootCandidate_eq _ s.prm.p.isLt, pow_two]
  split <;> rfl

/-- For a prime p with p mod 4 = 3 the candidate's square is the operand wherever the operand is a square: the two exponents make
p + 1, and x^p = x (R134). -/
theorem candidate_mul_self {p a x : Nat} (hp : p.Prime) (h4 : p % 4 = 3) (hx : x * x % p = a) :
    a ^ ((p + 1) / 4) % p * (a ^ ((p + 1) / 4) % p) % p = a := by
  have : Fact p.Prime := ⟨hp⟩
  have fermat : x ^ p ≡ x [MOD p] := (ZMod.natCast_eq_natCast_iff _ _ p).1 (by rw [Nat.cast_pow, ZMod.pow_card])
  have ha : a ≡ x * x [MOD p] := hx ▸ Nat.mod_modEq _ p
  have hc : a ^ ((p + 1) / 4) % p ≡ (x * x) ^ ((p + 1) / 4) [MOD p] := (Nat.mod_modEq _ p).trans (ha.pow _)
  have hsq : a ^ ((p + 1) / 4) % p * (a ^ ((p + 1) / 4) % p) ≡ x * x [MOD p] :=
    calc a ^ ((p + 1) / 4) % p * (a ^ ((p + 1) / 4) % p)
        ≡ (x * x) ^ ((p + 1) / 4) * (x * x) ^ ((p + 1) / 4) [MOD p] := hc.mul hc
      _ = x ^ (p + 1) := by rw [← pow_two, ← pow_two, ← pow_mul, ← pow_mul]; congr 1; omega
      _ = x ^ p * x := pow_succ x p
      _ ≡ x * x [MOD p] := fermat.mul_right x
  exact Eq.trans hsq hx

/-- Settles O21: by MODSQRT's rule, since the candidate is a root of every square and of no other operand. -/
theorem modsqrtFindsEveryRoot : Obligations.ModsqrtFindsEveryRoot := by
  intro s rd ra hp h4 ha
  have hgood : ¬ (¬ GoodModulus s.prm.p.toNat ∨ s.prm.p.toNat % 4 ≠ 3) := by omega
  have hrule := modsqrtRule s rd ra
  rw [if_neg hgood, if_neg (not_not.2 ha), pow_two] at hrule
  refine ⟨fun ⟨x, hx⟩ => ?_, fun hnone => ?_⟩
  · have hsq := candidate_mul_self hp h4 hx
    rw [if_neg (not_not.2 hsq)] at hrule
    exact ⟨_, Nat.mod_lt _ hp.pos, hsq, hrule⟩
  · rwa [if_pos fun hsq => hnone ⟨_, hsq⟩] at hrule

end Sys2Proof.Machine

/-! ## Results are reduced (R24, R120, R160) -/

namespace Sys2Proof.Machine

/-- If the command ends without an error, then in a state of which `P` holds. -/
def SucceedsIn (P : State → Prop) (o : Outcome) : Prop := ∀ t, o = .next t → t.status.err = none → P t

/-- A failed check leaves nothing to show. -/
theorem SucceedsIn.check {P : State → Prop} {s : State} {c : Prop} [Decidable c] {e : CmdError} {o : Outcome}
    (h : ¬ c → SucceedsIn P o) : SucceedsIn P (if c then .next (s.failed e) else o) := by
  split
  · rintro _ ⟨⟩ ⟨⟩
  · exact h ‹_›

/-- The same for a command whose checks stand inside the next state. -/
theorem SucceedsIn.next_check {P : State → Prop} {s t : State} {c : Prop} [Decidable c] {e : CmdError}
    (h : ¬ c → SucceedsIn P (.next t)) : SucceedsIn P (.next (if c then s.failed e else t)) := by
  rw [apply_ite Host.Outcome.next]
  exact .check h

theorem SucceedsIn.next {P : State → Prop} {t : State} (h : P t) : SucceedsIn P (.next t) := by
  rintro _ ⟨⟩ -
  exact h

/-! ### Field commands (R120) -/

theorem State.fieldDone_reg (s : State) (rd : RegNum) {v : Nat} (hv : v < 2 ^ 256) : (s.fieldDone rd v).regs[rd].toNat = v := by
  simpa [State.fieldDone] using hv

/-- A field command that writes a residue leaves a value below the modulus. -/
theorem fieldDone_reduced {s : State} {rd : RegNum} {v q : Nat} (hv : v < q) (hq : q < 2 ^ 256) :
    SucceedsIn (fun t => t.regs[rd].toNat < q) (.next (s.fieldDone rd v)) :=
  .next (by rwa [State.fieldDone_reg s rd (hv.trans hq)])

/-- The remainder a field command writes is below a modulus that has passed its check. -/
theorem fieldDone_mod_reduced {s : State} {rd : RegNum} {q : Nat} (v : Nat) (hm : GoodModulus q) (hq : q < 2 ^ 256) :
    SucceedsIn (fun t => t.regs[rd].toNat < q) (.next (s.fieldDone rd (v % q))) :=
  fieldDone_reduced (Nat.mod_lt v (by omega)) hq

theorem modsqrt_reduced (s : State) (rd ra : RegNum) :
    SucceedsIn (fun t => t.regs[rd].toNat < s.prm.p.toNat) (exec (.modsqrt rd ra) s) := by
  rw [modsqrtRule]
  exact .next_check fun hm => .next_check fun _ => .next_check fun _ =>
    fieldDone_mod_reduced _ (not_not.1 (not_or.1 hm).1) s.prm.p.isLt

/-- By the rule of each command, whose checks come first. -/
theorem fieldCommand_reduced {m : Modulus} {rd ra rb : RegNum} {i : Instr} (s : State)
    (hi : i ∈ [Instr.modadd m rd ra rb, .modsub m rd ra rb, .modmul m rd ra rb, .montmul m rd ra rb, .modinv m rd ra,
      .modexp m rd ra rb, .modred m rd ra]) : SucceedsIn (fun t => t.regs[rd].toNat < modulusValue s m) (exec i s) := by
  have hq := modulusValue_lt s m
  simp only [List.mem_cons, List.not_mem_nil, or_false] at hi
  rcases hi with rfl | rfl | rfl | rfl | rfl | rfl | rfl
  · rw [modaddRule]
    exact .next_check fun hm => .next_check fun _ => fieldDone_mod_reduced _ (not_not.1 hm) hq
  · rw [modsubRule]
    exact .next_check fun hm => .next_check fun _ => fieldDone_mod_reduced _ (not_not.1 hm) hq
  · rw [modmulRule]
    exact .next_check fun hm => .next_check fun _ => fieldDone_mod_reduced _ (not_not.1 hm) hq
  · obtain ⟨r, hr, hrule⟩ := montmulRule s m rd ra rb
    rw [hrule]
    exact .next_check fun hm => .next_check fun _ => fieldDone_reduced (hr (not_not.1 hm)).1 hq
  · obtain ⟨r, hr, hrule⟩ := modinvRule s m rd ra
    rw [hrule]
    exact .next_check fun hm => .next_check fun ha => .next_check fun hg =>
      fieldDone_reduced (hr (not_not.1 hm) (not_not.1 ha) (not_not.1 hg)).2.1 hq
  · rw [modexpRule]
    exact .next_check fun hm => .next_check fun _ => fieldDone_mod_reduced _ (not_not.1 hm) hq
  · rw [modredRule]
    exact .next_check fun hm => fieldDone_mod_reduced _ (not_not.1 hm) hq

/-! ### Point commands (R24, R160) -/

/-- A reduced point is written in the form every result has (R24, R160). -/
theorem pointOf_canonical {p : Nat} {r : Affine} (hr : r.Below p) (hp : p ≤ 2 ^ 256) : Canonical p (pointOf r) := by
  cases r with
  | inf => exact .inl rfl
  | pt x y =>
    obtain ⟨hx, hy⟩ := hr
    refine .inr ⟨rfl, ?_, ?_⟩
    · rwa [pointOf, BitVec.toNat_ofNat, Nat.mod_eq_of_lt (hx.trans_le hp)]
    · rwa [pointOf, BitVec.toNat_ofNat, Nat.mod_eq_of_lt (hy.trans_le hp)]

theorem State.pointDone_point (s : State) (d : Fin 4) (q : Point) : (s.pointDone d q).points[d] = q := by
  simp [State.pointDone]

theorem pointDone_canonical {s : State} {d : Fin 4} {r : Affine} (hr : r.Below s.prm.p.toNat) :
    SucceedsIn (fun t => Canonical s.prm.p.toNat t.points[d]) (.next (s.pointDone d (pointOf r))) :=
  .next (by rw [State.pointDone_point]; exact pointOf_canonical hr s.prm.p.isLt.le)

/-- A point command that divides and whose formulas have a reduced value (R160, R161). -/
theorem finishPoint_canonical {s : State} {d : Fin 4} {v : Option Affine} {input : CommandInput}
    (hv : ∃ r, v = some r ∧ r.Below s.prm.p.toNat) :
    SucceedsIn (fun t => Canonical s.prm.p.toNat t.points[d]) (finishPoint s (.ok ⟨d, v, input⟩)) := by
  obtain ⟨r, rfl, hr⟩ := hv
  rw [finishPoint_some]
  exact pointDone_canonical hr

theorem affineNeg_below {p : Nat} {r : Affine} (h : r.Below p) : (affineNeg p r).Below p := by
  cases r with
  | inf => exact trivial
  | pt x y =>
    obtain ⟨hx, hy⟩ := h
    refine ⟨hx, ?_⟩
    split <;> omega

theorem sourcePoint_eq (p : Nat) (r : Point) :
    sourcePoint p r = if InRange p r then .ok (affineOf r) else .error .operandRange := by
  split
  · exact sourcePoint_ok ‹_›
  · exact sourcePoint_error ‹_›

/-- The operand that names a point register passes its check. -/
theorem pointIndex_pointReg_bind {α : Type} (j : Fin 4) (k : Fin 4 → Except CmdError α) : (pointIndex (pointReg j) >>= k) = k j := by
  rw [pointIndex_pointReg]
  rfl

/-- PNEG after its checks (R160, R168). -/
theorem exec_pneg (s : State) (d i : Fin 4) :
    exec (.pneg (pointReg d) (pointReg i)) s = .next (
      if ¬ GoodModulus s.prm.p.toNat then s.failed .badModulus
      else if ¬ InRange s.prm.p.toNat s.points[i] then s.failed .operandRange
      else s.pointDone d (pointOf (affineNeg s.prm.p.toNat (affineOf s.points[i])))) := by
  simp only [exec, execPneg, pointIndex_pointReg_bind]
  exact finish_check rfl fun _ => finish_check (sourcePoint_eq _ _) fun _ => finish_pointSuccess s d _

/-- The root of the right parity is a residue: p − c is one because c is not 0 (R196). -/
theorem chooseRoot_lt {p c t y : Nat} (hc : c < p) (h : chooseRoot p c t = some y) : y < p := by
  unfold chooseRoot at h
  split_ifs at h <;> cases h <;> omega

theorem decodeFull_below {p a b x y : Nat} {q : Affine} (h : decodeFull p a b x y = .ok q) : q.Below p := by
  unfold decodeFull at h
  split_ifs at h with hxy
  cases h
  exact hxy

theorem decodeShort_below {p a b t x : Nat} {q : Affine} (hp : p < 2 ^ 256) (h : decodeShort p a b t x = .ok q) : q.Below p := by
  unfold decodeShort at h
  split_ifs at h with _ hx
  split at h
  · cases h
  · rename_i y hy
    split_ifs at h
    cases h
    exact ⟨hx, chooseRoot_lt (by rw [rootCandidate_eq _ hp]; exact Nat.mod_lt _ (by omega)) hy⟩

/-- A decoded point is reduced (R196). -/
theorem decodePoint_below {p a b : Nat} {len : BitVec 7} {buf : Vector Byte 65} {q : Affine} (hp : p < 2 ^ 256)
    (h : decodePoint p a b len buf = .ok q) : q.Below p := by
  unfold decodePoint at h
  split_ifs at h
  · exact decodeFull_below h
  · exact decodeShort_below hp h

theorem finish_decoded_canonical {s : State} {d : Fin 4} {r : Except CmdError Affine} (hr : ∀ q, r = .ok q → q.Below s.prm.p.toNat) :
    SucceedsIn (fun t => Canonical s.prm.p.toNat t.points[d]) (finish s (r.map fun q => pointSuccess d (pointOf q))) := by
  cases r with
  | error e => rintro _ ⟨⟩ ⟨⟩
  | ok q =>
    rw [Except.map, finish_pointSuccess]
    exact pointDone_canonical (hr q rfl)

/-- After the checks the sources are reduced, and the group law keeps that for a prime p (R160, R161, R174). -/
theorem pointCommand_canonical {d a b : Fin 4} {rb : RegNum} {i : Instr} {s : State} (hp : s.prm.p.toNat.Prime)
    (hi : i ∈ [Instr.padd (pointReg d) (pointReg a) (pointReg b), .pdbl (pointReg d) (pointReg a), .pneg (pointReg d) (pointReg a),
      .pmul (pointReg d) rb (pointReg a), .pdec (pointReg d)]) :
    SucceedsIn (fun t => Canonical s.prm.p.toNat t.points[d]) (exec i s) := by
  have hlt := s.prm.p.isLt
  simp only [List.mem_cons, List.not_mem_nil, or_false] at hi
  rcases hi with rfl | rfl | rfl | rfl | rfl
  · rw [exec_padd]
    refine .check fun hm => .check fun _ => .check fun hr => finishPoint_canonical ?_
    obtain ⟨ha, hb⟩ := not_not.1 hr
    exact affineAdd_prime hp (not_not.1 hm).2 hlt.le (affineOf_below ha) (affineOf_below hb)
  · rw [exec_pdbl]
    exact .check fun hm => .check fun _ => .check fun hr => finishPoint_canonical
      (affineDbl_prime hp (not_not.1 hm).2 hlt.le (affineOf_below (not_not.1 hr)))
  · rw [exec_pneg]
    exact .next_check fun _ => .next_check fun hr => pointDone_canonical (affineNeg_below (affineOf_below (not_not.1 hr)))
  · rw [exec_pmul]
    exact .check fun hm => .check fun _ => .check fun hr => finishPoint_canonical
      (scalarScan_prime hp (not_not.1 hm).2 hlt.le (affineOf_below (not_not.1 hr)) _ _)
  · rw [exec_pdec]
    exact .check fun _ => .check fun _ => finish_decoded_canonical fun _ => decodePoint_below hlt

/-- Settles O39, by the rule of each command. -/
theorem resultsAreReduced : Obligations.ResultsAreReduced :=
  ⟨fun s t _ _ _ _ _ hi => fieldCommand_reduced s hi t, fun s t rd ra => modsqrt_reduced s rd ra t,
    fun _ t _ _ _ _ hp _ hi => pointCommand_canonical hp hi t⟩

end Sys2Proof.Machine

/-! ## The point family (R160 to R176)

A point command is a chain of checks that ends in the point its formulas give, or in an unspecified outcome where they give none.
`answers_check` resolves one check of a rule that speaks of the next state, and `answers_cases` one case after the checks;
`CompletesWith` says what a command comes to once its checks have passed. -/

namespace Sys2Proof.Machine

/-- A finite register in range holds two residues (R160). -/
theorem inRange_finite {p : Nat} {r : Point} (h : InRange p r) (hi : r.inf = false) : r.x.toNat < p ∧ r.y.toNat < p :=
  h.resolve_left (Bool.eq_false_iff.1 hi)

/-! ### PNEG, PEQ and PCHK (R168, R170, R172) -/

/-- The negative of a point in range, as it is written: p − y does not wrap around (R168). -/
theorem pointOf_affineNeg {p : Word} {r : Point} (h : InRange p.toNat r) :
    pointOf (affineNeg p.toNat (affineOf r)) =
      if r.inf then infinity else ⟨r.x, if r.y = 0#256 then 0#256 else p - r.y, false⟩ := by
  cases hi : r.inf with
  | true => rw [affineOf_infinite hi]; rfl
  | false =>
    obtain ⟨-, hy⟩ := inRange_finite h hi
    have hneg : BitVec.ofNat 256 (p.toNat - r.y.toNat) = p - r.y :=
      BitVec.eq_of_toNat_eq (by rw [BitVec.toNat_sub_of_le hy.le, BitVec.toNat_ofNat, Nat.mod_eq_of_lt (by omega)])
    have hzero : r.y.toNat = 0 ↔ r.y = 0#256 := BitVec.toNat_inj (y := 0#256)
    rw [affineOf_finite hi, affineNeg, pointOf, apply_ite (BitVec.ofNat 256), hneg, word_ofNat_toNat]
    simp only [hzero, Bool.false_eq_true, if_false]

/-- Settles O25: two checks, and the negative of the point read. -/
theorem pnegRule : Obligations.PnegRule := by
  intro s d i
  rw [exec_pneg]
  refine congrArg Host.Outcome.next (ite_congr rfl (fun _ => rfl) fun _ => ite_congr rfl (fun _ => rfl) fun hr => ?_)
  rw [pointOf_affineNeg (not_not.1 hr)]
  exact apply_ite (s.pointDone d) _ _ _

/-- Two registers hold one point when both are infinite, or both are finite with equal coordinates (R170). -/
theorem affineOf_eq_iff {q r : Point} :
    affineOf q = affineOf r ↔ q.inf = true ∧ r.inf = true ∨ q.inf = r.inf ∧ q.x = r.x ∧ q.y = r.y := by
  cases hq : q.inf <;> cases hr : r.inf <;> simp [affineOf, hq, hr, BitVec.toNat_inj]

/-- Settles O26: two checks, and EQ by the cases of `affineOf_eq_iff`. -/
theorem peqRule : Obligations.PeqRule := by
  intro s i j
  simp only [exec, execPeq, pointIndex_pointReg_bind, not_and_or (a := InRange s.prm.p.toNat s.points[i]), ite_or]
  refine finish_check rfl fun _ => finish_check (sourcePoint_eq _ _) fun _ => finish_check (sourcePoint_eq _ _) fun _ => ?_
  change Host.Outcome.next (s.flagsDone ⟨decide (affineOf s.points[i] = affineOf s.points[j]), false, false⟩) = _
  split_ifs with hboth hone
  · rw [decide_eq_true (affineOf_eq_iff.2 (.inl hboth))]
  · rw [decide_eq_false fun h => (affineOf_eq_iff.1 h).elim hboth fun h => hone h.1]
  · rw [decide_eq_decide.2 (affineOf_eq_iff.trans ((or_iff_right hboth).trans (and_iff_right (not_not.1 hone))))]

/-- The test of PCHK with the curve equation written out (R172). -/
theorem pointOnCurve_eq (p a b : Nat) (r : Point) : pointOnCurve p a b r =
    decide (r.x.toNat < p ∧ r.y.toNat < p ∧ r.y.toNat ^ 2 % p = (r.x.toNat ^ 3 + a * r.x.toNat + b) % p) := by
  rw [Bool.eq_iff_iff]
  simp only [pointOnCurve, Bool.and_eq_true, decide_eq_true_eq, onCurve_iff, and_assoc]

/-- Settles O27: three checks, and for a finite point the curve equation. -/
theorem pchkRule : Obligations.PchkRule := by
  intro s i
  simp only [exec, execPchk, pointIndex_pointReg_bind, not_and_or (a := s.prm.a.toNat < s.prm.p.toNat), ite_or, ← pointOnCurve_eq]
  refine finish_check rfl fun _ => finish_check rfl fun _ => finish_check rfl fun _ => ?_
  split <;> rfl

/-! ### What the formulas come to (R161, R174) -/

theorem pointOf_affineOf_finite {r : Point} (h : r.inf = false) : pointOf (affineOf r) = r := by
  rw [pointOf_affineOf, h]; rfl

/-- The double of infinity and of a point with y = 0 is infinity (R161). -/
theorem affineDbl_eq_inf (p a : Nat) {r : Point} (h : r.inf = true ∨ r.y = 0#256) : affineDbl p a (affineOf r) = some .inf := by
  cases hi : r.inf with
  | true => rw [affineOf_infinite hi, affineDbl]
  | false => rw [affineOf_finite hi, affineDbl, h.resolve_left (Bool.eq_false_iff.1 hi), if_pos (by rfl)]

/-- The double exists for infinity, for y = 0 and where 2·y has its inverse (R161, U1). -/
theorem affineDbl_exists {p : Nat} (a : Nat) {r : Point} (hp : 1 < p) (hb : p ≤ 2 ^ 256)
    (h : r.inf = true ∨ r.y = 0#256 ∨ Nat.gcd (2 * r.y.toNat) p = 1) : ∃ q, affineDbl p a (affineOf r) = some q := by
  by_cases h0 : r.inf = true ∨ r.y = 0#256
  · exact ⟨_, affineDbl_eq_inf p a h0⟩
  · obtain ⟨hi, hy⟩ := not_or.1 h0
    have hg := (h.resolve_left hi).resolve_left hy
    obtain ⟨_, _, _, hd, -⟩ := affineDbl_spec (a := a) (x := r.x.toNat) hp hb (BitVec.toNat_ne.1 hy) hg
    exact ⟨_, by rw [affineOf_finite (Bool.eq_false_iff.2 hi), hd]⟩

/-- Two registers with equal coordinates and equal INF bits are equal. -/
theorem register_eq {q r : Point} (hx : q.x = r.x) (hy : q.y = r.y) (hi : q.inf = r.inf) : q = r := by
  cases q; cases r; simp_all

theorem affineAdd_inf_left (p a : Nat) (q : Affine) : affineAdd p a .inf q = some q := by cases q <;> rfl

theorem affineAdd_inf_right (p a : Nat) (q : Affine) : affineAdd p a q .inf = some q := by cases q <;> rfl

/-- Equal points are doubled (R161). -/
theorem affineAdd_self (p a : Nat) (q : Affine) : affineAdd p a q q = affineDbl p a q := by
  cases q with
  | inf => rfl
  | pt x y => rw [affineAdd, if_pos rfl, if_pos rfl]

/-- Two points of equal x and unequal y give infinity (R161). -/
theorem affineAdd_opposite (p a x : Nat) {y y' : Nat} (h : y ≠ y') : affineAdd p a (.pt x y) (.pt x y') = some .inf := by
  rw [affineAdd, if_pos rfl, if_neg h]

/-- The scan of the scalar 2 is the double (R174). -/
theorem scalarScan_two (p a : Nat) (q : Affine) (bits : Nat) : scalarScan p a q (bits + 2) 2 = affineDbl p a q := by
  rw [scalarScan, scalarScan_one]
  cases h : affineDbl p a q <;> simp [h]

/-- One round of a scan that has a value: the accumulator doubled, and the point added when the bit is 1 (R174). -/
theorem scalarScan_succ {p a bits k : Nat} {q r : Affine} (h : scalarScan p a q (bits + 1) k = some r) :
    ∃ acc twice, scalarScan p a q bits (k / 2) = some acc ∧ affineDbl p a acc = some twice ∧
      if k % 2 = 1 then affineAdd p a twice q = some r else r = twice := by
  rw [scalarScan] at h
  split at h
  · cases h
  · rename_i acc hacc
    split at h
    · cases h
    · rename_i twice htwice
      refine ⟨acc, twice, hacc, htwice, ?_⟩
      split_ifs at h ⊢
      · exact h
      · exact (Option.some.inj h).symm

/-- The accumulator of the scan of a 256-bit scalar after its first `n` rounds, on the highest `n` bits (R174). -/
def scanAcc (p a : Nat) (q : Affine) (k n : Nat) : Affine := (scalarScan p a q n (k / 2 ^ (256 - n))).getD .inf

/-- Bit 255 − n is the one that round n adds to the bits scanned before. -/
theorem scanAcc_round {p a k n : Nat} {q : Affine} (hscan : ∀ bits k, ∃ r, scalarScan p a q bits k = some r) (hn : n < 256) :
    ∃ twice, affineDbl p a (scanAcc p a q k n) = some twice ∧
      if k.testBit (255 - n) then affineAdd p a twice q = some (scanAcc p a q k (n + 1)) else scanAcc p a q k (n + 1) = twice := by
  have hbits : k / 2 ^ (256 - (n + 1)) / 2 = k / 2 ^ (256 - n) := by
    rw [Nat.div_div_eq_div_mul, ← pow_succ]
    congr 2; omega
  have hbit : k.testBit (255 - n) = true ↔ k / 2 ^ (256 - (n + 1)) % 2 = 1 := by
    rw [Nat.testBit_eq_decide_div_mod_eq, decide_eq_true_eq, show 256 - (n + 1) = 255 - n by omega]
  obtain ⟨r, hr⟩ := hscan (n + 1) (k / 2 ^ (256 - (n + 1)))
  obtain ⟨acc, twice, hacc, htwice, hround⟩ := scalarScan_succ hr
  have hn0 : scanAcc p a q k n = acc := by rw [scanAcc, ← hbits, hacc]; rfl
  have hn1 : scanAcc p a q k (n + 1) = r := by rw [scanAcc, hr]; rfl
  rw [hn0, hn1]
  simp only [hbit]
  exact ⟨twice, htwice, hround⟩

/-! ### A command after its checks -/

/-- One check of a command, for a statement about its next state. -/
theorem answers_check {s : State} {o : Outcome} {c : Prop} [Decidable c] {e : CmdError} {Q : State → Prop}
    (h : c → ∃ t, o = .next t ∧ Q t) :
    ∃ t, (if ¬ c then .next (s.failed e) else o) = Host.Outcome.next t ∧ if ¬ c then t = s.failed e else Q t := by
  by_cases hc : c
  · simpa only [hc, not_true_eq_false, if_false] using h hc
  · simp only [hc, not_false_eq_true, if_true]
    exact ⟨_, rfl, rfl⟩

/-- One case of a rule. -/
theorem answers_cases {o : Outcome} {c : Prop} [Decidable c] {Q R : State → Prop} (hQ : c → ∃ t, o = .next t ∧ Q t)
    (hR : ¬ c → ∃ t, o = .next t ∧ R t) : ∃ t, o = .next t ∧ if c then Q t else R t := by
  by_cases hc : c
  · simpa only [hc, if_true] using hQ hc
  · simpa only [hc, if_false] using hR hc

/-- A rule that says nothing where `c` fails still says that the command completes. -/
theorem answers_guard {s : State} {r : Except CmdError PointResult} {c : Prop} {Q : State → Prop}
    (h : c → ∃ t, finishPoint s r = .next t ∧ Q t) : ∃ t, finishPoint s r = .next t ∧ (c → Q t) := by
  by_cases hc : c
  · obtain ⟨t, ht, hQ⟩ := h hc
    exact ⟨t, ht, fun _ => hQ⟩
  · obtain ⟨t, ht⟩ := finishPoint_next s r
    exact ⟨t, ht, fun h => absurd h hc⟩

/-- A command whose formulas have a value writes it. -/
theorem answers_point {s : State} {d : Fin 4} {v : Option Affine} {q : Affine} {r : Point} {input : CommandInput} (hv : v = some q)
    (hq : pointOf q = r) : ∃ t, finishPoint s (.ok ⟨d, v, input⟩) = .next t ∧ t = s.pointDone d r :=
  ⟨_, hv ▸ finishPoint_some s d q input, by rw [hq]⟩

/-- `o` is the completion of a command that has passed its checks with destination `d` and value `v`. -/
def CompletesWith (s : State) (d : Fin 4) (v : Option Affine) (o : Outcome) : Prop :=
  ∃ input : CommandInput, input.p = s.prm.p.toNat ∧ o = finishPoint s (.ok ⟨d, v, input⟩)

theorem CompletesWith.point {s : State} {d : Fin 4} {v : Option Affine} {q : Affine} {o : Outcome} (h : CompletesWith s d v o)
    (hv : v = some q) : o = .next (s.pointDone d (pointOf q)) := by
  obtain ⟨input, -, rfl⟩ := h
  rw [hv, finishPoint_some]

theorem CompletesWith.unspecified {s : State} {d : Fin 4} {v : Option Affine} {o : Outcome} (h : CompletesWith s d v o)
    (hm : GoodModulus s.prm.p.toNat) (hv : v = none) : ∃ t, o = .next t ∧ Unspecified s d t := by
  obtain ⟨input, hp, rfl⟩ := h
  rw [hv]
  exact missingInverse_unspecified d hp (by omega)

section
variable {s : State} {i j : Fin 4} (hm : GoodModulus s.prm.p.toNat) (ha : s.prm.a.toNat < s.prm.p.toNat)
  (hi : InRange s.prm.p.toNat s.points[i]) (hj : InRange s.prm.p.toNat s.points[j])
include hm ha hi

theorem exec_pdbl_completesWith (d : Fin 4) :
    CompletesWith s d (affineDbl s.prm.p.toNat s.prm.a.toNat (affineOf s.points[i])) (exec (.pdbl (pointReg d) (pointReg i)) s) := by
  rw [exec_pdbl, if_neg (not_not.2 hm), if_neg (not_not.2 ha), if_neg (not_not.2 hi)]
  exact ⟨_, rfl, rfl⟩

theorem exec_pmul_completesWith (d : Fin 4) (rb : RegNum) :
    CompletesWith s d (scalarScan s.prm.p.toNat s.prm.a.toNat (affineOf s.points[i]) 256 s.regs[rb].toNat)
      (exec (.pmul (pointReg d) rb (pointReg i)) s) := by
  rw [exec_pmul, if_neg (not_not.2 hm), if_neg (not_not.2 ha), if_neg (not_not.2 hi)]
  exact ⟨_, rfl, rfl⟩

include hj in
theorem exec_padd_completesWith (d : Fin 4) :
    CompletesWith s d (affineAdd s.prm.p.toNat s.prm.a.toNat (affineOf s.points[i]) (affineOf s.points[j]))
      (exec (.padd (pointReg d) (pointReg i) (pointReg j)) s) := by
  rw [exec_padd, if_neg (not_not.2 hm), if_neg (not_not.2 ha), if_neg (not_not.2 ⟨hi, hj⟩)]
  exact ⟨_, rfl, rfl⟩

end

/-! ### PADD, PDBL and PMUL (R162, R164, R174) -/

/-- Settles O24: three checks, then infinity, or for a prime p the tangent. -/
theorem pdblRule : Obligations.PdblRule := by
  intro s d i
  rw [exec_pdbl]
  refine answers_check fun hm => answers_check fun _ => answers_check fun hr =>
    answers_cases (fun h => answers_point (affineDbl_eq_inf _ _ h) rfl) fun h => answers_guard fun hp => ?_
  obtain ⟨hi, hy⟩ := not_or.1 h
  have hlt := s.prm.p.isLt
  have hg := gcd_two_mul hp hm.2 (hr.resolve_left hi).2 (BitVec.toNat_ne.1 hy)
  obtain ⟨lam, x3, y3, hd, hx3, hy3, hlam, hcx, hcy⟩ :=
    affineDbl_spec (a := s.prm.a.toNat) (x := s.points[i].x.toNat) hp.one_lt hlt.le (BitVec.toNat_ne.1 hy) hg
  rw [affineOf_finite (Bool.eq_false_iff.2 hi), hd, finishPoint_some]
  exact ⟨_, rfl, lam, x3, y3, hx3, hy3, hlam, hcx, hcy, rfl⟩

/-- Settles O23: three checks, then the cases of `affineAdd`. -/
theorem paddRule : Obligations.PaddRule := by
  intro s d i j
  rw [exec_padd]
  refine answers_check fun hm => answers_check fun ha => answers_check fun hr => ?_
  obtain ⟨hri, hrj⟩ := hr
  have hlt := s.prm.p.isLt
  refine answers_cases (fun h => ?_) fun hboth => answers_cases (fun hi => ?_) fun hi => answers_cases (fun hj => ?_) fun hj => ?_
  · refine answers_point (q := .inf) ?_ rfl
    rw [affineOf_infinite h.1, affineOf_infinite h.2, affineAdd_inf_left]
  · have hj : s.points[j].inf = false := Bool.eq_false_iff.2 fun hj => hboth ⟨hi, hj⟩
    rw [affineOf_infinite hi, affineAdd_inf_left]
    exact answers_point rfl (pointOf_affineOf_finite hj)
  · rw [affineOf_infinite hj, affineAdd_inf_right]
    exact answers_point rfl (pointOf_affineOf_finite (Bool.eq_false_iff.2 hi))
  · refine answers_cases (fun heq => answers_guard fun hg => ?_) fun hne => ?_
    · obtain ⟨q, hq⟩ := affineDbl_exists s.prm.a.toNat (by omega) hlt.le (.inr hg)
      rw [← heq, affineAdd_self, hq, finishPoint_some]
      exact ⟨_, rfl, (exec_pdbl_completesWith hm ha hri d).point hq⟩
    rw [Bool.not_eq_true] at hi hj
    rw [affineOf_finite hi, affineOf_finite hj]
    refine answers_cases (fun hx => ?_) fun hx => answers_guard fun hp => ?_
    · have hy : s.points[i].y.toNat ≠ s.points[j].y.toNat := fun hy =>
        hne (register_eq hx (BitVec.eq_of_toNat_eq hy) (hi.trans hj.symm))
      rw [hx]
      exact answers_point (affineAdd_opposite _ _ _ hy) rfl
    · have hx := BitVec.toNat_ne.1 hx
      have hg := gcd_sub hp (inRange_finite hri hi).1 (inRange_finite hrj hj).1 hx
      obtain ⟨lam, x3, y3, hc, hx3, hy3, hlam, hcx, hcy⟩ := affineAdd_spec (a := s.prm.a.toNat) (y1 := s.points[i].y.toNat)
        (y2 := s.points[j].y.toNat) hp.one_lt hlt.le hx hg
      rw [hc, finishPoint_some]
      exact ⟨_, rfl, lam, x3, y3, hx3, hy3, hlam, hcx, hcy, rfl⟩

/-- Settles O28: three checks, and for a prime p the accumulators of the scan. -/
theorem pmulRule : Obligations.PmulRule := by
  intro s d i rb
  rw [exec_pmul]
  refine answers_check fun hm => answers_check fun _ => answers_check fun hr => answers_guard fun hp => ?_
  have hlt := s.prm.p.isLt
  have hscan bits k := (scalarScan_prime (a := s.prm.a.toNat) hp hm.2 hlt.le (affineOf_below hr) bits k).imp fun _ h => h.1
  obtain ⟨r, hr⟩ := hscan 256 s.regs[rb].toNat
  have hlast : scanAcc s.prm.p.toNat s.prm.a.toNat (affineOf s.points[i]) s.regs[rb].toNat 256 = r := by
    rw [scanAcc, Nat.sub_self, pow_zero, Nat.div_one, hr]; rfl
  rw [hr, finishPoint_some]
  exact ⟨_, rfl, _, rfl, fun n => scanAcc_round hscan, by rw [hlast]⟩

/-- Settles O29: the scans of 0, 1 and 2, and the scan of infinity, from their own lemmas. -/
theorem pmulSmallScalars : Obligations.PmulSmallScalars := by
  intro s d i rb hm ha hr
  have hpmul := exec_pmul_completesWith hm ha hr d rb
  refine ⟨fun h => hpmul.point (q := .inf) ?_, fun h1 hi => ?_, fun h2 hg => ?_⟩
  · rcases h with h0 | hi
    · rw [h0]
      exact scalarScan_zero _ _ _ 256
    · rw [affineOf_infinite hi, scalarScan_inf]
  · rw [h1] at hpmul
    rw [hpmul.point (scalarScan_one _ _ _ 255), pointOf_affineOf_finite hi]
  · obtain ⟨q, hq⟩ := affineDbl_exists s.prm.a.toNat (by omega) s.prm.p.isLt.le hg
    rw [h2] at hpmul
    rw [hpmul.point ((scalarScan_two _ _ _ 254).trans hq), (exec_pdbl_completesWith hm ha hr d).point hq]

/-- Settles O30: the register represents a point of the group, and the scan its multiple. -/
theorem pmulIsGroupMultiple : Obligations.PmulIsGroupMultiple := by
  rintro s p _ d i rb rfl ⟨hprime, -, h3, ha, -, -, -, -, -, -, hsmooth⟩ hi hc
  have hm : GoodModulus s.prm.p.toNat := ⟨hprime.eq_two_or_odd.resolve_left (by omega), h3.le⟩
  have hlt := s.prm.p.isLt
  obtain ⟨q, hq⟩ := represents_register h3.le hsmooth hi hc
  obtain ⟨r, hscan, hr⟩ := represents_scan h3.le hlt.le hq 256 s.regs[rb].toNat s.regs[rb].isLt
  rw [pointOnCurve_eq, decide_eq_true_eq] at hc
  obtain ⟨hx, hy, -⟩ := hc
  exact ⟨q, r, hq, hr, (exec_pmul_completesWith hm ha (.inr ⟨hx, hy⟩) d rb).point hscan⟩

/-! ### Missing inverses (U1) -/

/-- Settles O31: where the formulas have no value the completion is unspecified. -/
theorem missingInverseStillCompletes : Obligations.MissingInverseStillCompletes := by
  intro s d i j rb hm ha hri hrj hi hj
  have hp : 1 < s.prm.p.toNat := by omega
  have hlt := s.prm.p.isLt
  have hpadd := exec_padd_completesWith hm ha hri hrj d
  have hpmul := exec_pmul_completesWith hm ha hri d rb
  refine ⟨fun hx hg => hpadd.unspecified hm ?_, fun hy hg => ?_, hpmul.unspecified hm⟩
  · rw [affineOf_finite hi, affineOf_finite hj]
    exact affineAdd_none hp hlt.le (BitVec.toNat_ne.1 hx) hg
  · have hnone : affineDbl s.prm.p.toNat s.prm.a.toNat (affineOf s.points[i]) = none := by
      rw [affineOf_finite hi]
      exact affineDbl_none hp hlt.le (BitVec.toNat_ne.1 hy) hg
    refine ⟨(exec_pdbl_completesWith hm ha hri d).unspecified hm hnone, fun heq => hpadd.unspecified hm ?_,
      fun h2 => hpmul.unspecified hm (scalarScan_dbl_none hnone 256 _ h2 s.regs[rb].isLt)⟩
    rw [← heq, affineAdd_self, hnone]

theorem checkedModulus_eq_ok {m p : Nat} (h : checkedModulus m = .ok p) : GoodModulus m ∧ m = p := by
  unfold checkedModulus at h
  split at h
  · exact ⟨‹_›, Except.ok.inj h⟩
  · cases h

theorem sourcePoint_below {p : Nat} {r : Point} {x : Affine} (h : sourcePoint p r = .ok x) : x.Below p := by
  rw [sourcePoint_eq] at h
  split at h
  · exact Except.ok.inj h ▸ affineOf_below ‹_›
  · cases h

/-- A command that has passed the checks of R160 has a good modulus and a reduced source. -/
theorem pointChecks_ok {m : Nat} {v : Word} {r : Point} {k : Nat → Nat → Affine → Except CmdError PointResult} {q : PointResult}
    (h : (checkedModulus m >>= fun p => residue p v >>= fun a => sourcePoint p r >>= k p a) = .ok q) :
    ∃ a x, GoodModulus m ∧ x.Below m ∧ k m a x = .ok q := by
  obtain ⟨p, hp, h⟩ := bind_eq_ok h
  obtain ⟨a, -, h⟩ := bind_eq_ok h
  obtain ⟨x, hx, h⟩ := bind_eq_ok h
  obtain ⟨hm, rfl⟩ := checkedModulus_eq_ok hp
  exact ⟨a, x, hm, sourcePoint_below hx, h⟩

/-- A point command whose formulas have a value wherever its checks pass has no unspecified outcome. -/
theorem finishPoint_draws {s t : State} {r : Except CmdError PointResult} (hr : ∀ q, r = .ok q → ∃ v, q.value = some v)
    (h : finishPoint s r = .next t) : t.draws = s.draws := by
  rcases finishPoint_cases h with ⟨e, -, rfl⟩ | ⟨j, q, input, -, rfl⟩ | ⟨j, input, hq, -⟩
  · rfl
  · rfl
  · obtain ⟨v, hv⟩ := hr _ hq
    cases hv

/-- Settles O32: only three commands need an inverse, and for a prime p their formulas have a value. -/
theorem primeModulusUsesNoFreeValue : Obligations.PrimeModulusUsesNoFreeValue := by
  intro i s t hp h
  have hlt := s.prm.p.isLt
  cases i with
  | padd pd pa pb =>
    refine finishPoint_draws (fun q hq => ?_) h
    iterate 3 obtain ⟨_, -, hq⟩ := bind_eq_ok hq
    obtain ⟨a, x, hm, hx, hq⟩ := pointChecks_ok hq
    obtain ⟨y, hy, hq⟩ := bind_eq_ok hq
    cases hq
    exact (affineAdd_prime hp hm.2 hlt.le hx (sourcePoint_below hy)).imp fun _ h => h.1
  | pdbl pd pa =>
    refine finishPoint_draws (fun q hq => ?_) h
    iterate 2 obtain ⟨_, -, hq⟩ := bind_eq_ok hq
    obtain ⟨a, x, hm, hx, hq⟩ := pointChecks_ok hq
    cases hq
    exact (affineDbl_prime hp hm.2 hlt.le hx).imp fun _ h => h.1
  | pmul pd rb pa =>
    refine finishPoint_draws (fun q hq => ?_) h
    iterate 2 obtain ⟨_, -, hq⟩ := bind_eq_ok hq
    obtain ⟨a, x, hm, hx, hq⟩ := pointChecks_ok hq
    obtain ⟨v, hv, -⟩ := scalarScan_prime (a := a) hp hm.2 hlt.le hx 256 s.regs[rb].toNat
    exact ⟨v, by rw [← Except.ok.inj hq, hv]⟩
  | _ =>
    obtain ⟨d, st, -, rfl⟩ := exec_write_of_no_inverse rfl h
    rw [State.setStatus_draws, State.write_draws]

end Sys2Proof.Machine

/-! ## The point codec (R190 to R198)

PENCU and PENCC differ only in the bytes they write (`finish_encodable`). PDEC is two checks and `decodePoint`, whose outcome for each
form of the encoding is an equation of its own; the round trip joins what the encoders spell to these equations. -/

namespace Sys2Proof.Machine

/-! ### The encoders (R192, R194) -/

/-- The state after an encoder that wrote these bytes and this length: ENCBUF, ENCLEN and STATUS differ, all flags 0. -/
def State.encodingDone (s : State) (buf : Vector Byte 65) (len : BitVec 7) : State :=
  { s with encbuf := buf, enclen := len, status := doneStatus s ⟨false, false, false⟩ }

/-- An encoder after the check of the modulus: a point that can be encoded, or one of two errors (R192, R194). -/
theorem finish_encodable (s : State) (r : Point) (buf : Vector Byte 65) (len : BitVec 7) :
    finish s (encodable s.prm.p.toNat r >>= fun _ => .ok ⟨.encoding buf len, Flags.none⟩) = .next (
      if r.inf then s.failed .invalidPoint
      else if s.prm.p.toNat ≤ r.x.toNat ∨ s.prm.p.toNat ≤ r.y.toNat then s.failed .operandRange
      else s.encodingDone buf len) := by
  unfold encodable
  by_cases hi : r.inf
  · rw [if_pos hi, if_pos hi]; rfl
  rw [if_neg hi, if_neg hi]
  by_cases hr : r.x.toNat < s.prm.p.toNat ∧ r.y.toNat < s.prm.p.toNat
  · rw [if_pos hr, if_neg (by omega)]; rfl
  · rw [if_neg hr, if_pos (by omega)]; rfl

theorem exec_pencu (s : State) (i : Fin 4) :
    exec (.pencu (pointReg i)) s = .next (
      if ¬ GoodModulus s.prm.p.toNat then s.failed .badModulus
      else if s.points[i].inf then s.failed .invalidPoint
      else if s.prm.p.toNat ≤ s.points[i].x.toNat ∨ s.prm.p.toNat ≤ s.points[i].y.toNat then s.failed .operandRange
      else s.encodingDone (encodeFull s.points[i].x s.points[i].y) 65#7) := by
  simp only [exec, execPencu, pointIndex_pointReg_bind]
  exact finish_check rfl fun _ => finish_encodable s _ _ _

theorem exec_pencc (s : State) (i : Fin 4) :
    exec (.pencc (pointReg i)) s = .next (
      if ¬ GoodModulus s.prm.p.toNat then s.failed .badModulus
      else if s.points[i].inf then s.failed .invalidPoint
      else if s.prm.p.toNat ≤ s.points[i].x.toNat ∨ s.prm.p.toNat ≤ s.points[i].y.toNat then s.failed .operandRange
      else s.encodingDone (encodeShort s.points[i].x s.points[i].y) 33#7) := by
  simp only [exec, execPencc, pointIndex_pointReg_bind]
  exact finish_check rfl fun _ => finish_encodable s _ _ _

theorem encodeFull_firstByte (x y : Word) : (encodeFull x y)[0] = 0x04#8 := by simp [encodeFull]

/-- The first byte of the compressed form is 2 for an even y and 3 for an odd one (R190). -/
theorem encodeShort_firstByte (x y : Word) : (encodeShort x y)[0] = if y.toNat % 2 = 0 then 0x02#8 else 0x03#8 := by
  rw [encodeShort, Vector.getElem_ofFn, if_pos rfl]
  rcases Nat.mod_two_eq_zero_or_one y.toNat with h | h <;> rw [h] <;> rfl

/-- The compressed form leaves no byte of y behind (R194). -/
theorem encodeShort_tail (x y : Word) {k : Fin 65} (hk : 33 ≤ k.val) : (encodeShort x y)[k] = 0x00#8 := by
  rw [encodeShort, Fin.getElem_fin, Vector.getElem_ofFn, if_neg (show k.val ≠ 0 by omega), if_neg (show ¬ k.val ≤ 32 by omega)]

/-- Settles O33: the bytes are those of `encodeFull`. -/
theorem pencuRule : Obligations.PencuRule := fun s i =>
  have ⟨hx, hy⟩ := encodeFull_spells s.points[i].x s.points[i].y
  ⟨_, encodeFull_firstByte _ _, hx, hy, exec_pencu s i⟩

/-- Settles O34: the bytes are those of `encodeShort`. -/
theorem penccRule : Obligations.PenccRule := fun s i =>
  ⟨_, encodeShort_firstByte _ _, encodeShort_spells _ _, fun _ => encodeShort_tail _ _, exec_pencc s i⟩

/-! ### The decoder by its two forms (R196) -/

theorem decodePoint_full {p a b x y : Nat} {len : BitVec 7} {buf : Vector Byte 65} (hl : len = 65#7) (ht : buf[0] = 0x04#8)
    (hx : Spells buf 1 x) (hy : Spells buf 33 y) : decodePoint p a b len buf = decodeFull p a b x y := by
  rw [decodePoint, if_pos ⟨hl, ht⟩, encodedX_of_spells hx, encodedY_of_spells hy]

theorem decodePoint_short {p a b x : Nat} {len : BitVec 7} {buf : Vector Byte 65} (hl : len = 33#7)
    (ht : buf[0] = 0x02#8 ∨ buf[0] = 0x03#8) (hx : Spells buf 1 x) :
    decodePoint p a b len buf = decodeShort p a b buf[0].toNat x := by
  have hfull : ¬ (len = 65#7 ∧ buf[0] = 0x04#8) := by rw [hl]; exact fun h => absurd h.1 (by decide)
  rw [decodePoint, if_neg hfull, if_pos ⟨hl, ht⟩, encodedX_of_spells hx]

theorem decodePoint_other {p a b : Nat} {len : BitVec 7} {buf : Vector Byte 65} (hfull : ¬ (len = 65#7 ∧ buf[0] = 0x04#8))
    (hshort : ¬ (len = 33#7 ∧ (buf[0] = 0x02#8 ∨ buf[0] = 0x03#8))) : decodePoint p a b len buf = .error .invalidEncoding := by
  rw [decodePoint, if_neg hfull, if_neg hshort]

/-- The state PDEC leaves for the outcome of the decoding (R196, R246). -/
def State.decoded (s : State) (d : Fin 4) : Except CmdError Affine → State
  | .error e => s.failed e
  | .ok q => s.pointDone d (pointOf q)

theorem State.decoded_error (s : State) (d : Fin 4) (e : CmdError) : s.decoded d (.error e) = s.failed e := rfl

theorem State.decoded_pt (s : State) (d : Fin 4) (x y : Nat) :
    s.decoded d (.ok (.pt x y)) = s.pointDone d ⟨BitVec.ofNat 256 x, BitVec.ofNat 256 y, false⟩ := rfl

/-- PDEC is two checks and the outcome of the decoding (R193, R196). -/
theorem exec_pdec_decoded (s : State) (d : Fin 4) :
    exec (.pdec (pointReg d)) s = .next (
      if ¬ GoodModulus s.prm.p.toNat then s.failed .badModulus
      else if ¬ (s.prm.a.toNat < s.prm.p.toNat ∧ s.prm.b.toNat < s.prm.p.toNat) then s.failed .operandRange
      else s.decoded d (decodePoint s.prm.p.toNat s.prm.a.toNat s.prm.b.toNat s.enclen s.encbuf)) := by
  have hfinish (r : Except CmdError Affine) : finish s (r.map fun q => pointSuccess d (pointOf q)) = .next (s.decoded d r) := by
    cases r with
    | error e => rfl
    | ok q => exact finish_pointSuccess s d q
  rw [exec_pdec, hfinish, apply_ite Host.Outcome.next, apply_ite Host.Outcome.next]

/-- Settles O37: a buffer of neither form decodes to INVALID_ENCODING. -/
theorem pdecRefusesOtherEncodings : Obligations.PdecRefusesOtherEncodings := by
  intro s d hfull hshort
  rw [exec_pdec_decoded, decodePoint_other hfull hshort, State.decoded_error]

/-! ### The uncompressed form -/

theorem decodeFull_eq (p a b x y : Nat) : decodeFull p a b x y =
    if p ≤ x ∨ p ≤ y then .error .invalidPoint
    else if y ^ 2 % p ≠ (x ^ 3 + a * x + b) % p then .error .invalidPoint
    else .ok (.pt x y) := by
  simp only [decodeFull, onCurve_iff, ne_eq, ite_not, ← not_lt, ← not_and_or]

/-- Settles O35: two checks, then the outcome of the uncompressed form. -/
theorem pdecUncompressedRule : Obligations.PdecUncompressedRule := by
  intro s d x y hl ht hx hy
  rw [exec_pdec_decoded, decodePoint_full hl ht hx hy, decodeFull_eq]
  simp only [apply_ite (s.decoded d), State.decoded_error, State.decoded_pt]

/-! ### The compressed form -/

/-- The one of the two roots c and p − c that has the parity of the first byte `t`, where c is not 0 (R196). -/
def rootOfParity (p c t : Nat) : Nat := if c % 2 = t % 2 then c else p - c

theorem chooseRoot_eq (p c t : Nat) : chooseRoot p c t = if c = 0 ∧ t % 2 = 1 then none else some (rootOfParity p c t) := by
  unfold chooseRoot rootOfParity
  by_cases hpar : c % 2 = t % 2
  · rw [if_pos hpar, if_pos hpar, if_neg (by omega)]
  rw [if_neg hpar, if_neg hpar]
  by_cases h0 : c = 0
  · rw [if_pos h0, if_pos (by omega)]
  · rw [if_neg h0, if_neg fun h => h0 h.1]

theorem rootOfParity_cases (p c t : Nat) : rootOfParity p c t = c ∨ rootOfParity p c t = p - c := ite_eq_or_eq _ _ _

/-- Either root squares to what the candidate squares to, so the last test of the compressed form cannot fail (R196). -/
theorem rootOfParity_sq {p c : Nat} (hc : c ≤ p) (t : Nat) : rootOfParity p c t ^ 2 % p = c ^ 2 % p := by
  rcases rootOfParity_cases p c t with h | h
  · rw [h]
  · rw [h, sq_sub_mod hc]

/-- For an odd p the root is a residue of the parity asked for: p − c has the other parity than c. -/
theorem rootOfParity_spec {p c t : Nat} (hp : p % 2 = 1) (hc : c < p) (h0 : ¬ (c = 0 ∧ t % 2 = 1)) :
    rootOfParity p c t < p ∧ rootOfParity p c t % 2 = t % 2 := by
  unfold rootOfParity
  split <;> omega

theorem decodeShort_eq {p a b t x w c : Nat} (hp : p < 2 ^ 256) (hw : w = (x ^ 3 + a * x + b) % p) (hc : c = w ^ ((p + 1) / 4) % p) :
    decodeShort p a b t x =
      if p % 4 ≠ 3 then .error .badModulus
      else if p ≤ x then .error .invalidPoint
      else if c ^ 2 % p ≠ w then .error .invalidPoint
      else if c = 0 ∧ t % 2 = 1 then .error .invalidPoint
      else .ok (.pt x (rootOfParity p c t)) := by
  rw [decodeShort, curveRhs_eq, ← hw, rootCandidate_eq w hp, ← hc, ← pow_two, chooseRoot_eq]
  simp only [ne_eq, ite_not, ← not_lt]
  split_ifs with h4 hx hsq h0
  · rfl
  · have hlt : c < p := hc ▸ Nat.mod_lt _ (by omega)
    exact if_pos ((onCurve_iff ..).2 (by rw [rootOfParity_sq hlt.le, hsq, hw]))
  all_goals rfl

/-- Settles O36: two checks, then the outcome of the compressed form. -/
theorem pdecCompressedRule : Obligations.PdecCompressedRule := by
  intro s d x w c hl ht hx hw hc
  have hodd : s.encbuf[0] = 0x03#8 ↔ s.encbuf[0].toNat % 2 = 1 := by rcases ht with h | h <;> rw [h] <;> decide
  refine ⟨_, exec_pdec_decoded s d, ?_⟩
  rw [decodePoint_short hl ht hx, decodeShort_eq s.prm.p.isLt hw hc]
  simp only [hodd]
  split_ifs with hm hab h4 hxp hsq h0
  case neg =>
    have hlt : c < s.prm.p.toNat := hc ▸ Nat.mod_lt _ (by omega)
    obtain ⟨hy, hpar⟩ := rootOfParity_spec (by omega) hlt h0
    exact ⟨_, rootOfParity_cases _ _ _, hy, hpar, by rw [rootOfParity_sq hlt.le, not_not.1 hsq], rfl⟩
  all_goals rfl

/-! ### The round trip (R198) -/

/-- PDEC of a buffer that decodes to a point writes it. -/
theorem exec_pdec_ok {s : State} {d : Fin 4} {q : Affine} (hm : GoodModulus s.prm.p.toNat) (ha : s.prm.a.toNat < s.prm.p.toNat)
    (hb : s.prm.b.toNat < s.prm.p.toNat)
    (hq : decodePoint s.prm.p.toNat s.prm.a.toNat s.prm.b.toNat s.enclen s.encbuf = .ok q) :
    exec (.pdec (pointReg d)) s = .next (s.pointDone d (pointOf q)) := by
  rw [exec_pdec_decoded, if_neg (not_not.2 hm), if_neg (not_not.2 ⟨ha, hb⟩), hq, State.decoded]

theorem decodePoint_encodeFull {p a b : Nat} {x y : Word} (hx : x.toNat < p) (hy : y.toNat < p)
    (hc : y.toNat ^ 2 % p = (x.toNat ^ 3 + a * x.toNat + b) % p) :
    decodePoint p a b 65#7 (encodeFull x y) = .ok (.pt x.toNat y.toNat) := by
  obtain ⟨hsx, hsy⟩ := encodeFull_spells x y
  rw [decodePoint_full rfl (encodeFull_firstByte x y) hsx hsy, decodeFull_eq, if_neg (by omega), if_neg (not_not.2 hc)]

/-- Modulo a prime two residues with one square are equal or each other's negative. -/
theorem eq_or_add_eq_of_sq {p c y : Nat} (hp : p.Prime) (hc : c < p) (hy : y < p) (h : c ^ 2 % p = y ^ 2 % p) : c = y ∨ c + y = p := by
  have : Fact p.Prime := ⟨hp⟩
  have hsq : (c : ZMod p) ^ 2 = (y : ZMod p) ^ 2 := by exact_mod_cast (ZMod.natCast_eq_natCast_iff' _ _ p).2 h
  rcases sq_eq_sq_iff_eq_or_eq_neg.1 hsq with heq | hneg
  · exact .inl ((natCast_inj hc hy).1 heq)
  · have hdvd : p ∣ c + y := (ZMod.natCast_eq_zero_iff _ p).1 (by push_cast; rw [hneg, neg_add_cancel])
    obtain ⟨k, hk⟩ := hdvd
    have hk2 : k < 2 := lt_of_mul_lt_mul_left (show p * k < p * 2 by omega) p.zero_le
    interval_cases k <;> omega

/-- Modulo an odd prime the parity of y picks y among the roots of its square (R198). -/
theorem rootOfParity_restores {p c t y : Nat} (hp : p.Prime) (hodd : p % 2 = 1) (hc : c < p) (hy : y < p)
    (hsq : c ^ 2 % p = y ^ 2 % p) (ht : t % 2 = y % 2) : ¬ (c = 0 ∧ t % 2 = 1) ∧ rootOfParity p c t = y := by
  unfold rootOfParity
  rcases eq_or_add_eq_of_sq hp hc hy hsq with h | h
  · rw [if_pos (by omega)]; omega
  · rw [if_neg (by omega)]; omega

theorem decodePoint_encodeShort {p a b : Nat} {x y : Word} (hp : p.Prime) (h4 : p % 4 = 3) (hp256 : p < 2 ^ 256) (hx : x.toNat < p)
    (hy : y.toNat < p) (hc : y.toNat ^ 2 % p = (x.toNat ^ 3 + a * x.toNat + b) % p) :
    decodePoint p a b 33#7 (encodeShort x y) = .ok (.pt x.toNat y.toNat) := by
  have hpre := encodeShort_firstByte x y
  have ht : (encodeShort x y)[0] = 0x02#8 ∨ (encodeShort x y)[0] = 0x03#8 := hpre ▸ ite_eq_or_eq _ _ _
  have hpar : (encodeShort x y)[0].toNat % 2 = y.toNat % 2 := by
    rcases Nat.mod_two_eq_zero_or_one y.toNat with h | h <;> rw [hpre, h] <;> rfl
  have hsq := candidate_mul_self hp h4 (pow_two y.toNat ▸ hc)
  rw [← pow_two] at hsq
  obtain ⟨h0, hroot⟩ := rootOfParity_restores hp (by omega) (Nat.mod_lt _ hp.pos) hy (hsq.trans hc.symm) hpar
  rw [decodePoint_short rfl ht (encodeShort_spells x y), decodeShort_eq hp256 rfl rfl, if_neg (not_not.2 h4), if_neg (not_le.2 hx),
    if_neg (not_not.2 hsq), if_neg h0, hroot]

/-- What PCHK reports on the curve has reduced coordinates that meet the curve equation (R172). -/
theorem exec_pchk_onCurve {s c : State} {i : Fin 4} (h : exec (.pchk (pointReg i)) s = .next c) (hc : c.status.flags.onCurve = true) :
    s.points[i].x.toNat < s.prm.p.toNat ∧ s.points[i].y.toNat < s.prm.p.toNat ∧ s.points[i].y.toNat ^ 2 % s.prm.p.toNat =
      (s.points[i].x.toNat ^ 3 + s.prm.a.toNat * s.points[i].x.toNat + s.prm.b.toNat) % s.prm.p.toNat := by
  rw [pchkRule] at h
  cases h
  split at hc
  · cases hc
  split at hc
  · cases hc
  split at hc
  · cases hc
  · exact of_decide_eq_true hc

/-- Settles O38: an encoder's bytes decode to the point they were made of. -/
theorem encodeThenDecodeRestores : Obligations.EncodeThenDecodeRestores := by
  intro s c d i hv hi hchk hflag enc henc
  obtain ⟨hx, hy, hcurve⟩ := exec_pchk_onCurve hchk hflag
  have hm : GoodModulus s.prm.p.toNat := ⟨by have := hv.root; omega, hv.three.le⟩
  have hr : ¬ (s.prm.p.toNat ≤ s.points[i].x.toNat ∨ s.prm.p.toNat ≤ s.points[i].y.toNat) := by omega
  obtain ⟨buf, len, henc, hdec⟩ : ∃ buf len, exec enc s = .next (s.encodingDone buf len) ∧
      decodePoint s.prm.p.toNat s.prm.a.toNat s.prm.b.toNat len buf = .ok (affineOf s.points[i]) := by
    rw [affineOf_finite hi]
    simp only [List.mem_cons, List.not_mem_nil, or_false] at henc
    rcases henc with rfl | rfl
    · exact ⟨_, _, by rw [exec_pencc, if_neg (not_not.2 hm), if_neg (Bool.eq_false_iff.1 hi), if_neg hr],
        decodePoint_encodeShort hv.prime hv.root s.prm.p.isLt hx hy hcurve⟩
    · exact ⟨_, _, by rw [exec_pencu, if_neg (not_not.2 hm), if_neg (Bool.eq_false_iff.1 hi), if_neg hr],
        decodePoint_encodeFull hx hy hcurve⟩
  refine ⟨_, _, henc, rfl, exec_pdec_ok (s := s.encodingDone buf len) hm hv.a_lt hv.b_lt hdec, rfl, ?_⟩
  rw [State.pointDone_point, pointOf_affineOf_finite hi]

end Sys2Proof.Machine

/-! ## The internal datapath (R210 to R230)

Limbs spell numbers, so the carry and borrow chains add and subtract residues. `classImage` is the Montgomery image of a residue class:
the multiplier, the adder and the subtractor are the ring operations on such images, so a unit that computes on images computes the
image of what its formula says. The Jacobian formulas are written once over the ring of residues (`fieldDbl`, `fieldAdd`); a finite
triple leaves as the one pair it stands for (`Jacobian.Stands`), and for a prime p these formulas are then the tangent and the chord. -/

namespace Sys2Proof.Machine

/-! ### The limb-wise adder and subtractor (R211) -/

/-- A list of `n` limbs. -/
def IsLimbs (n : Nat) (l : List Nat) : Prop := l.length = n ∧ ∀ x ∈ l, x < 2 ^ 32

theorem IsLimbs.nil : IsLimbs 0 [] := ⟨rfl, fun _ h => absurd h List.not_mem_nil⟩

theorem IsLimbs.cons {n x : Nat} {l : List Nat} (hx : x < 2 ^ 32) (h : IsLimbs n l) : IsLimbs (n + 1) (x :: l) :=
  ⟨congrArg (· + 1) h.1, List.forall_mem_cons.2 ⟨hx, h.2⟩⟩

theorem natLimbs_isLimbs (v : Nat) : IsLimbs 8 (natLimbs v) :=
  ⟨rfl, by simp only [natLimbs, List.forall_mem_cons, natLimb_lt, List.not_mem_nil, false_implies, implies_true, and_self]⟩

theorem IsLimbs.concat {n x : Nat} {l : List Nat} (h : IsLimbs n l) (hx : x < 2 ^ 32) : IsLimbs (n + 1) (l ++ [x]) :=
  ⟨by rw [List.length_append, h.1]; rfl, List.forall_mem_append.2 ⟨h.2, List.forall_mem_singleton.2 hx⟩⟩

theorem ofLimbs_concat (l : List Nat) (c : Nat) : ofLimbs (l ++ [c]) = ofLimbs l + 2 ^ (32 * l.length) * c := by
  induction l with
  | nil => simp [ofLimbs]
  | cons x xs ih => rw [List.cons_append, ofLimbs, ofLimbs, ih, List.length_cons, Nat.mul_succ, pow_add]; ring

theorem IsLimbs.ofLimbs_lt {n : Nat} {l : List Nat} (h : IsLimbs n l) : ofLimbs l < 2 ^ (32 * n) := by
  obtain ⟨rfl, hl⟩ := h
  induction l with
  | nil => simp [ofLimbs]
  | cons x xs ih =>
    obtain ⟨hx, hxs⟩ := List.forall_mem_cons.1 hl
    have := ih hxs
    rw [ofLimbs, List.length_cons, Nat.mul_succ, pow_add]
    omega

theorem addLimbs_isLimbs : ∀ (a b : List Nat) (c : Nat), a.length = b.length → IsLimbs a.length (addLimbs a b c).1
  | [], [], _, _ => .nil
  | _ :: as, _ :: bs, _, h => .cons (Nat.mod_lt _ (by norm_num)) (addLimbs_isLimbs as bs _ (Nat.succ.inj h))

theorem subLimbs_isLimbs : ∀ (a b : List Nat) (c : Nat), a.length = b.length → IsLimbs a.length (subLimbs a b c).1
  | [], [], _, _ => .nil
  | _ :: as, _ :: bs, _, h => .cons (Nat.mod_lt _ (by norm_num)) (subLimbs_isLimbs as bs _ (Nat.succ.inj h))

/-- An addition of limbs is exact with its carry (R211). -/
theorem addLimbs_exact {n : Nat} {a b : List Nat} (ha : IsLimbs n a) (hb : IsLimbs n b) :
    IsLimbs n (addLimbs a b 0).1 ∧ ofLimbs (addLimbs a b 0).1 + 2 ^ (32 * n) * (addLimbs a b 0).2 = ofLimbs a + ofLimbs b := by
  obtain ⟨rfl, -⟩ := ha
  exact ⟨addLimbs_isLimbs a b 0 hb.1.symm, addLimbs_spec a b 0 hb.1.symm⟩

/-- A subtraction of limbs is exact up to its borrow, which is set where the difference would be negative (R211). -/
theorem subLimbs_exact {n : Nat} {a b : List Nat} (ha : IsLimbs n a) (hb : IsLimbs n b) :
    IsLimbs n (subLimbs a b 0).1 ∧
      (((subLimbs a b 0).2 = 0 ∧ ofLimbs b ≤ ofLimbs a ∧ ofLimbs (subLimbs a b 0).1 = ofLimbs a - ofLimbs b) ∨
      ((subLimbs a b 0).2 ≠ 0 ∧ ofLimbs a < ofLimbs b ∧ ofLimbs (subLimbs a b 0).1 = ofLimbs a + 2 ^ (32 * n) - ofLimbs b)) := by
  have hlen : a.length = b.length := ha.1.trans hb.1.symm
  have hlimbs : IsLimbs n (subLimbs a b 0).1 := ha.1 ▸ subLimbs_isLimbs a b 0 hlen
  obtain ⟨hval, hborrow⟩ := subLimbs_spec a b 0 hlen ha.2 hb.2 zero_le_one
  have hlt := hlimbs.ofLimbs_lt
  rw [ha.1] at hval
  refine ⟨hlimbs, ?_⟩
  generalize (subLimbs a b 0).2 = borrow at *
  interval_cases borrow <;> omega

/-- The carry chain with its carry as a ninth limb spells the sum (R211). -/
theorem addLimbs_ninthLimb {a b : Nat} (ha : a < 2 ^ 256) (hb : b < 2 ^ 256) :
    IsLimbs 9 ((addLimbs (natLimbs a) (natLimbs b) 0).1 ++ [(addLimbs (natLimbs a) (natLimbs b) 0).2]) ∧
      ofLimbs ((addLimbs (natLimbs a) (natLimbs b) 0).1 ++ [(addLimbs (natLimbs a) (natLimbs b) 0).2]) = a + b := by
  obtain ⟨hlimbs, hval⟩ := addLimbs_exact (natLimbs_isLimbs a) (natLimbs_isLimbs b)
  rw [ofLimbs_natLimbs ha, ofLimbs_natLimbs hb] at hval
  exact ⟨hlimbs.concat (by omega), by rw [ofLimbs_concat, hlimbs.1, hval]⟩

theorem addUnit_eq {a b m : Nat} (hm : m < 2 ^ 256) (ha : a < m) (hb : b < m) : addUnit a b m = (a + b) % m := by
  obtain ⟨hlimbs, hsum⟩ := addLimbs_ninthLimb (ha.trans hm) (hb.trans hm)
  have hmod : ofLimbs (natLimbs m ++ [0]) = m := by rw [ofLimbs_concat, ofLimbs_natLimbs hm, Nat.mul_zero, Nat.add_zero]
  obtain ⟨-, hcases⟩ := subLimbs_exact hlimbs ((natLimbs_isLimbs m).concat (by norm_num : 0 < 2 ^ 32))
  rw [hsum, hmod] at hcases
  simp only [addUnit, hsum]
  rcases hcases with ⟨hborrow, hle, hval⟩ | ⟨hborrow, hlt, -⟩
  · rw [if_pos hborrow, hval, Nat.mod_eq_sub_mod hle, Nat.mod_eq_of_lt (by omega)]
  · rw [if_neg hborrow, Nat.mod_eq_of_lt hlt]

theorem subUnit_eq {a b m : Nat} (hm : m < 2 ^ 256) (ha : a < m) (hb : b < m) : subUnit a b m = (a + (m - b)) % m := by
  obtain ⟨hlimbs, hcases⟩ := subLimbs_exact (natLimbs_isLimbs a) (natLimbs_isLimbs b)
  rw [ofLimbs_natLimbs (ha.trans hm), ofLimbs_natLimbs (hb.trans hm)] at hcases
  simp only [subUnit]
  rcases hcases with ⟨hborrow, hle, hval⟩ | ⟨hborrow, hlt, hval⟩
  · rw [if_pos hborrow, hval, Nat.mod_eq_sub_mod (by omega), Nat.mod_eq_of_lt (by omega)]
    omega
  · obtain ⟨hback, hsum⟩ := addLimbs_exact hlimbs (natLimbs_isLimbs m)
    have hbound := hback.ofLimbs_lt
    rw [hval, ofLimbs_natLimbs hm] at hsum
    rw [if_neg hborrow, Nat.mod_eq_of_lt (by omega)]
    omega

/-! ### The byte shuffles of the encoders (R230, R67) -/

/-- A byte of a limb is a byte of the coordinate (R230). -/
theorem shuffleByte_eq_beByte (v : Word) {k : Nat} (hk : k < 32) : shuffleByte v k = beByte v k := by
  have hplace (i : Nat) : 32 * (7 - k / 4) + (8 * (3 - k % 4) + i) = 8 * (31 - k) + i := by omega
  refine BitVec.eq_of_getLsbD_eq fun i hi => ?_
  simp only [shuffleByte, limbOf, beByte, BitVec.getLsbD_extractLsb', hplace]
  simp [show 8 * (3 - k % 4) + i < 32 by omega]

theorem shuffleFull_eq_encodeFull (x y : Word) : shuffleFull x y = encodeFull x y := by
  refine congrArg Vector.ofFn (funext fun k => ?_)
  simp only [Nat.lt_succ_iff (n := 32)]
  refine ite_congr rfl (fun _ => rfl) fun h0 => ite_congr rfl (fun _ => ?_) fun _ => ?_
  · exact shuffleByte_eq_beByte x (by omega)
  · exact shuffleByte_eq_beByte y (by omega)

/-- The first byte takes the low bit of Y (R190, R230). -/
theorem lowBit_eq_parity (y : Word) : ((limbOf y 0).extractLsb' 0 1).setWidth 8 = BitVec.ofNat 8 (y.toNat % 2) := by
  apply BitVec.eq_of_toNat_eq
  simp only [limbOf, BitVec.toNat_setWidth, BitVec.extractLsb'_toNat, BitVec.toNat_ofNat, Nat.mul_zero, Nat.shiftRight_zero]
  omega

theorem shuffleShort_eq_encodeShort (x y : Word) : shuffleShort x y = encodeShort x y := by
  refine congrArg Vector.ofFn (funext fun k => ?_)
  simp only [Nat.lt_succ_iff (n := 32), lowBit_eq_parity]
  exact ite_congr rfl (fun _ => rfl) fun h0 => ite_congr rfl (fun _ => shuffleByte_eq_beByte x (by omega)) fun _ => rfl

/-- Byte j of limb k, counted from the most significant, is byte 4(7 − k) + j of the coordinate (R10, R67). -/
theorem Spells.limbByte {buf : Vector Byte 65} {start v k j : Nat} (h : Spells buf start v) (hk : k < 8) (hj : j < 4) :
    buf[start + 4 * (7 - k) + j]? = some (BitVec.ofNat 8 (v / 2 ^ (32 * k + 8 * (3 - j)))) := by
  have hbyte := h.2 (4 * (7 - k) + j) (by omega)
  rwa [← Nat.add_assoc, show 8 * (31 - (4 * (7 - k) + j)) = 32 * k + 8 * (3 - j) by omega] at hbyte

/-- Settles O55: the chains are exact up to carry and borrow, and the shuffles are the encodings, byte by byte. -/
theorem limbUnitsRefine : Obligations.LimbUnitsRefine := by
  refine ⟨fun a b m hm ha hb => ⟨addUnit_eq hm ha hb, subUnit_eq hm ha hb⟩,
    fun v k hk => (shuffleByte_eq_beByte v hk).trans (beByte_eq v k), fun x y k j hk hj => ?_,
    fun x y => ⟨shuffleFull_eq_encodeFull x y, shuffleShort_eq_encodeShort x y⟩⟩
  obtain ⟨hx, hy⟩ := encodeFull_spells x y
  rw [shuffleFull_eq_encodeFull, shuffleShort_eq_encodeShort]
  exact ⟨hx.limbByte hk hj, hy.limbByte hk hj, (encodeShort_spells x y).limbByte hk hj⟩

/-! ### The Montgomery multiplier (R213, R214) -/

theorem GoodModulus.neZero {m : Nat} (hm : GoodModulus m) : NeZero m := ⟨by omega⟩

theorem montAcc_lt {a m : Nat} (hodd : m % 2 = 1) (ha : a < m) (b : Nat) : ∀ i, montAcc a b m i < 2 * m
  | 0 => by rw [montAcc]; omega
  | i + 1 => montReduce_lt hodd ha (natLimb_lt b i) (montAcc_lt hodd ha b i)

/-- `Rm` of R212 as a residue class. -/
def radix (m : Nat) : ZMod m := (2 ^ 256 : Nat)

theorem isUnit_radix {m : Nat} (hm : GoodModulus m) : IsUnit (radix m) :=
  (ZMod.isUnit_iff_coprime _ _).2 (Nat.Coprime.symm (coprime_two_pow hm 256))

/-- A congruence that defines a Montgomery product, in the ring of residues (R126). -/
theorem radix_mul_of_modEq {a b m r : Nat} (h : 2 ^ 256 * r ≡ a * b [MOD m]) : radix m * r = a * b := by
  rw [radix, ← Nat.cast_mul, ← Nat.cast_mul]
  exact (ZMod.natCast_eq_natCast_iff _ _ m).2 h

/-- The Montgomery image of a residue class (R212). -/
def classImage {m : Nat} (u : ZMod m) : Nat := (u * radix m).val

theorem montRR_eq (m : Nat) : montRR m = (2 ^ 256) ^ 2 % m := by rw [montRR, ← pow_mul]

theorem montRR_lt {m : Nat} (hm : GoodModulus m) : montRR m < m := Nat.mod_lt _ (by omega)

theorem montImage_eq (x m : Nat) : montImage x m = classImage (x : ZMod m) := by
  rw [montImage, classImage, ← ZMod.val_natCast, Nat.cast_mul, radix]

section
variable {m : Nat} (hm : GoodModulus m)
include hm

theorem classImage_lt (u : ZMod m) : classImage u < m :=
  have := hm.neZero
  ZMod.val_lt _

theorem classImage_cast (u : ZMod m) : ((classImage u : Nat) : ZMod m) = u * radix m :=
  have := hm.neZero
  ZMod.natCast_zmod_val _

theorem classImage_inj {u v : ZMod m} : classImage u = classImage v ↔ u = v :=
  have := hm.neZero
  (ZMod.val_injective m).eq_iff.trans (isUnit_radix hm).mul_left_inj

/-- The tests for zero can be made on images (R214). -/
theorem classImage_eq_zero {u : ZMod m} : classImage u = 0 ↔ u = 0 := by
  rw [classImage, ZMod.val_eq_zero, (isUnit_radix hm).mul_left_eq_zero]

/-- The multiplier's result is the one residue that 2^256 multiplies to the product (R213). -/
theorem montUnit_eq_of_cast {a b r : Nat} (ha : a < m) (hb' : b < 2 ^ 256) (hr : r < m) (h : radix m * r = a * b) :
    montUnit a b m = r := by
  obtain ⟨hlt, hmod⟩ := montUnit_spec hm.1 ha hb'
  exact (natCast_inj hlt hr).1 ((isUnit_radix hm).mul_left_cancel ((radix_mul_of_modEq hmod).trans h.symm))

/-- One pass with 1 converts an image back to its residue (R214). -/
theorem ofImage_classImage (u : ZMod m) : ofImage (classImage u) m = u.val := by
  have := hm.neZero
  refine montUnit_eq_of_cast hm (classImage_lt hm u) (by norm_num) (ZMod.val_lt u) ?_
  rw [classImage_cast hm, ZMod.natCast_zmod_val, Nat.cast_one, mul_one, mul_comm]

variable (hb : m < 2 ^ 256)
include hb

theorem montUnit_eq_montMod {a b : Nat} (ha : a < m) (hb' : b < m) : montUnit a b m = montMod a b m :=
  montUnit_eq_of_cast hm ha (hb'.trans hb) (montMod_lt hm) (radix_mul_of_modEq (montMod_modEq hm hb.le a b))

theorem mulUnit_eq {a b : Nat} (ha : a < m) (hb' : b < m) : mulUnit a b m = a * b % m := by
  rw [mulUnit, montUnit_eq_montMod hm hb ha hb', montUnit_eq_montMod hm hb (montMod_lt hm) (montRR_lt hm), montRR_eq]
  exact montgomeryProductRelation a b m hm hb ha hb'

/-- One pass with RR converts a residue to its image (R214). -/
theorem toImage_eq {x : Nat} (hx : x < m) : toImage x m = classImage (x : ZMod m) := by
  refine montUnit_eq_of_cast hm hx ((montRR_lt hm).trans hb) (classImage_lt hm _) ?_
  rw [classImage_cast hm, montRR_eq, ZMod.natCast_mod, Nat.cast_pow, ← radix]
  ring

theorem montUnit_classImage (u v : ZMod m) : montUnit (classImage u) (classImage v) m = classImage (u * v) := by
  refine montUnit_eq_of_cast hm (classImage_lt hm u) ((classImage_lt hm v).trans hb) (classImage_lt hm _) ?_
  simp only [classImage_cast hm]
  ring

theorem addUnit_classImage (u v : ZMod m) : addUnit (classImage u) (classImage v) m = classImage (u + v) := by
  have := hm.neZero
  rw [addUnit_eq hb (classImage_lt hm u) (classImage_lt hm v), classImage, classImage, ← ZMod.val_add, ← add_mul, classImage]

theorem subUnit_classImage (u v : ZMod m) : subUnit (classImage u) (classImage v) m = classImage (u - v) := by
  have hv := classImage_lt hm v
  rw [subUnit_eq hb (classImage_lt hm u) hv, ← natCast_inj (Nat.mod_lt _ (by omega)) (classImage_lt hm _), ZMod.natCast_mod,
    Nat.cast_add, Nat.cast_sub hv.le, ZMod.natCast_self]
  simp only [classImage_cast hm]
  ring

end

/-- Settles O56: on images the multiplier is the product of residue classes. -/
theorem montgomeryUnitRefines : Obligations.MontgomeryUnitRefines := by
  intro a b m hm hb ha hb'
  have hab : a * b % m < m := Nat.mod_lt _ (by omega)
  rw [toImage_eq hm hb ha, toImage_eq hm hb hb', toImage_eq hm hb hab]
  refine ⟨fun i _ => montAcc_lt hm.1 ha b i, montUnit_eq_montMod hm hb ha hb', mulUnit_eq hm hb ha hb', (montImage_eq a m).symm, ?_, ?_⟩
  · rw [ofImage_classImage hm, ZMod.val_natCast, Nat.mod_eq_of_lt ha]
  · rw [montUnit_classImage hm hb, ZMod.natCast_mod, Nat.cast_mul]

/-! ### The exponent scan and the root chain (R219, R220) -/

theorem powMod_lt {m : Nat} (hm : GoodModulus m) (a bits e : Nat) : powMod a m bits e < m :=
  powMod_eq a m bits e ▸ Nat.mod_lt _ (by omega)

/-- The scan on images computes the image of what squaring computes on residues (R219). -/
theorem expAcc_classImage {m : Nat} (hm : GoodModulus m) (hb : m < 2 ^ 256) (a : Nat) :
    ∀ bits e, expAcc (classImage (a : ZMod m)) m bits e = classImage (powMod a m bits e : ZMod m)
  | 0, e => by rw [expAcc, toImage_eq hm hb (by omega), powMod, ZMod.natCast_mod]
  | bits + 1, e => by
    simp only [expAcc, powMod, expAcc_classImage hm hb a bits, montUnit_classImage hm hb]
    split <;> simp only [ZMod.natCast_mod, Nat.cast_mul]

/-- Settles O57: the scan ends at the image of the power, and one pass with 1 gives the power. -/
theorem exponentUnitRefines : Obligations.ExponentUnitRefines := by
  intro a e m hm hb ha he
  rw [expUnit, toImage_eq hm hb ha, expAcc_classImage hm hb, ofImage_classImage hm, ZMod.val_natCast,
    Nat.mod_eq_of_lt (powMod_lt hm ..), powMod_word a m he]

/-- The root chain makes MODSQRT's test on the images of the candidate's square and the operand (R220). -/
theorem rootUnit_eq {a p : Nat} (hp : GoodModulus p) (hb : p < 2 ^ 256) (ha : a < p) :
    rootUnit a p = if rootCandidate a p * rootCandidate a p % p = a then some (rootCandidate a p) else none := by
  have hc : rootCandidate a p < p := powMod_lt hp ..
  have htest : montUnit (classImage (rootCandidate a p : ZMod p)) (classImage (rootCandidate a p : ZMod p)) p = classImage (a : ZMod p) ↔
      rootCandidate a p * rootCandidate a p % p = a := by
    rw [montUnit_classImage hp hb, classImage_inj hp, ← Nat.cast_mul, ← ZMod.natCast_mod, natCast_inj (Nat.mod_lt _ (by omega)) ha]
  simp only [rootUnit, toImage_eq hp hb ha, expAcc_classImage hp hb]
  refine ite_congr (propext htest) (fun _ => ?_) fun _ => rfl
  rw [ofImage_classImage hp, ZMod.val_natCast, Nat.mod_eq_of_lt (powMod_lt hp ..), rootCandidate]

/-! ### The decompressor and the curve test (R230) -/

/-- The decompressor's parity choice is that of PDEC: p − c is the difference of 0 and a c that is not 0 (R196). -/
theorem chooseRoot_eq_subUnit {p c : Nat} (hb : p < 2 ^ 256) (hc : c < p) (t : Nat) :
    (if c % 2 = t % 2 then some c else if c = 0 then none else some (subUnit 0 c p)) = chooseRoot p c t := by
  refine ite_congr rfl (fun _ => rfl) fun _ => ite_congr rfl (fun _ => rfl) fun h0 => ?_
  rw [subUnit_eq hb (by omega) hc, Nat.zero_add, Nat.mod_eq_of_lt (by omega)]

section
variable {p a b : Nat} (hp : GoodModulus p) (hb : p < 2 ^ 256) (ha : a < p) (hb' : b < p)
include hp hb ha hb'

theorem rhsUnit_eq {x : Nat} (hx : x < p) : rhsUnit p a b x = curveRhs p a b x := by
  have hlt (n : Nat) : n % p < p := Nat.mod_lt _ (by omega)
  rw [rhsUnit, mulUnit_eq hp hb hx hx, mulUnit_eq hp hb (hlt _) hx, mulUnit_eq hp hb ha hx, addUnit_eq hb (hlt _) (hlt _),
    addUnit_eq hb (hlt _) hb', curveRhs]
  simp only [Nat.mod_mul_mod, Nat.mod_add_mod, Nat.add_mod_mod]

/-- The units' test of a reduced pair is the curve equation (R172, R196). -/
theorem mulUnit_eq_rhsUnit_iff {x y : Nat} (hx : x < p) (hy : y < p) : mulUnit y y p = rhsUnit p a b x ↔ onCurve p a b x y = true := by
  rw [mulUnit_eq hp hb hy hy, rhsUnit_eq hp hb ha hb' hx, onCurve, beq_iff_eq]

/-- The decompressor finds the point that the compressed path of PDEC decodes, and none where that path raises INVALID_POINT. -/
theorem decodeShort_eq_decompressUnit {x : Nat} (hx : x < p) (h4 : p % 4 = 3) (t : Nat) :
    decodeShort p a b t x = match decompressUnit p a b t x with
      | some q => .ok q
      | none => .error .invalidPoint := by
  have hw : curveRhs p a b x < p := Nat.mod_lt _ (by omega)
  have hc : rootCandidate (curveRhs p a b x) p < p := powMod_lt hp ..
  rw [decodeShort, if_pos h4, if_pos hx, decompressUnit, rhsUnit_eq hp hb ha hb' hx, rootUnit_eq hp hb hw]
  by_cases hsq : rootCandidate (curveRhs p a b x) p * rootCandidate (curveRhs p a b x) p % p = curveRhs p a b x
  · simp only [if_pos hsq, chooseRoot_eq_subUnit hb hc]
    cases hy : chooseRoot p (rootCandidate (curveRhs p a b x) p) t with
    | none => rfl
    | some y =>
      have htest := mulUnit_eq_rhsUnit_iff hp hb ha hb' hx (chooseRoot_lt hc hy)
      rw [rhsUnit_eq hp hb ha hb' hx] at htest
      simp only [htest]
      split <;> rfl
  · simp only [if_neg hsq]

/-- The curve test of any pair is the test of PCHK (R172, R230). -/
theorem curveUnit_eq (x y : Nat) : curveUnit p a b x y = (decide (x < p) && decide (y < p) && onCurve p a b x y) := by
  rw [curveUnit, Bool.eq_iff_iff]
  simp only [Bool.and_eq_true, decide_eq_true_eq, beq_iff_eq]
  exact and_congr_right fun ⟨hx, hy⟩ => mulUnit_eq_rhsUnit_iff hp hb ha hb' hx hy

end

theorem decodeFull_eq_onCurve (p a b x y : Nat) : decodeFull p a b x y =
    if (decide (x < p) && decide (y < p) && onCurve p a b x y) = true then .ok (.pt x y) else .error .invalidPoint := by
  simp only [decodeFull, Bool.and_eq_true, decide_eq_true_eq, ite_and]

/-- Settles O60: the units' tests are the tests of the rules, since their products and sums are residues. -/
theorem decompressorRefines : Obligations.DecompressorRefines := by
  intro p a b x hp hb ha hb'
  simp only [curveUnit_eq hp hb ha hb']
  exact ⟨fun t h4 hx => ⟨rootUnit_eq hp hb hx, decodeShort_eq_decompressUnit hp hb ha hb' hx h4 t⟩,
    fun y => decodeFull_eq_onCurve p a b x y, fun r => rfl⟩

/-! ### The Jacobian formulas in the field (R223, R224)

`fieldDbl` and `fieldAdd` are the formulas of R223 and R224 over the ring of residues. `jacDbl` and `jacAdd` compute them on residues,
`imageDbl` and `imageAdd` on Montgomery images. -/

/-- A triple of residues with these classes. -/
def ofField {p : Nat} (t : ZMod p × ZMod p × ZMod p) : Jacobian := ⟨t.1.val, t.2.1.val, t.2.2.val⟩

/-- The triple of the images of these classes (R214). -/
def imageOfField {p : Nat} (t : ZMod p × ZMod p × ZMod p) : Jacobian := ⟨classImage t.1, classImage t.2.1, classImage t.2.2⟩

/-- The formula of R223. -/
def fieldDbl {p : Nat} (a x y z : ZMod p) : ZMod p × ZMod p × ZMod p :=
  let s := 4 * x * y ^ 2
  let m := 3 * x ^ 2 + a * z ^ 4
  let x3 := m ^ 2 - 2 * s
  (x3, m * (s - x3) - 8 * y ^ 4, 2 * y * z)

/-- The formula of R224 for two triples with `U1 ≠ U2`. -/
def fieldAdd {p : Nat} (u1 u2 s1 s2 z1 z2 : ZMod p) : ZMod p × ZMod p × ZMod p :=
  let h := u2 - u1
  let r := s2 - s1
  let x3 := r ^ 2 - h ^ 3 - 2 * u1 * h ^ 2
  (x3, r * (u1 * h ^ 2 - x3) - s1 * h ^ 3, h * z1 * z2)

theorem residueOf_eq_val (z : Int) {p : Nat} (hp : 0 < p) : residueOf z p = (z : ZMod p).val := by
  rw [← residueOf_cast z hp, ZMod.val_natCast, Nat.mod_eq_of_lt (residueOf_lt z hp)]

theorem ofField_below {p : Nat} (hp : 0 < p) (t : ZMod p × ZMod p × ZMod p) : (ofField t).Below p :=
  have : NeZero p := ⟨hp.ne'⟩
  ⟨ZMod.val_lt _, ZMod.val_lt _, ZMod.val_lt _⟩

theorem jacDbl_eq {p : Nat} (hp : 0 < p) (a : Nat) (j : Jacobian) :
    jacDbl p a j = if j.z = 0 ∨ j.y = 0 then jacInf else ofField (fieldDbl (a : ZMod p) j.x j.y j.z) := by
  have : NeZero p := ⟨hp.ne'⟩
  unfold jacDbl
  refine ite_congr rfl (fun _ => rfl) fun _ => ?_
  simp only [ofField, fieldDbl, residueOf_eq_val _ hp, ← ZMod.val_natCast, Int.cast_sub, Int.cast_mul, Int.cast_pow, Int.cast_natCast,
    Int.cast_ofNat, ZMod.natCast_zmod_val, Nat.cast_mul, Nat.cast_pow, Nat.cast_add, Nat.cast_ofNat]

theorem jacAdd_eq {p : Nat} (hp : 0 < p) (a : Nat) (j k : Jacobian) :
    jacAdd p a j k =
      if j.z = 0 then k
      else if k.z = 0 then j
      else if (j.x * k.z ^ 2 : ZMod p) = k.x * j.z ^ 2 then
        if (j.y * k.z ^ 3 : ZMod p) ≠ k.y * j.z ^ 3 then jacInf else jacDbl p a j
      else ofField (fieldAdd (j.x * k.z ^ 2 : ZMod p) (k.x * j.z ^ 2) (j.y * k.z ^ 3) (k.y * j.z ^ 3) j.z k.z) := by
  have : NeZero p := ⟨hp.ne'⟩
  unfold jacAdd
  simp only [(ZMod.val_injective p).eq_iff, ne_eq, ofField, fieldAdd, residueOf_eq_val _ hp, ← ZMod.val_natCast, Int.cast_sub, Int.cast_mul,
    Int.cast_pow, Int.cast_natCast, Int.cast_ofNat, ZMod.natCast_zmod_val, Nat.cast_mul, Nat.cast_pow]

section
variable {p : Nat} (hp : GoodModulus p) (hb : p < 2 ^ 256)
include hp hb

theorem tripleImage_ofField (t : ZMod p × ZMod p × ZMod p) : tripleImage p (ofField t) = imageOfField t := by
  have := hp.neZero
  obtain ⟨hx, hy, hz⟩ := ofField_below (by omega) t
  rw [tripleImage, toImage_eq hp hb hx, toImage_eq hp hb hy, toImage_eq hp hb hz]
  simp only [ofField, imageOfField, ZMod.natCast_zmod_val]

theorem tripleImage_eq {j : Jacobian} (hj : j.Below p) : tripleImage p j = imageOfField ((j.x : ZMod p), (j.y : ZMod p), (j.z : ZMod p)) := by
  obtain ⟨hx, hy, hz⟩ := hj
  rw [tripleImage, toImage_eq hp hb hx, toImage_eq hp hb hy, toImage_eq hp hb hz, imageOfField]

theorem twiceUnit_classImage (u : ZMod p) : twiceUnit (classImage u) p = classImage (2 * u) := by
  rw [twiceUnit, addUnit_classImage hp hb, two_mul]

theorem imageDbl_imageOfField (a x y z : ZMod p) : imageDbl p (classImage a) (imageOfField (x, y, z)) =
    if z = 0 ∨ y = 0 then tripleImage p jacInf else imageOfField (fieldDbl a x y z) := by
  simp only [imageDbl, imageOfField, classImage_eq_zero hp, montUnit_classImage hp hb, twiceUnit_classImage hp hb,
    addUnit_classImage hp hb, subUnit_classImage hp hb]
  refine ite_congr rfl (fun _ => rfl) fun _ => ?_
  simp only [fieldDbl]
  congr 2 <;> ring

theorem imageAdd_imageOfField (a x1 y1 z1 x2 y2 z2 : ZMod p) :
    imageAdd p (classImage a) (imageOfField (x1, y1, z1)) (imageOfField (x2, y2, z2)) =
      if z1 = 0 then imageOfField (x2, y2, z2)
      else if z2 = 0 then imageOfField (x1, y1, z1)
      else if x1 * z2 ^ 2 = x2 * z1 ^ 2 then
        if y1 * z2 ^ 3 ≠ y2 * z1 ^ 3 then tripleImage p jacInf else imageDbl p (classImage a) (imageOfField (x1, y1, z1))
      else imageOfField (fieldAdd (x1 * z2 ^ 2) (x2 * z1 ^ 2) (y1 * z2 ^ 3) (y2 * z1 ^ 3) z1 z2) := by
  simp only [imageAdd, imageOfField, classImage_eq_zero hp, montUnit_classImage hp hb, twiceUnit_classImage hp hb,
    subUnit_classImage hp hb, classImage_inj hp, ne_eq, ← pow_two, ← pow_succ]
  refine ite_congr rfl (fun _ => rfl) fun _ => ite_congr rfl (fun _ => rfl) fun _ => ite_congr rfl (fun _ => rfl) fun _ => ?_
  simp only [fieldAdd]
  congr 2 <;> ring

end

/-! ### Triples and the points they stand for (R222, R226) -/

theorem goodModulus_of_prime {p : Nat} (hp : p.Prime) (h3 : 3 ≤ p) : GoodModulus p :=
  ⟨hp.eq_two_or_odd.resolve_left (by omega), h3⟩

theorem natCast_eq_zero {p x : Nat} (hx : x < p) : (x : ZMod p) = 0 ↔ x = 0 := by
  rw [← Nat.cast_zero, natCast_inj hx (by omega)]

/-- The reduced pair that a finite triple stands for: `X = x·Z²` and `Y = y·Z³` (R222). -/
def Jacobian.Stands (p : Nat) (j : Jacobian) (x y : Nat) : Prop :=
  x < p ∧ y < p ∧ (j.x : ZMod p) = x * (j.z : ZMod p) ^ 2 ∧ (j.y : ZMod p) = y * (j.z : ZMod p) ^ 3

theorem jacExit_inf {p : Nat} {j : Jacobian} (h : j.z = 0) : jacExit p j = some .inf := if_pos h

theorem jacExit_stands {p : Nat} {j : Jacobian} (hp : p.Prime) (hb : p < 2 ^ 256) (hz : j.z < p) (h0 : j.z ≠ 0) :
    ∃ x y, jacExit p j = some (.pt x y) ∧ j.Stands p x y := by
  obtain ⟨zi, hzi, -, -, hone⟩ := invMod_prime hp hz h0 hb.le
  have hinv := invMod_cast hp.one_lt hone
  refine ⟨_, _, by rw [jacExit, if_neg h0, hzi], Nat.mod_lt _ hp.pos, Nat.mod_lt _ hp.pos, ?_, ?_⟩
  · rw [ZMod.natCast_mod]; push_cast
    linear_combination (-(j.x : ZMod p) * (1 + j.z * zi)) * hinv
  · rw [ZMod.natCast_mod]; push_cast
    linear_combination (-(j.y : ZMod p) * (1 + j.z * zi + (j.z * zi) ^ 2)) * hinv

/-- A finite triple leaves as the one pair it stands for. -/
theorem jacExit_eq_pt {p x y : Nat} {j : Jacobian} (hp : p.Prime) (hb : p < 2 ^ 256) (hz : j.z < p) (h0 : j.z ≠ 0)
    (h : j.Stands p x y) : jacExit p j = some (.pt x y) := by
  have : Fact p.Prime := ⟨hp⟩
  have hz0 : (j.z : ZMod p) ≠ 0 := (natCast_eq_zero hz).not.2 h0
  obtain ⟨hx, hy, ex, ey⟩ := h
  obtain ⟨x', y', hexit, hx', hy', ex', ey'⟩ := jacExit_stands hp hb hz h0
  rw [hexit, (natCast_inj hx' hx).1 (mul_right_cancel₀ (pow_ne_zero 2 hz0) (ex'.symm.trans ex)),
    (natCast_inj hy' hy).1 (mul_right_cancel₀ (pow_ne_zero 3 hz0) (ey'.symm.trans ey))]

theorem jacExit_ofField {p x y : Nat} {t : ZMod p × ZMod p × ZMod p} (hp : p.Prime) (hb : p < 2 ^ 256) (h0 : t.2.2 ≠ 0)
    (hx : x < p) (hy : y < p) (ex : t.1 = x * t.2.2 ^ 2) (ey : t.2.1 = y * t.2.2 ^ 3) : jacExit p (ofField t) = some (.pt x y) := by
  have : NeZero p := ⟨hp.ne_zero⟩
  refine jacExit_eq_pt hp hb (ZMod.val_lt _) ((ZMod.val_eq_zero _).not.2 h0) ⟨hx, hy, ?_, ?_⟩ <;>
    simpa only [ofField, ZMod.natCast_zmod_val]

theorem jacInf_below {p : Nat} (hp : p.Prime) : jacInf.Below p := ⟨hp.one_lt, hp.one_lt, hp.pos⟩

theorem jacOf_below {p : Nat} (hp : p.Prime) {q : Affine} (hq : q.Below p) : (jacOf q).Below p := by
  cases q with
  | inf => exact jacInf_below hp
  | pt x y => exact ⟨hq.1, hq.2, hp.one_lt⟩

theorem jacDbl_below {p : Nat} (hp : p.Prime) (a : Nat) (j : Jacobian) : (jacDbl p a j).Below p := by
  rw [jacDbl_eq hp.pos]
  split_ifs
  · exact jacInf_below hp
  · exact ofField_below hp.pos _

theorem jacAdd_below {p : Nat} (hp : p.Prime) (a : Nat) {j k : Jacobian} (hj : j.Below p) (hk : k.Below p) : (jacAdd p a j k).Below p := by
  rw [jacAdd_eq hp.pos]
  split_ifs
  · exact hk
  · exact hj
  · exact jacInf_below hp
  · exact jacDbl_below hp a j
  · exact ofField_below hp.pos _

/-- A point leaves as it entered (R222). -/
theorem jacExit_jacOf {p : Nat} (hp : p.Prime) (hb : p < 2 ^ 256) {q : Affine} (hq : q.Below p) : jacExit p (jacOf q) = some q := by
  cases q with
  | inf => rfl
  | pt x y => exact jacExit_eq_pt hp hb hp.one_lt one_ne_zero ⟨hq.1, hq.2, by simp [jacOf], by simp [jacOf]⟩

theorem jacExit_exists {p : Nat} {j : Jacobian} (hp : p.Prime) (hb : p < 2 ^ 256) (hj : j.Below p) : ∃ q, jacExit p j = some q := by
  by_cases h0 : j.z = 0
  · exact ⟨_, jacExit_inf h0⟩
  · obtain ⟨x, y, h, -⟩ := jacExit_stands hp hb hj.2.2 h0
    exact ⟨_, h⟩

/-- The tangent of R161 in the field of p. -/
theorem affineDbl_field {p x y : Nat} (hp : p.Prime) (h3 : 3 ≤ p) (hb : p < 2 ^ 256) (a : Nat) (hy : y < p) (h0 : y ≠ 0) :
    ∃ lam x3 y3 : Nat, affineDbl p a (.pt x y) = some (.pt x3 y3) ∧ x3 < p ∧ y3 < p ∧
      (a : ZMod p) = lam * (2 * y) - 3 * x ^ 2 ∧ (x3 : ZMod p) = lam ^ 2 - 2 * x ∧ (y3 : ZMod p) = lam * (x - x3) - y := by
  obtain ⟨lam, x3, y3, h, hx3, hy3, hlam, ex, ey⟩ := affineDbl_spec (a := a) (x := x) hp.one_lt hb.le h0 (gcd_two_mul hp h3 hy h0)
  replace hlam := zmod_eq_of_modEq hlam
  replace ex := zmod_eq_of_modEq ex
  replace ey := zmod_eq_of_modEq ey
  push_cast at hlam ex ey
  exact ⟨lam, x3, y3, h, hx3, hy3, by rw [hlam]; ring, by rw [ex]; ring, ey⟩

/-- The chord of R161 in the field of p. -/
theorem affineAdd_field {p x1 y1 x2 y2 : Nat} (hp : p.Prime) (hb : p < 2 ^ 256) (a : Nat) (h1 : x1 < p) (h2 : x2 < p) (hne : x1 ≠ x2) :
    ∃ lam x3 y3 : Nat, affineAdd p a (.pt x1 y1) (.pt x2 y2) = some (.pt x3 y3) ∧ x3 < p ∧ y3 < p ∧
      (y2 : ZMod p) = lam * (x2 - x1) + y1 ∧ (x3 : ZMod p) = lam ^ 2 - x1 - x2 ∧ (y3 : ZMod p) = lam * (x1 - x3) - y1 := by
  obtain ⟨lam, x3, y3, h, hx3, hy3, hlam, ex, ey⟩ :=
    affineAdd_spec (a := a) (y1 := y1) (y2 := y2) hp.one_lt hb.le hne (gcd_sub hp h1 h2 hne)
  replace hlam := zmod_eq_of_modEq hlam
  replace ex := zmod_eq_of_modEq ex
  replace ey := zmod_eq_of_modEq ey
  push_cast at hlam ex ey
  exact ⟨lam, x3, y3, h, hx3, hy3, by rw [hlam]; ring, by rw [ex]; ring, ey⟩

/-- The double of a finite triple leaves as the double of the pair it stands for (R226). -/
theorem jacExit_jacDbl_finite {p x y : Nat} {j : Jacobian} (hp : p.Prime) (h3 : 3 ≤ p) (hb : p < 2 ^ 256) (a : Nat) (hj : j.Below p)
    (h0 : j.z ≠ 0) (h : j.Stands p x y) : jacExit p (jacDbl p a j) = affineDbl p a (.pt x y) := by
  have : Fact p.Prime := ⟨hp⟩
  obtain ⟨-, hjy, hjz⟩ := hj
  obtain ⟨hx, hy, ex, ey⟩ := h
  have hz0 : (j.z : ZMod p) ≠ 0 := (natCast_eq_zero hjz).not.2 h0
  have hyy : j.y = 0 ↔ y = 0 := by
    rw [← natCast_eq_zero hjy, ← natCast_eq_zero hy, ey, mul_eq_zero_iff_right (pow_ne_zero 3 hz0)]
  rw [jacDbl_eq hp.pos]
  by_cases hy0 : y = 0
  · rw [if_pos (.inr (hyy.2 hy0)), jacExit_inf rfl, affineDbl, if_pos hy0]
  have h2 : (2 : ZMod p) ≠ 0 := by exact_mod_cast (natCast_eq_zero (show 2 < p by omega)).not.2 two_ne_zero
  have hjy0 : (j.y : ZMod p) ≠ 0 := (natCast_eq_zero hjy).not.2 (hyy.not.2 hy0)
  obtain ⟨lam, x3, y3, hdbl, hx3, hy3, ha, ex3, ey3⟩ := affineDbl_field (x := x) hp h3 hb a hy hy0
  rw [hdbl, if_neg (not_or.2 ⟨h0, hyy.not.2 hy0⟩)]
  refine jacExit_ofField hp hb (mul_ne_zero (mul_ne_zero h2 hjy0) hz0) hx3 hy3 ?_ ?_
  · simp only [fieldDbl, ex, ey, ha, ex3]
    ring
  · simp only [fieldDbl, ex, ey, ha, ey3, ex3]
    ring

/-- The sum of two finite triples leaves as the sum of the pairs they stand for (R226). -/
theorem jacExit_jacAdd_finite {p x1 y1 x2 y2 : Nat} {j k : Jacobian} (hp : p.Prime) (h3 : 3 ≤ p) (hb : p < 2 ^ 256) (a : Nat)
    (hj : j.Below p) (hk : k.Below p) (hj0 : j.z ≠ 0) (hk0 : k.z ≠ 0) (h1 : j.Stands p x1 y1) (h2 : k.Stands p x2 y2) :
    jacExit p (jacAdd p a j k) = affineAdd p a (.pt x1 y1) (.pt x2 y2) := by
  have : Fact p.Prime := ⟨hp⟩
  have hdbl := jacExit_jacDbl_finite hp h3 hb a hj hj0 h1
  have hzj : (j.z : ZMod p) ≠ 0 := (natCast_eq_zero hj.2.2).not.2 hj0
  have hzk : (k.z : ZMod p) ≠ 0 := (natCast_eq_zero hk.2.2).not.2 hk0
  have hw : (j.z * k.z : ZMod p) ≠ 0 := mul_ne_zero hzj hzk
  obtain ⟨hx1, hy1, ex1, ey1⟩ := h1
  obtain ⟨hx2, hy2, ex2, ey2⟩ := h2
  have hU1 : (j.x * k.z ^ 2 : ZMod p) = x1 * (j.z * k.z) ^ 2 := by rw [ex1]; ring
  have hU2 : (k.x * j.z ^ 2 : ZMod p) = x2 * (j.z * k.z) ^ 2 := by rw [ex2]; ring
  have hS1 : (j.y * k.z ^ 3 : ZMod p) = y1 * (j.z * k.z) ^ 3 := by rw [ey1]; ring
  have hS2 : (k.y * j.z ^ 3 : ZMod p) = y2 * (j.z * k.z) ^ 3 := by rw [ey2]; ring
  simp only [jacAdd_eq hp.pos, if_neg hj0, if_neg hk0, hU1, hU2, hS1, hS2, mul_left_inj' (pow_ne_zero _ hw), natCast_inj hx1 hx2,
    ne_eq, natCast_inj hy1 hy2]
  by_cases hx : x1 = x2
  · subst hx
    by_cases hy : y1 = y2
    · subst hy
      rw [if_pos rfl, if_neg (not_not.2 rfl), hdbl, affineAdd_self]
    · rw [if_pos rfl, if_pos hy, affineAdd_opposite p a x1 hy, jacExit_inf rfl]
  · obtain ⟨lam, x3, y3, hadd, hx3, hy3, hlam, ex3, ey3⟩ := affineAdd_field (y1 := y1) (y2 := y2) hp hb a hx1 hx2 hx
    have hH : (x2 * (j.z * k.z) ^ 2 - x1 * (j.z * k.z) ^ 2 : ZMod p) ≠ 0 := by
      rw [← sub_mul]
      exact mul_ne_zero (sub_ne_zero.2 fun h => hx ((natCast_inj hx2 hx1).1 h).symm) (pow_ne_zero 2 hw)
    rw [if_neg hx, hadd]
    refine jacExit_ofField hp hb (mul_ne_zero (mul_ne_zero hH hzj) hzk) hx3 hy3 ?_ ?_
    · simp only [fieldAdd, hlam, ex3]
      ring
    · simp only [fieldAdd, hlam, ey3, ex3]
      ring

section
variable {p : Nat} {j k : Jacobian} {q r : Affine} (hp : p.Prime) (h3 : 3 ≤ p) (hb : p < 2 ^ 256)
include hp h3 hb

/-- The exit of the double is the double of the exit (R226). -/
theorem jacExit_jacDbl (a : Nat) (hj : j.Below p) (hq : jacExit p j = some q) : jacExit p (jacDbl p a j) = affineDbl p a q := by
  by_cases h0 : j.z = 0
  · obtain rfl := Option.some.inj ((jacExit_inf h0).symm.trans hq)
    rw [jacDbl, if_pos (.inl h0), jacExit_inf rfl, affineDbl]
  · obtain ⟨x, y, hexit, h⟩ := jacExit_stands hp hb hj.2.2 h0
    obtain rfl := Option.some.inj (hexit.symm.trans hq)
    exact jacExit_jacDbl_finite hp h3 hb a hj h0 h

/-- The exit of the sum is the sum of the exits (R226). -/
theorem jacExit_jacAdd (a : Nat) (hj : j.Below p) (hk : k.Below p) (hq : jacExit p j = some q) (hr : jacExit p k = some r) :
    jacExit p (jacAdd p a j k) = affineAdd p a q r := by
  by_cases hj0 : j.z = 0
  · obtain rfl := Option.some.inj ((jacExit_inf hj0).symm.trans hq)
    rw [jacAdd, if_pos hj0, hr, affineAdd_inf_left]
  by_cases hk0 : k.z = 0
  · obtain rfl := Option.some.inj ((jacExit_inf hk0).symm.trans hr)
    rw [jacAdd, if_neg hj0, if_pos hk0, hq, affineAdd_inf_right]
  obtain ⟨x1, y1, hexit1, h1⟩ := jacExit_stands hp hb hj.2.2 hj0
  obtain ⟨x2, y2, hexit2, h2⟩ := jacExit_stands hp hb hk.2.2 hk0
  obtain rfl := Option.some.inj (hexit1.symm.trans hq)
  obtain rfl := Option.some.inj (hexit2.symm.trans hr)
  exact jacExit_jacAdd_finite hp h3 hb a hj hk hj0 hk0 h1 h2

end

/-! ### The units on images (R214) -/

section
variable {p a : Nat} {j k : Jacobian} (hp : p.Prime) (h3 : 3 ≤ p) (hb : p < 2 ^ 256)
include hp h3 hb

theorem imageDbl_tripleImage (ha : a < p) (hj : j.Below p) :
    imageDbl p (toImage a p) (tripleImage p j) = tripleImage p (jacDbl p a j) := by
  have hm := goodModulus_of_prime hp h3
  rw [toImage_eq hm hb ha, tripleImage_eq hm hb hj, imageDbl_imageOfField hm hb, jacDbl_eq hp.pos, apply_ite (tripleImage p),
    tripleImage_ofField hm hb]
  simp only [natCast_eq_zero hj.2.1, natCast_eq_zero hj.2.2]

theorem imageAdd_tripleImage (ha : a < p) (hj : j.Below p) (hk : k.Below p) :
    imageAdd p (toImage a p) (tripleImage p j) (tripleImage p k) = tripleImage p (jacAdd p a j k) := by
  have hm := goodModulus_of_prime hp h3
  simp only [jacAdd_eq hp.pos, apply_ite (tripleImage p), ← imageDbl_tripleImage hp h3 hb ha hj, tripleImage_ofField hm hb,
    tripleImage_eq hm hb hj, tripleImage_eq hm hb hk, toImage_eq hm hb ha, imageAdd_imageOfField hm hb, natCast_eq_zero hj.2.2,
    natCast_eq_zero hk.2.2]

theorem imageExit_tripleImage (hj : j.Below p) : imageExit p (tripleImage p j) = jacExit p j := by
  have hm := goodModulus_of_prime hp h3
  rw [tripleImage_eq hm hb hj]
  simp only [imageExit, jacExit, imageOfField, classImage_eq_zero hm, natCast_eq_zero hj.2.2, ofImage_classImage hm, ZMod.val_natCast,
    Nat.mod_eq_of_lt hj.2.2]
  refine ite_congr rfl (fun _ => rfl) fun h0 => ?_
  obtain ⟨zi, hzi, -, hlt, -⟩ := invMod_prime hp hj.2.2 h0 hb.le
  simp only [hzi, toImage_eq hm hb hlt, montUnit_classImage hm hb, ofImage_classImage hm, ← ZMod.val_natCast, Nat.cast_mul]

theorem pointDblUnit_eq {q : Affine} (ha : a < p) (hq : q.Below p) : pointDblUnit p a q = affineDbl p a q := by
  have hj := jacOf_below hp hq
  rw [pointDblUnit, imageDbl_tripleImage hp h3 hb ha hj, imageExit_tripleImage hp h3 hb (jacDbl_below hp a _),
    jacExit_jacDbl hp h3 hb a hj (jacExit_jacOf hp hb hq)]

theorem pointAddUnit_eq {q r : Affine} (ha : a < p) (hq : q.Below p) (hr : r.Below p) : pointAddUnit p a q r = affineAdd p a q r := by
  have hj := jacOf_below hp hq
  have hk := jacOf_below hp hr
  rw [pointAddUnit, imageAdd_tripleImage hp h3 hb ha hj hk, imageExit_tripleImage hp h3 hb (jacAdd_below hp a hj hk),
    jacExit_jacAdd hp h3 hb a hj hk (jacExit_jacOf hp hb hq) (jacExit_jacOf hp hb hr)]

end

/-- Settles O58: the formulas commute with the exit map, and the units on images with the conversion to images. -/
theorem jacobianFormulasRefine : Obligations.JacobianFormulasRefine := by
  intro p a j k hp h3 hb hj hk
  obtain ⟨q, hq⟩ := jacExit_exists hp hb hj
  obtain ⟨r, hr⟩ := jacExit_exists hp hb hk
  exact ⟨⟨q, r, hq, hr, jacExit_jacDbl hp h3 hb a hj hq, jacExit_jacAdd hp h3 hb a hj hk hq hr⟩, fun ha =>
    ⟨imageDbl_tripleImage hp h3 hb ha hj, imageAdd_tripleImage hp h3 hb ha hj hk, imageExit_tripleImage hp h3 hb hj,
      fun _ _ hq hr => ⟨pointDblUnit_eq hp h3 hb ha hq, pointAddUnit_eq hp h3 hb ha hq hr⟩⟩⟩

/-! ### The scanner (R228) -/

section
variable {p : Nat} {q : Affine} (hp : p.Prime) (h3 : 3 ≤ p) (hb : p < 2 ^ 256) (hq : q.Below p)

include hp hq in
theorem jacScan_below (a : Nat) : ∀ bits k, (jacScan p a q bits k).Below p
  | 0, _ => jacInf_below hp
  | bits + 1, k => by
    unfold jacScan
    split
    · exact jacAdd_below hp a (jacDbl_below hp a _) (jacOf_below hp hq)
    · exact jacDbl_below hp a _

include hp h3 hb hq

/-- After every bit the triple leaves as the accumulator of the affine scan (R174, R228). -/
theorem jacExit_jacScan (a : Nat) : ∀ bits k, jacExit p (jacScan p a q bits k) = scalarScan p a q bits k
  | 0, _ => rfl
  | bits + 1, k => by
    have hacc := jacScan_below hp hq a bits (k / 2)
    have htwice := jacDbl_below hp a (jacScan p a q bits (k / 2))
    obtain ⟨acc, hacc'⟩ := jacExit_exists hp hb hacc
    obtain ⟨twice, htwice'⟩ := jacExit_exists hp hb htwice
    have hdbl := (jacExit_jacDbl hp h3 hb a hacc hacc').symm.trans htwice'
    simp only [jacScan, scalarScan, ← jacExit_jacScan a bits, hacc', hdbl, apply_ite (jacExit p), htwice',
      jacExit_jacAdd hp h3 hb a htwice (jacOf_below hp hq) htwice' (jacExit_jacOf hp hb hq)]

theorem imageScan_tripleImage {a : Nat} (ha : a < p) :
    ∀ bits k, imageScan p (toImage a p) (tripleImage p (jacOf q)) bits k = tripleImage p (jacScan p a q bits k)
  | 0, _ => rfl
  | bits + 1, k => by
    simp only [imageScan, jacScan, imageScan_tripleImage ha bits, imageDbl_tripleImage hp h3 hb ha (jacScan_below hp hq a _ _),
      imageAdd_tripleImage hp h3 hb ha (jacDbl_below hp a _) (jacOf_below hp hq), apply_ite (tripleImage p)]

end

/-- Settles O59: the scan on triples leaves as the affine scan, and the scan on images is its image. -/
theorem scannerRefines : Obligations.ScannerRefines := by
  intro p a k q hp h3 hb hq
  refine ⟨fun bits => jacExit_jacScan hp h3 hb hq a bits k, fun ha => ?_⟩
  rw [scanUnit, imageScan_tripleImage hp h3 hb hq ha, imageExit_tripleImage hp h3 hb (jacScan_below hp hq a _ _),
    jacExit_jacScan hp h3 hb hq]

end Sys2Proof.Machine

/-! ## Completions: a step always takes place, and a failed one leaves everything but STATUS -/

namespace Sys2Proof.Machine

/-- With no event left the engine has the turn (R280). -/
theorem step_of_nil {s : State} (h : s.events = []) : step s = engineTurn s := by
  rw [step, nextEvent, h]

theorem step_of_rst {s : State} {es : List Event} (h : s.events = .rst :: es) :
    step s = .next (resetInput { s with events := es }) := by
  rw [step, nextEvent, h]
  rfl

/-- The engine's turn takes place, whether it completes a command or idles (R280). -/
theorem engineTurn_next (s : State) : ∃ t, engineTurn s = .next t := by
  unfold engineTurn
  split
  · exact complete_next s
  · exact ⟨s, rfl⟩

/-- Settles O8: an access is answered, the reset input is taken, and every command completes. -/
theorem everyStepAnswersNext : Obligations.EveryStepAnswersNext := by
  intro s
  match he : s.events with
  | [] => exact step_of_nil he ▸ engineTurn_next s
  | .host _ :: _ => exact ⟨_, step_of_host he⟩
  | .engine :: rest => exact step_of_engine he ▸ engineTurn_next { s with events := rest }
  | .rst :: _ => exact ⟨_, step_of_rst he⟩

/-- A word that agrees with no row of R91 under its mask is one the decoder refuses (R100). -/
theorem decode_error_of_no_mask {w : BitVec 32} (h : ∀ o : Opcode, w &&& o.format.mask ≠ o.code.setWidth 32) :
    ∃ e, decode w = .error e := by
  cases hd : decode w with
  | error e => exact ⟨e, rfl⟩
  | ok i =>
    obtain ⟨o, hcode, hadmits, -⟩ := decode_eq_ok_iff.1 hd
    exact absurd (and_mask_eq_code_iff.2 ⟨hcode, hadmits⟩) (h o)

/-- The turn of a busy engine with an illegal word raises ILLEGAL_CMD (R242, R279). -/
theorem engineTurn_illegal {s : State} (hb : s.status.busy = true)
    (h : ∀ o : Opcode, s.cmd &&& o.format.mask ≠ o.code.setWidth 32) : engineTurn s = .next (s.failed .illegalCmd) := by
  obtain ⟨e, he⟩ := decode_error_of_no_mask h
  rw [engineTurn, if_pos hb, complete, he]
  exact raise_eq s _

/-- Settles O6: either way the step is the turn of a busy engine, whose word does not decode. -/
theorem illegalWordRaisesIllegalCmd : Obligations.IllegalWordRaisesIllegalCmd := by
  intro s rest hb hmask
  constructor
  · intro he
    rw [step_of_engine he]
    exact engineTurn_illegal (s := { s with events := rest }) hb hmask
  · intro he
    rw [step_of_nil he]
    exact engineTurn_illegal hb hmask

/-- Settles O40: of the two kinds of completion only the one that writes no destination leaves an error code. -/
theorem errorLeavesEverythingElse : Obligations.ErrorLeavesEverythingElse := by
  intro i s t e h he
  obtain ⟨drawn, -, ⟨e', rfl⟩ | ⟨d, fl, -, rfl⟩⟩ := exec_cases h
  · obtain rfl : e' = e := Option.some.inj he
    cases drawn <;> rfl
  · cases he

end Sys2Proof.Machine

/-! ## Reset, gating and liveness: what a busy block shows the host, and that every command completes

`hostAccess_of_busy` says what an access of a busy block comes to, as a function of CMD and STATUS; `engineTurn_completes` says that
the engine's turn ends the command. -/

namespace Sys2Proof.Machine

/-! ### The engine's turn and the reset input (R270, R279) -/

/-- The turn of a busy engine is the meaning of the command in CMD (R279). -/
theorem engineTurn_of_decode {s : State} {i : Instr} (hb : s.status.busy = true) (hd : decode s.cmd = .ok i) :
    engineTurn s = exec i s := by
  rw [engineTurn, if_pos hb, complete, hd]

/-- Settles O5: either way the step is the turn of a busy engine, whose word decodes. -/
theorem stepRunsDecodedCommand : Obligations.StepRunsDecodedCommand := by
  intro s i rest hb hd
  constructor
  · intro he
    rw [step_of_engine he]
    exact engineTurn_of_decode (s := { s with events := rest }) hb hd
  · intro he
    rw [step_of_nil he]
    exact engineTurn_of_decode hb hd

/-- Settles O12: the reset input keeps nothing but the environment's fields, which are not architectural. -/
theorem resetInputFromAnyState : Obligations.ResetInputFromAnyState :=
  fun _ _ he => ⟨_, step_of_rst he, rfl⟩

/-! ### Accesses while BUSY (R276, R277) -/

/-- The words that are neither STATUS nor PRM.H are those that no write changes while BUSY (R276). -/
theorem writeGated_of_ne {sl : Slot} (hst : sl ≠ .status) (hprmH : sl ≠ .prmH) : sl.writeGated = true := by
  cases sl with
  | status => exact absurd rfl hst
  | prmH => exact absurd rfl hprmH
  | _ => rfl

/-- A gated write is lost and sets OVR (R276). -/
theorem hostWrite_gated {s : State} {sl : Slot} (v : Limb) (hb : s.status.busy = true) (h : sl.writeGated = true) :
    hostWrite s (slotOffset sl) v = (s.setStatus s.status.overrun, .ok) := by
  simp [hostWrite, slotAt_slotOffset, hb, h]

/-- A gated read returns 0 (R277). -/
theorem hostRead_gated {s : State} {sl : Slot} (hb : s.status.busy = true) (h : sl.readGated = true) :
    hostRead s (slotOffset sl) = .value 0#32 := by
  simp [hostRead, slotAt_slotOffset, hb, h]

/-- Settles O46: every word but STATUS and PRM.H is gated. -/
theorem gatedWriteSetsOvr : Obligations.GatedWriteSetsOvr :=
  fun _ _ v hb hst hprmH => hostWrite_gated v hb (writeGated_of_ne hst hprmH)

/-- Settles O47: three words are never gated and read as their images, all others are gated. -/
theorem gatedReadReturnsZero : Obligations.GatedReadReturnsZero := by
  intro s sl hb
  refine congrArg (Prod.mk s) ?_
  cases sl with
  | cmd | status | prmH => exact hostRead_slot (.inr rfl)
  | _ => exact hostRead_gated hb rfl

/-- An access is a BusError in every state, or it reads or writes one word of the window (R61, R62, R63). -/
theorem hostAccess_cases (a : HostAccess) : (∀ s, hostAccess s a = (s, .busError)) ∨
    (∃ sl, a = .read .word (slotOffset sl)) ∨ ∃ sl v, a = .write .word (slotOffset sl) v := by
  have reaches (off : Nat) : slotAt off = none ∨ ∃ sl, slotOffset sl = off := by
    cases h : slotAt off with
    | none => exact .inl rfl
    | some sl => exact .inr ⟨sl, slotOffset_of_slotAt h⟩
  rcases a with ⟨size, off⟩ | ⟨size, off, v⟩ <;> by_cases hsize : size = .word
  · subst hsize
    rcases reaches off with h | ⟨sl, rfl⟩
    · exact .inl fun s => (hostAccess_of_slotAt h .word 0#32).1
    · exact .inr (.inl ⟨sl, rfl⟩)
  · exact .inl fun s => (hostAccess_of_size hsize off 0#32).1
  · subst hsize
    rcases reaches off with h | ⟨sl, rfl⟩
    · exact .inl fun s => (hostAccess_of_slotAt h .word v).2
    · exact .inr (.inr ⟨sl, v, rfl⟩)
  · exact .inl fun s => (hostAccess_of_size hsize off v).2

/-- What an access of a busy block answers, and what it leaves in STATUS, is a function of CMD and STATUS alone, and nothing else
changes (R276, R277). -/
theorem hostAccess_of_busy {st : Status} (hb : st.busy = true) (w : BitVec 32) (a : HostAccess) :
    ∃ st' ans, st'.busy = true ∧ ∀ s : State, s.cmd = w → s.status = st → hostAccess s a = (s.setStatus st', ans) := by
  rcases hostAccess_cases a with herr | ⟨sl, rfl⟩ | ⟨sl, v, rfl⟩
  · refine ⟨st, .busError, hb, ?_⟩
    rintro s rfl rfl
    exact herr s
  · refine ⟨st, .value (if sl = .cmd then w else if sl = .status then st.word else if sl = .prmH then 1#32 else 0#32), hb, ?_⟩
    rintro s rfl rfl
    exact gatedReadReturnsZero s sl hb
  · cases hg : sl.writeGated with
    | true =>
      refine ⟨st.overrun, .ok, hb, ?_⟩
      rintro s rfl rfl
      exact hostWrite_gated v hb hg
    | false =>
      refine ⟨st, .ok, hb, ?_⟩
      rintro s rfl rfl
      exact (hostWrite_slot v (.inr hg)).trans (by rw [writeSlot_of_not_gated s v hg]; rfl)

/-- So the step of an access changes STATUS, the events and the answers alike in all busy blocks of the same CMD and STATUS. -/
theorem step_access_of_busy {st : Status} (hb : st.busy = true) (w : BitVec 32) (a : HostAccess) (es : List Event) :
    ∃ st' ans, st'.busy = true ∧ ∀ s : State, s.cmd = w → s.status = st → s.events = .host a :: es →
      step s = .next { s with status := st', events := es, answers := ans :: s.answers } := by
  obtain ⟨st', ans, hb', ha⟩ := hostAccess_of_busy hb w a
  refine ⟨st', ans, hb', fun s hw hst he => (step_of_host he).trans ?_⟩
  rw [answerAccess, ha { s with events := es } hw hst]
  rfl

/-- Settles O48: each access is answered alike and leaves the two states alike. -/
theorem busyBlockRevealsNothing : Obligations.BusyBlockRevealsNothing := by
  intro accesses
  induction accesses with
  | nil => exact fun s u _ _ _ hans _ _ => ⟨s, u, rfl, rfl, hans⟩
  | cons a accesses ih =>
    intro s u hb hcmd hst hans hes heu
    obtain ⟨st', ans, hb', hstep⟩ := step_access_of_busy hb s.cmd a (accesses.map .host)
    have hs := hstep s rfl rfl hes
    have hu := hstep u hcmd.symm hst.symm heu
    simp only [List.length_cons, run_succ (M := core) _ hs, run_succ (M := core) _ hu]
    exact ih _ _ hb' hcmd rfl (congrArg (ans :: ·) hans) rfl rfl

/-! ### Every command completes, and an ended run stays ended (R16, R280) -/

/-- The turn of a busy engine ends the command, whether its word decodes or not (R29, R279). -/
theorem engineTurn_completes {s : State} (hb : s.status.busy = true) :
    ∃ t, engineTurn s = .next t ∧ t.status.busy = false ∧ t.status.done = true := by
  rw [engineTurn, if_pos hb, complete]
  cases decode s.cmd with
  | ok i =>
    obtain ⟨t, ht⟩ := exec_next i s
    obtain ⟨-, -, -, hbusy, hdone, -⟩ := exec_frame ht
    exact ⟨t, ht, hbusy, hdone⟩
  | error _ => exact ⟨_, rfl, rfl, rfl⟩

theorem answerAccess_busy {s : State} (hb : s.status.busy = true) (a : HostAccess) :
    (answerAccess s a).status.busy = true ∧ (answerAccess s a).events = s.events := by
  obtain ⟨ovr, ho⟩ := hostAccess_busy hb a
  rw [answerAccess, ho]
  exact ⟨hb, rfl⟩

/-- Without a reset to come the first turn of the engine, or the one after the last event, ends the command. -/
theorem run_completes (es : List Event) : ∀ s : State, s.events = es → s.status.busy = true → .rst ∉ es →
    ∃ k ≤ es.length + 1, ∃ t : State, Host.Core.run Sys2Proof.core k s = .next t ∧ t.status.busy = false ∧
      t.status.done = true := by
  induction es with
  | nil =>
    intro s he hb _
    obtain ⟨t, ht, hend⟩ := engineTurn_completes hb
    exact ⟨1, le_rfl, t, run_succ (M := core) 0 ((step_of_nil he).trans ht), hend⟩
  | cons e es ih =>
    intro s he hb hrst
    cases e with
    | host a =>
      obtain ⟨hbusy, hevents⟩ := answerAccess_busy (s := { s with events := es }) hb a
      obtain ⟨k, hk, t, ht, hend⟩ := ih _ hevents hbusy (List.not_mem_of_not_mem_cons hrst)
      exact ⟨k + 1, Nat.succ_le_succ hk, t, (run_succ (M := core) k (step_of_host he)).trans ht, hend⟩
    | engine =>
      obtain ⟨t, ht, hend⟩ := engineTurn_completes (s := { s with events := es }) hb
      exact ⟨1, Nat.le_add_left 1 _, t, run_succ (M := core) 0 ((step_of_engine he).trans ht), hend⟩
    | rst => exact absurd List.mem_cons_self hrst

theorem runEnded_iff (s : State) : runEnded s = true ↔ s.status.busy = false ∧ ∀ e ∈ s.events, e.isHost = false := by
  simp [runEnded]

/-- The idle engine does nothing (R14). -/
theorem engineTurn_idle {s : State} (hb : s.status.busy = false) : engineTurn s = .next s := by
  simp [engineTurn, hb]

/-- What follows an ended run is turns of the idle engine and resets, which leave the block idle (R16). -/
theorem step_runEnded {s t : State} (hend : runEnded s = true) (h : step s = .next t) : runEnded t = true := by
  obtain ⟨hb, hall⟩ := (runEnded_iff s).1 hend
  cases he : s.events with
  | nil =>
    rw [step_of_nil he, engineTurn_idle hb] at h
    cases h
    exact hend
  | cons e es =>
    have hrest : ∀ e' ∈ es, e'.isHost = false := fun e' he' => hall e' (he ▸ List.mem_cons_of_mem e he')
    rw [runEnded_iff]
    cases e with
    | host a => cases hall (.host a) (he ▸ List.mem_cons_self)
    | engine =>
      rw [step_of_engine he, engineTurn_idle (s := { s with events := es }) hb] at h
      cases h
      exact ⟨hb, hrest⟩
    | rst =>
      rw [step_of_rst he] at h
      cases h
      exact ⟨rfl, hrest⟩

/-- Settles O50: the command ends at the engine's turn, which no access puts off for ever. -/
theorem everyCommandCompletes : Obligations.EveryCommandCompletes :=
  ⟨fun s => run_completes s.events s rfl, fun s hb => by simp [runEnded, hb], fun _ _ => step_runEnded⟩

end Sys2Proof.Machine
